-- ==== Sys2Proof/Word.lean ====
section
/-! DEFINITION. The word types of the krotos DSP core: a 64-bit IEEE pattern (00_scope.md R13) and a
complex pair of them (R14). Bits are numbered from 0 (R12). -/

namespace Sys2Proof

/-- `f64` (R13): an IEEE 754 binary64 bit pattern, held exactly (10_state.md R46). -/
abbrev F64 := BitVec 64

/-- `c64` (R14): a complex number, a pair of binary64 patterns. -/
structure C64 where
  re : F64
  im : F64
  deriving DecidableEq, Repr, Inhabited

/-- `+0.0` (R13). -/
abbrev F64.zero : F64 := 0x0000000000000000#64

/-- `-0.0` (R13), a value distinct from `+0.0`. -/
abbrev F64.negZero : F64 := 0x8000000000000000#64

/-- `1.0`. -/
abbrev F64.one : F64 := 0x3FF0000000000000#64

/-- `+∞`. -/
abbrev F64.posInf : F64 := 0x7FF0000000000000#64

/-- `(+0.0, +0.0)`: the complex zero of reset (10_state.md R52) and of a masked bin (R242). -/
abbrev C64.zero : C64 := ⟨F64.zero, F64.zero⟩

/-- `ONE = (1.0, +0.0)` (41_fft.md R183). -/
abbrev C64.one : C64 := ⟨F64.one, F64.zero⟩

end Sys2Proof
end

