-- ==== Sys2Proof/Config.lean ====
section
/-! DEFINITION. What a part of the family fixes and the spec does not: its parameters (00_scope.md R7,
R10; 93_implementation_defined.md rows 5 to 9) and the free values (R20 UNSPECIFIED). A free value is
an opaque constant: no proof can see it. -/

namespace Sys2Proof

/-- The operations whose result can be a NaN of unspecified sign and payload (R143, R158, R159). -/
inductive FOp where
  | add | sub | mul | div | hypot | atan2
  deriving DecidableEq, Repr

/-- Which function a part has for MAG_FN or for PHASE_FN (R10): the spec's default, correctly rounded
hypot or atan2, or a function of the part's own, of which nothing is known. -/
inductive MathFn where
  | default | part
  deriving DecidableEq, Repr

/-- The parameters of a part that its behaviour depends on: `LOG2N_MAX`, 1 to 12 (R7), and the choice
of MAG_FN and that of PHASE_FN, a field each (R10). The ROM W_BASE (R9) is the state's TWROM. DESIGN
CHOICE (log entry 1). -/
structure Params where
  log2nMax : { n : Nat // 1 ≤ n ∧ n ≤ 12 }
  magFn : MathFn
  phaseFn : MathFn
  deriving DecidableEq, Repr

/-- `N_MAX = 2^LOG2N_MAX` (R7). -/
def Params.nMax (p : Params) : Nat := 2 ^ p.log2nMax.val

/-- The defaults: LOG2N_MAX = 10 (R7), MAG_FN and PHASE_FN the correctly rounded hypot and atan2
(R10). -/
def Params.standard : Params := ⟨⟨10, by decide⟩, .default, .default⟩

/-- `CORE_BASE` (20_memory.md R80): where the platform places the register space. The core decodes
offsets only, so nothing in the model depends on it (log entry 19). -/
opaque Config.coreBase : Nat

/-- FREE VALUE (R143): the sign (bit 51) and fraction bits 50:0 of the quiet NaN an operation delivers,
a configuration function of the operands, which R143 allows. DESIGN CHOICE (log entry 12). -/
opaque Config.nanBits : FOp → F64 → F64 → BitVec 52

/-- FREE VALUE (R20): the `n`-th UNSPECIFIED value a run draws, from the counter `State.draws`: the
data of a refused read (R306), and the half of an unwritten element that a 4-byte write leaves. DESIGN
CHOICE (log entry 13). -/
opaque Config.freeBits : Nat → BitVec 64

/-- FREE VALUE (R10): the MAG_FN of a part whose MAG_FN is not the default (log entry 16). -/
opaque Config.partMag : F64 → F64 → F64

/-- FREE VALUE (R10): the PHASE_FN of a part whose PHASE_FN is not the default (log entry 16). -/
opaque Config.partPhase : F64 → F64 → F64

end Sys2Proof
end

