-- ==== Sys2Proof/Syntax.lean ====
section
/-! DEFINITION. The commands of the core (30_encoding.md R114): one constructor for each row of
spec/opcode_table.json, carrying the fields its format uses (R111, R113). -/

namespace Sys2Proof

/-- The 19 commands (R114). `cjo` is the conjugate-output bit, `l` the twiddle stage and `j` the
twiddle index (R111). Every data operand is implicit (R117). -/
inductive Instr where
  | nop
  | fft
  | ifft (cjo : Bool)
  | bpmask
  | filter (cjo : Bool)
  | r2c
  | c2r
  | denoise (cjo : Bool)
  | wpush
  | cadd
  | csub
  | cmul
  | cdivr
  | cconj
  | cmag
  | cphase
  | twgen (l : BitVec 4) (j : BitVec 16)
  | ctwmul (l : BitVec 4) (j : BitVec 16)
  | bfly (l : BitVec 4) (j : BitVec 16)
  deriving DecidableEq, Repr

/-- The four formats (R113). -/
inductive Format where
  | op | seq | seqc | tw
  deriving DecidableEq, Repr

/-- The error causes (60_exceptions.md R301). -/
inductive ErrorCause where
  | illegalOpcode
  | reservedField
  | badLength
  | badTwiddle
  | cmdWhileBusy
  | accessWhileBusy
  deriving DecidableEq, Repr

end Sys2Proof
end

