-- ==== Sys2Proof/Decode.lean ====
section
/-! DEFINITION. Decoding a command word (30_encoding.md R115), total, with the named error of each word
that is no command; and the encoder, from the same table (R111, R114). -/

namespace Sys2Proof

/-- The cause code recorded in STATUS.ECODE (R301). -/
def ErrorCause.code : ErrorCause → BitVec 8
  | .illegalOpcode => 0x01#8
  | .reservedField => 0x02#8
  | .badLength => 0x03#8
  | .badTwiddle => 0x04#8
  | .cmdWhileBusy => 0x05#8
  | .accessWhileBusy => 0x06#8

/-- A command's format (R113, R114). -/
def Instr.format : Instr → Format
  | .nop | .cadd | .csub | .cmul | .cdivr | .cconj | .cmag | .cphase => .op
  | .fft | .bpmask | .r2c | .c2r | .wpush => .seq
  | .ifft _ | .filter _ | .denoise _ => .seqc
  | .twgen _ _ | .ctwmul _ _ | .bfly _ _ => .tw

/-- A command's OPC (R114). -/
def Instr.opc : Instr → BitVec 8
  | .nop => 0x00#8
  | .fft => 0x01#8
  | .ifft _ => 0x02#8
  | .bpmask => 0x03#8
  | .filter _ => 0x04#8
  | .r2c => 0x05#8
  | .c2r => 0x06#8
  | .denoise _ => 0x07#8
  | .wpush => 0x08#8
  | .cadd => 0x10#8
  | .csub => 0x11#8
  | .cmul => 0x12#8
  | .cdivr => 0x13#8
  | .cconj => 0x14#8
  | .cmag => 0x15#8
  | .cphase => 0x16#8
  | .twgen _ _ => 0x18#8
  | .ctwmul _ _ => 0x19#8
  | .bfly _ _ => 0x1A#8

/-- A command's CJO field, 0 where its format has none (R115). -/
def Instr.cjo : Instr → Bool
  | .ifft c | .filter c | .denoise c => c
  | _ => false

/-- A command's L field, 0 where its format has none (R115). -/
def Instr.stage : Instr → BitVec 4
  | .twgen l _ | .ctwmul l _ | .bfly l _ => l
  | _ => 0#4

/-- A command's J field, 0 where its format has none (R115). -/
def Instr.index : Instr → BitVec 16
  | .twgen _ j | .ctwmul _ j | .bfly _ j => j
  | _ => 0#16

/-- The command of an opcode with its fields (R114); none for a reserved opcode (R116). -/
def assemble (opc : BitVec 8) (cjo : Bool) (l : BitVec 4) (j : BitVec 16) : Option Instr :=
  match opc.toNat with
  | 0x00 => some .nop
  | 0x01 => some .fft
  | 0x02 => some (.ifft cjo)
  | 0x03 => some .bpmask
  | 0x04 => some (.filter cjo)
  | 0x05 => some .r2c
  | 0x06 => some .c2r
  | 0x07 => some (.denoise cjo)
  | 0x08 => some .wpush
  | 0x10 => some .cadd
  | 0x11 => some .csub
  | 0x12 => some .cmul
  | 0x13 => some .cdivr
  | 0x14 => some .cconj
  | 0x15 => some .cmag
  | 0x16 => some .cphase
  | 0x18 => some (.twgen l j)
  | 0x19 => some (.ctwmul l j)
  | 0x1A => some (.bfly l j)
  | _ => none

/-- The bits of a word that a format leaves unused are not all 0 (R113, R115). -/
def reservedSet (f : Format) (w : BitVec 32) : Bool :=
  match f with
  | .op | .seq => w.extractLsb' 8 24 != 0#24
  | .seqc => w.extractLsb' 9 23 != 0#23
  | .tw => w.extractLsb' 8 4 != 0#4

/-- `decode(w)` (R115): the opcode is checked first, then the reserved fields. -/
def decode (w : BitVec 32) : Except ErrorCause Instr :=
  match assemble (w.extractLsb' 0 8) (w.getLsbD 8) (w.extractLsb' 12 4) (w.extractLsb' 16 16) with
  | none => .error .illegalOpcode
  | some i => if reservedSet i.format w then .error .reservedField else .ok i

/-- `(J << 16) | (L << 12) | (CJO << 8) | OPC` (R111, R120). -/
def encode (i : Instr) : BitVec 32 :=
  i.index ++ i.stage ++ 0#3 ++ BitVec.ofBool i.cjo ++ i.opc

/-- The "match" column of spec/opcode_table.json: the word with every field 0. -/
def Instr.tableMatch : Instr → BitVec 32
  | .nop => 0x00000000#32
  | .fft => 0x00000001#32
  | .ifft _ => 0x00000002#32
  | .bpmask => 0x00000003#32
  | .filter _ => 0x00000004#32
  | .r2c => 0x00000005#32
  | .c2r => 0x00000006#32
  | .denoise _ => 0x00000007#32
  | .wpush => 0x00000008#32
  | .cadd => 0x00000010#32
  | .csub => 0x00000011#32
  | .cmul => 0x00000012#32
  | .cdivr => 0x00000013#32
  | .cconj => 0x00000014#32
  | .cmag => 0x00000015#32
  | .cphase => 0x00000016#32
  | .twgen _ _ => 0x00000018#32
  | .ctwmul _ _ => 0x00000019#32
  | .bfly _ _ => 0x0000001A#32

/-- The "mask" column of spec/opcode_table.json: the bits the match fixes. -/
def Instr.tableMask : Instr → BitVec 32
  | .nop | .fft | .bpmask | .r2c | .c2r | .wpush => 0xFFFFFFFF#32
  | .cadd | .csub | .cmul | .cdivr | .cconj | .cmag | .cphase => 0xFFFFFFFF#32
  | .ifft _ | .filter _ | .denoise _ => 0xFFFFFEFF#32
  | .twgen _ _ | .ctwmul _ _ | .bfly _ _ => 0x00000FFF#32

/-- The command this decoder reads from `nbits` bits numbered as spec/opcode_table.json numbers them:
one 32-bit word (R110), bit 0 its least significant bit; bits above `nbits` are 0. -/
def decodeTableWord (nbits w : Nat) : Option Instr :=
  if w % 2 ^ nbits < 2 ^ 32 then
    match decode (BitVec.ofNat 32 (w % 2 ^ nbits)) with
    | .ok i => some i
    | .error _ => none
  else none

end Sys2Proof
end

