-- ==== Sys2Proof/Machine/Float.lean ====
section
/-! DEFINITION. IEEE 754 binary64 arithmetic (00_scope.md R13, R15; 40_complex_alu.md R140 to R144):
roundTiesToEven, gradual underflow, no fusion, no flags. Every finite operand is an exact integer in
units of 2^-1074, every result an exact rational rounded once. What the rules leave to IEEE 754-2008 (the
signs of zero results, infinite operands) is PRESUMED from it (log entry 24). -/

namespace Sys2Proof

/-- Bit 63, the sign (R13). -/
def f64Sign (a : F64) : Bool := a.getLsbD 63

/-- Bits 62:52, the biased exponent (R13). -/
def f64Exp (a : F64) : Nat := (a.extractLsb' 52 11).toNat

/-- Bits 51:0, the fraction (R13). -/
def f64Frac (a : F64) : Nat := (a.extractLsb' 0 52).toNat

/-- A pattern is a NaN: exponent all ones, fraction not 0. -/
def isNaN (a : F64) : Bool := f64Exp a == 2047 && f64Frac a != 0

/-- A pattern is an infinity: exponent all ones, fraction 0. -/
def isInf (a : F64) : Bool := f64Exp a == 2047 && f64Frac a == 0

/-- A pattern is neither a NaN nor an infinity. -/
def isFinite (a : F64) : Bool := f64Exp a != 2047

/-- A pattern is a zero of either sign. -/
def isZero (a : F64) : Bool := f64Exp a == 0 && f64Frac a == 0

/-- A quiet NaN (R143): exponent all ones and fraction bit 51 set. -/
def isQuietNaN (a : F64) : Bool := f64Exp a == 2047 && a.getLsbD 51

/-- The magnitude of a finite pattern in units of 2^-1074, exact for subnormals too (R141). -/
def magUnits (a : F64) : Nat :=
  if f64Exp a = 0 then f64Frac a else (2 ^ 52 + f64Frac a) * 2 ^ (f64Exp a - 1)

/-- The value of a finite pattern in units of 2^-1074. -/
def valUnits (a : F64) : Int :=
  if f64Sign a then -(magUnits a : Int) else (magUnits a : Int)

/-- A pattern from its sign and its lower 63 bits. -/
def withSign (s : Bool) (mag : BitVec 63) : F64 := BitVec.ofBool s ++ mag

/-- A zero of the given sign. -/
def signedZero (s : Bool) : F64 := withSign s 0#63

/-- An infinity of the given sign. -/
def signedInf (s : Bool) : F64 := withSign s 0x7FF0000000000000#63

/-- The quiet NaN whose sign and fraction bits 50:0 are the given 52 bits (R143). -/
def quietNaN (v : BitVec 52) : F64 := v.extractLsb' 51 1 ++ 0xFFF#12 ++ v.extractLsb' 0 51

/-- The NaN an operation delivers (R143): quiet, its sign and payload unspecified. -/
def nanResult (op : FOp) (a b : F64) : F64 := quietNaN (Config.nanBits op a b)

/-- The exponent of the last place, above 2^-1074, of a magnitude whose integer part is `t`. -/
def ulpShift (t : Nat) : Nat := if t < 2 ^ 53 then 0 else Nat.log2 t - 52

/-- `num / den` rounded to the nearest integer, ties to even. -/
def roundNearestEven (num den : Nat) : Nat :=
  let q := num / den
  let r := num % den
  if 2 * r > den ∨ (2 * r = den ∧ q % 2 = 1) then q + 1 else q

/-- The exact magnitude `(num / den) * 2^-1074` with a sign, rounded once to binary64 under
roundTiesToEven (R140): subnormal results on the subnormal grid (R141), overflow to infinity (R144).
The 63 low bits of a binary64 pattern with last place `2^k` and significand `q` are `k * 2^52 + q`. -/
def roundRat (s : Bool) (num den : Nat) : F64 :=
  let k := ulpShift (num / den)
  let bits := k * 2 ^ 52 + roundNearestEven num (den * 2 ^ k)
  if bits < 0x7FF0000000000000 then withSign s (BitVec.ofNat 63 bits) else signedInf s

/-- `neg64` (R15, R142): flips bit 63 and nothing else. -/
def neg64 (a : F64) : F64 := a ^^^ 0x8000000000000000#64

/-- The sum of two patterns that are not NaNs; `nan` is the result of an invalid operation. A zero sum
of operands of one sign keeps it, any other exact zero sum is `+0.0`. -/
def sumNonNaN (nan a b : F64) : F64 :=
  if isInf a then (if isInf b && f64Sign a != f64Sign b then nan else a)
  else if isInf b then b
  else
    let v := valUnits a + valUnits b
    if v = 0 then signedZero (f64Sign a && f64Sign b) else roundRat (v < 0) v.natAbs 1

/-- `add64` (R15, R140). -/
def add64 (a b : F64) : F64 :=
  if isNaN a || isNaN b then nanResult .add a b else sumNonNaN (nanResult .add a b) a b

/-- `sub64` (R15, R140): the sum with the second operand's sign flipped. -/
def sub64 (a b : F64) : F64 :=
  if isNaN a || isNaN b then nanResult .sub a b else sumNonNaN (nanResult .sub a b) a (neg64 b)

/-- `mul64` (R15, R140). -/
def mul64 (a b : F64) : F64 :=
  let s := f64Sign a != f64Sign b
  if isNaN a || isNaN b || (isInf a && isZero b) || (isZero a && isInf b) then nanResult .mul a b
  else if isInf a || isInf b then signedInf s
  else roundRat s (magUnits a * magUnits b) (2 ^ 1074)

/-- `div64` (R15, R140): a non-zero finite dividend over a zero gives an infinity (R144). -/
def div64 (a b : F64) : F64 :=
  let s := f64Sign a != f64Sign b
  if isNaN a || isNaN b || (isInf a && isInf b) || (isZero a && isZero b) then nanResult .div a b
  else if isInf a || isZero b then signedInf s
  else if isInf b then signedZero s
  else roundRat s (magUnits a * 2 ^ 1074) (magUnits b)

/-- A key that orders the patterns that are not NaNs as their values; both zeros are 0. -/
def orderKey (a : F64) : Int :=
  if f64Sign a then -((a.extractLsb' 0 63).toNat : Int) else ((a.extractLsb' 0 63).toNat : Int)

/-- `le64` (R15): the IEEE ordered comparison, false when either operand is a NaN. -/
def le64 (a b : F64) : Bool := !isNaN a && !isNaN b && decide (orderKey a ≤ orderKey b)

/-- `i2f` (R15): the binary64 of a natural number, exact below 2^53. -/
def i2f (k : Nat) : F64 := roundRat false (k * 2 ^ 1074) 1

end Sys2Proof
end

