-- ==== Sys2Proof/Machine/Complex.lean ====
section
/-! DEFINITION. The complex primitives (40_complex_alu.md R145 to R149), each in the operations and the
nesting its rule shows (R140: nothing fused, nothing reassociated). -/

namespace Sys2Proof

/-- `cadd` (R145). -/
def cadd (a b : C64) : C64 := ⟨add64 a.re b.re, add64 a.im b.im⟩

/-- `csub` (R146). -/
def csub (a b : C64) : C64 := ⟨sub64 a.re b.re, sub64 a.im b.im⟩

/-- `cmul` (R147): four products and two sums, each rounded once. -/
def cmul (a b : C64) : C64 :=
  ⟨sub64 (mul64 a.re b.re) (mul64 a.im b.im), add64 (mul64 a.re b.im) (mul64 a.im b.re)⟩

/-- `cconj` (R148): exact, the sign bit of the imaginary part flipped. -/
def cconj (a : C64) : C64 := ⟨a.re, neg64 a.im⟩

/-- `cdivr` (R149): both parts divided by a real. -/
def cdivr (a : C64) (s : F64) : C64 := ⟨div64 a.re s, div64 a.im s⟩

end Sys2Proof
end

