-- ==== Sys2Proof/Machine/Twiddle.lean ====
section
/-! DEFINITION. The twiddle-factor ROM's default contents (41_fft.md R181), the accumulated twiddle
(R183), the butterfly (R186) and the forward transform (R190). -/

namespace Sys2Proof

/-- W_BASE (R181), rows 1 to 12 of its table; the entries no stage can use are `(+0.0, +0.0)` (R42). -/
def defaultRom : Vector C64 16 :=
  #v[C64.zero,
     ⟨0xBFF0000000000000#64, 0xBCA1A62633145C07#64⟩,
     ⟨0x3C91A62633145C07#64, 0xBFF0000000000000#64⟩,
     ⟨0x3FE6A09E667F3BCD#64, 0xBFE6A09E667F3BCC#64⟩,
     ⟨0x3FED906BCF328D46#64, 0xBFD87DE2A6AEA963#64⟩,
     ⟨0x3FEF6297CFF75CB0#64, 0xBFC8F8B83C69A60A#64⟩,
     ⟨0x3FEFD88DA3D12526#64, 0xBFB917A6BC29B42C#64⟩,
     ⟨0x3FEFF621E3796D7E#64, 0xBFA91F65F10DD814#64⟩,
     ⟨0x3FEFFD886084CD0D#64, 0xBF992155F7A3667E#64⟩,
     ⟨0x3FEFFF62169B92DB#64, 0xBF8921D1FCDEC784#64⟩,
     ⟨0x3FEFFFD8858E8A92#64, 0xBF7921F0FE670071#64⟩,
     ⟨0x3FEFFFF621621D02#64, 0xBF6921F8BECCA4BA#64⟩,
     ⟨0x3FEFFFFD88586EE6#64, 0xBF5921FAAEE6472D#64⟩,
     C64.zero, C64.zero, C64.zero]

/-- The twiddle chain of a base (R183): starting from ONE, multiplied by the base once per step. -/
def twChain (w : C64) : Nat → C64
  | 0 => C64.one
  | j + 1 => cmul (twChain w j) w

/-- The next `n` values of the chain of `w`, from the accumulated value `acc` on: the source's loop, one
multiplication per step (R183). -/
def twList (w acc : C64) : Nat → List C64
  | 0 => []
  | n + 1 => acc :: twList w (cmul acc w) n

/-- `TWACC(L, j)` (R183), for the ROM given as a function of the stage. -/
def twAcc (rom : Nat → C64) (l j : Nat) : C64 := twChain (rom l) j

/-- The two outputs of the butterfly with twiddle `w` (R186): `t = w · o` once, then `e + t`, `e - t`. -/
def butterflyWith (w e o : C64) : C64 × C64 :=
  let t := cmul w o
  (cadd e t, csub e t)

/-- `BUTTERFLY(e, o, L, j)` (R186). -/
def butterfly (rom : Nat → C64) (e o : C64) (l j : Nat) : C64 × C64 := butterflyWith (twAcc rom l j) e o

/-- The even-indexed elements, in order (R190). -/
def evens : List C64 → List C64
  | [] => []
  | [x] => [x]
  | x :: _ :: rest => x :: evens rest

/-- The odd-indexed elements, in order (R190). -/
def odds : List C64 → List C64
  | [] => []
  | [_] => []
  | _ :: y :: rest => y :: odds rest

/-- The butterflies of one combination step, by position (R190). -/
def butterflies : List C64 → List C64 → List C64 → List (C64 × C64)
  | w :: ws, e :: es, o :: os => butterflyWith w e o :: butterflies ws es os
  | _, _, _ => []

/-- Stage `l` combines the transforms of the two halves: the first outputs are bins `0..n/2-1`, the
second outputs bins `n/2..n-1` (R190). -/
def combine (rom : Nat → C64) (l : Nat) (ev od : List C64) : List C64 :=
  let b := butterflies (twList (rom l) C64.one ev.length) ev od
  b.map Prod.fst ++ b.map Prod.snd

/-- The forward transform of a sequence of length `2^l` by its recursion (R190), on the stage `l`. -/
def fftStage (rom : Nat → C64) : Nat → List C64 → List C64
  | 0, x => x
  | l + 1, x => combine rom (l + 1) (fftStage rom l (evens x)) (fftStage rom l (odds x))

/-- `FFT` (R190): the identity for a length of 0 or 1, the recursion for a power of two. -/
def fft (rom : Nat → C64) (x : List C64) : List C64 := fftStage rom (Nat.log2 x.length) x

end Sys2Proof
end

