-- ==== Sys2Proof/Machine/State.lean ====
section
/-! DEFINITION. The state of the core (10_state.md R30), the host's pending actions, the reasons a step
can stop, and the state after a power-on reset (R52). The state is plain data. -/

namespace Sys2Proof.Machine

/-- The bytes of the buffers WIN, X and OUT, at their offsets in the host register space (20_memory.md
R83). A listed byte is written, an unlisted one has no value (70_reset_and_hazards.md R346; log entries 5, 7
and 23). -/
abbrev Memory := List Host.Cell

/-- The canonical form: addresses strictly rising. No entry can equal what an unlisted address reads
as, since that is no value. -/
abbrev Memory.wf (m : Memory) : Prop := m.Pairwise fun c d => c.1 < d.1

/-- The latched command (R48): the accepted word, and `N_cmd`, the length sampled at acceptance. -/
structure Latched where
  cmd : BitVec 32
  n : BitVec 16
  deriving DecidableEq, Repr

/-- What can happen next (00_scope.md R24, R18; R340): a host access of a width in bytes at an offset of
the register space, the engine's turn to complete its command, or a change of the input `rst_n`. -/
inductive HostEvent where
  | read (off : BitVec 18) (width : Nat)
  | write (off : BitVec 18) (width : Nat) (data : BitVec 64)
  | engine
  | resetLow
  | resetHigh
  deriving DecidableEq, Repr

/-- The answer to a host access (R18, R88): OK with data (a 4-byte read answers its 32 bits,
zero-extended; log entry 11), OK to a write, or BUS_ERROR, to a read with its data. -/
inductive BusResponse where
  | readOk (data : BitVec 64)
  | writeOk
  | readError (data : BitVec 64)
  | writeError
  deriving DecidableEq, Repr

/-- The state of the core, and with it what the model needs of its environment. STATUS.BUSY is
`engine.isSome` (R48; DEDUCED, log entry 22), ID is a function of `params` (R31), and `irq` of CTRL and STATUS (R50). -/
structure State where
  /-- The parameters of the part; no step changes them (R7, R10). ID shows LOG2N_MAX (R31). -/
  params : Params
  /-- CTRL.IE (R32). -/
  ie : Bool
  /-- STATUS.DONE (R33). -/
  done : Bool
  /-- STATUS.ERR (R33). -/
  err : Bool
  /-- STATUS.ECODE (R33). -/
  ecode : BitVec 8
  /-- STATUS.LASTOP (R33). -/
  lastop : BitVec 8
  /-- CMD.CMDWORD (R35). -/
  cmdword : BitVec 32
  /-- NLEN.N (R34). -/
  nlen : BitVec 16
  /-- BAND_LO (R36). -/
  bandLo : F64
  /-- BAND_HI (R36). -/
  bandHi : F64
  /-- SAMPLE (R37). -/
  sample : F64
  /-- SCALAR (R38). -/
  scalar : F64
  /-- CA (R39). -/
  ca : C64
  /-- CB (R39). -/
  cb : C64
  /-- CR (R40). -/
  cr : C64
  /-- CS (R40). -/
  cs : C64
  /-- TWROM's contents (R42), W_BASE of the part; no step changes them (log entry 2). -/
  twrom : Vector C64 16
  /-- WIN, X and OUT (R43 to R45), with the written marks of R346. -/
  mem : Memory
  /-- The engine: the command it runs, or idle (R48). -/
  engine : Option Latched
  /-- The level of the input `rst_n` (R340; log entry 17). -/
  rstN : Bool
  /-- MODEL: what happens next, in order; any interleaving of host and engine is some list (R24, R312).
  DESIGN CHOICE (log entry 10). -/
  inputs : List HostEvent
  /-- MODEL: the answer to the last host access (R18). DESIGN CHOICE (log entry 11). -/
  resp : Option BusResponse
  /-- MODEL: how many UNSPECIFIED values have been drawn (R20). DESIGN CHOICE (log entry 13). -/
  draws : Nat
  deriving DecidableEq, Repr

/-- Why the machine stops with a fault: the two reads R346 tells a model to treat as faults. -/
inductive Fault where
  /-- Raised by the engine when a command reads a buffer element among its operands that nothing has
  written (R346). Safe: the hardware goes on with unspecified bits. -/
  | unwrittenOperand
  /-- Raised by a host read of a buffer element that nothing has written (R346). Safe: the hardware
  returns unspecified bits. -/
  | unwrittenRead
  deriving DecidableEq, Repr

/-- Why the machine has no meaning for an instruction. -/
inductive Refusal where
  /-- Raised by an arm of `exec` that has no meaning yet; no arm is left so. Safe: nothing is claimed of
  the instruction. -/
  | notModelled (mnemonic : String)
  deriving DecidableEq, Repr

/-- The outcome of a step of this machine. -/
abbrev Result := Host.Outcome State Fault Refusal

/-- The state after a power-on reset with `rst_n` high again (R52, R340): every register at the value R52
gives, no buffer element written, the engine idle; the default part (R7, R9, R10), no action of the host
pending. -/
def State.reset : State where
  params := Params.standard
  ie := false
  done := false
  err := false
  ecode := 0x00#8
  lastop := 0x00#8
  cmdword := 0x00000000#32
  nlen := 0#16
  bandLo := F64.zero
  bandHi := F64.zero
  sample := F64.zero
  scalar := F64.zero
  ca := C64.zero
  cb := C64.zero
  cr := C64.zero
  cs := C64.zero
  twrom := defaultRom
  mem := []
  engine := none
  rstN := true
  inputs := []
  resp := none
  draws := 0

end Sys2Proof.Machine
end

