-- ==== Sys2Proof/Machine/Ops.lean ====
section
/-! DEFINITION. The named operations: bytes and elements of the buffers (20_memory.md R83, R84), the
registers' views, acceptance and completion (60_exceptions.md R308, R309), recording an error and
clearing it (R305, R314), and the resets (70_reset_and_hazards.md R340 to R343). -/

namespace Sys2Proof.Machine

/-! ### Memory -/

/-- The byte at an address, if it has been written. -/
def readByte : Memory → Nat → Option (BitVec 8)
  | [], _ => none
  | (k, b) :: rest, a => if k = a then some b else readByte rest a

/-- Writes one byte, keeping the addresses strictly rising. -/
def writeByte : Memory → Nat → BitVec 8 → Memory
  | [], a, b => [(a, b)]
  | (k, c) :: rest, a, b =>
    if a < k then (a, b) :: (k, c) :: rest
    else if a = k then (a, b) :: rest
    else (k, c) :: writeByte rest a b

/-- The little-endian number in `n` bytes from an address on, if all are written (R84). -/
def readLE (m : Memory) (a : Nat) : Nat → Option Nat
  | 0 => some 0
  | n + 1 =>
    match readByte m a, readLE m (a + 1) n with
    | some b, some r => some (b.toNat + 256 * r)
    | _, _ => none

/-- Writes a number as `n` little-endian bytes from an address on (R84). -/
def writeLE (m : Memory) (a v : Nat) : Nat → Memory
  | 0 => m
  | n + 1 => writeLE (writeByte m a (BitVec.ofNat 8 v)) (a + 1) (v / 256) n

/-- A 64-bit element of a buffer, if it is written (R46, R346). -/
def readElem (m : Memory) (a : Nat) : Option F64 :=
  match readLE m a 8 with
  | some v => some (BitVec.ofNat 64 v)
  | none => none

/-- Writes a 64-bit element of a buffer (R46). -/
def writeElem (m : Memory) (a : Nat) (v : F64) : Memory := writeLE m a v.toNat 8

/-- `n` elements from an address on, `stride` bytes apart, if all are written. -/
def readF64s (m : Memory) (stride : Nat) (a : Nat) : Nat → Option (List F64)
  | 0 => some []
  | n + 1 =>
    match readElem m a, readF64s m stride (a + stride) n with
    | some x, some xs => some (x :: xs)
    | _, _ => none

/-- A c64 element: re at the lower 8 bytes, im at the upper 8 (00_scope.md R14). -/
def readC64 (m : Memory) (a : Nat) : Option C64 :=
  match readElem m a, readElem m (a + 8) with
  | some re, some im => some ⟨re, im⟩
  | _, _ => none

/-- `n` c64 elements from an address on, if all are written. -/
def readC64s (m : Memory) (a : Nat) : Nat → Option (List C64)
  | 0 => some []
  | n + 1 =>
    match readC64 m a, readC64s m (a + 16) n with
    | some z, some zs => some (z :: zs)
    | _, _ => none

/-- Writes f64 elements one after another from an address on. -/
def writeF64s (m : Memory) (a : Nat) : List F64 → Memory
  | [] => m
  | x :: xs => writeF64s (writeElem m a x) (a + 8) xs

/-- Writes c64 elements one after another from an address on (R14). -/
def writeC64s (m : Memory) (a : Nat) : List C64 → Memory
  | [] => m
  | z :: zs => writeC64s (writeElem (writeElem m a z.re) (a + 8) z.im) (a + 16) zs

/-- Makes the bytes of a range unwritten (R343, R346). -/
def eraseRange (m : Memory) (lo len : Nat) : Memory :=
  m.filter fun c => !(decide (lo ≤ c.1) && decide (c.1 < lo + len))

/-- The offset of WIN[0] (R83). -/
abbrev winBase : Nat := 0x10000

/-- The offset of X[0].re (R83). -/
abbrev xBase : Nat := 0x20000

/-- The offset of OUT[0] (R83). -/
abbrev outBase : Nat := 0x30000

/-! ### The registers' views -/

/-- STATUS.BUSY (R33, R48): a command is latched. -/
def State.busy (s : State) : Bool := s.engine.isSome

/-- ID (R31): MAGIC, REV and LOG2NMAX. -/
def State.idWord (s : State) : BitVec 64 :=
  0#12 ++ BitVec.ofNat 4 s.params.log2nMax.val ++ 0x0001#16 ++ 0x4B525446#32

/-- CTRL (R32): IE; SRST reads 0. -/
def State.ctrlWord (s : State) : BitVec 64 := 0#63 ++ BitVec.ofBool s.ie

/-- CMD (R35). -/
def State.cmdReg (s : State) : BitVec 64 := 0#32 ++ s.cmdword

/-- NLEN (R34). -/
def State.nlenReg (s : State) : BitVec 64 := 0#48 ++ s.nlen

/-- TWROM[L] (R42): W_BASE for `1 ≤ L ≤ LOG2N_MAX`, `(+0.0, +0.0)` for every other stage. -/
def State.rom (s : State) (l : Nat) : C64 :=
  if h : 1 ≤ l ∧ l ≤ s.params.log2nMax.val then
    s.twrom[l]'(by have := s.params.log2nMax.property.2; omega)
  else C64.zero

/-- The length a command runs with: the one latched at acceptance (R48); for a command taken from an idle
engine, the length it would be accepted with. DESIGN CHOICE (log entry 25). -/
def State.cmdLen (s : State) : BitVec 16 :=
  match s.engine with
  | some l => l.n
  | none => s.nlen

/-- Writes CR (R40). -/
def State.setCR (s : State) (z : C64) : State := { s with cr := z }

/-- Writes CS (R40). -/
def State.setCS (s : State) (z : C64) : State := { s with cs := z }

/-- Replaces the buffers' bytes. -/
def State.setMem (s : State) (m : Memory) : State := { s with mem := m }

/-- Answers a host access (R18). -/
def State.respond (s : State) (r : BusResponse) : State := { s with resp := some r }

/-! ### Errors: recording one, and clearing it -/

/-- `raise Error(code)` (R305): the first code since ERR was cleared is kept, and ERR is set. Nothing
else changes: no mode, no vector, no program to redirect (R300, R313). -/
def State.raiseError (s : State) (e : ErrorCause) : State :=
  { s with ecode := if s.err then s.ecode else e.code, err := true }

/-- The host's answer to an error (R314, R33): a write of 1 to STATUS.ERR clears ERR and ECODE. -/
def State.clearError (s : State) : State := { s with err := false, ecode := 0x00#8 }

/-! ### Acceptance and completion -/

/-- `accept(w)` (R308): BUSY set, DONE cleared, LASTOP and the latch written; ERR and ECODE kept. -/
def State.accept (s : State) (w : BitVec 32) : State :=
  { s with done := false, lastop := w.extractLsb' 0 8, engine := some ⟨w, s.nlen⟩ }

/-- The end of a completion step (R309): BUSY cleared, DONE set. -/
def State.finish (s : State) : State := { s with engine := none, done := true }

/-- A command turned away (R305): the error is recorded and nothing is performed; the engine is idle.
DESIGN CHOICE (log entry 4). -/
def State.turnAway (s : State) (e : ErrorCause) : State := { s.raiseError e with engine := none }

/-! ### Resets -/

/-- Every register at its reset value, the engine idle (R52); the buffers, the constants of the part and
the environment are kept. -/
def State.resetRegs (s : State) : State :=
  { s with
    ie := false, done := false, err := false, ecode := 0x00#8, lastop := 0x00#8,
    cmdword := 0x00000000#32, nlen := 0#16,
    bandLo := F64.zero, bandHi := F64.zero, sample := F64.zero, scalar := F64.zero,
    ca := C64.zero, cb := C64.zero, cr := C64.zero, cs := C64.zero,
    engine := none }

/-- The destinations of a command abandoned at length `n` made unwritten (R343; log entry 18). -/
def eraseDestinations (m : Memory) (i : Instr) (n : Nat) : Memory :=
  match i with
  | .fft | .ifft _ | .bpmask | .r2c => eraseRange m xBase (16 * n)
  | .filter _ | .denoise _ => eraseRange (eraseRange m xBase (16 * n)) outBase (8 * n)
  | .c2r => eraseRange m outBase (8 * n)
  | .wpush => eraseRange m winBase (8 * n)
  | .nop | .cadd | .csub | .cmul | .cdivr | .cconj | .cmag | .cphase => m
  | .twgen _ _ | .ctwmul _ _ | .bfly _ _ => m

/-- The buffers after the running command, if any, is abandoned (R341, R343). -/
def State.abandonedMem (s : State) : Memory :=
  match s.engine with
  | none => s.mem
  | some l =>
    match decode l.cmd with
    | .ok i => eraseDestinations s.mem i l.n.toNat
    | .error _ => s.mem

/-- A soft reset (R342): the running command abandoned, every register reset, the other buffer elements
kept. -/
def State.softReset (s : State) : State := s.resetRegs.setMem s.abandonedMem

/-- `rst_n` falls (R340): the power-on reset state, with every buffer element unwritten. -/
def State.powerDown (s : State) : State := { s.resetRegs with mem := [], rstN := false }

/-- `rst_n` rises (R340): the core is idle in the state it held. -/
def State.powerUp (s : State) : State := { s with rstN := true }

end Sys2Proof.Machine
end

