-- ==== Sys2Proof/Machine/Flags.lean ====
section
/-! DEFINITION. STATUS, the core's only flags (10_state.md R33, R51), and the interrupt output that
follows from them (R50). Numeric conditions set no flag (40_complex_alu.md R144, 60_exceptions.md
R316). -/

namespace Sys2Proof.Machine

/-- STATUS as the host reads it (R33): BUSY 0, DONE 1, ERR 2, ECODE 15:8, LASTOP 23:16. -/
def State.statusWord (s : State) : BitVec 64 :=
  0#40 ++ s.lastop ++ s.ecode ++ 0#5 ++ BitVec.ofBool s.err ++ BitVec.ofBool s.done ++ BitVec.ofBool s.busy

/-- A write of 1 to STATUS.DONE (R33). -/
def State.clearDone (s : State) : State := { s with done := false }

/-- A write of STATUS (R33, R96): the W1C bits written as 1 are cleared, ECODE together with ERR; every
other bit is read-only. -/
def State.writeStatus (s : State) (done err : Bool) : State :=
  let s := if done then s.clearDone else s
  if err then s.clearError else s

/-- The level of the interrupt output (R50, R310): `CTRL.IE ∧ (STATUS.DONE ∨ STATUS.ERR)`. -/
def State.irq (s : State) : Bool := s.ie && (s.done || s.err)

end Sys2Proof.Machine
end

