-- ==== Sys2Proof/Machine/Pipeline.lean ====
section
/-! DEFINITION. The sequence functions of the signal pipeline: the inverse transform (42_ifft.md R220),
the mask (43_mask_filter.md R241, R242), the filter pass (R244), the adapters (44_real_adapter.md R260,
R262) and the window update (R265). -/

namespace Sys2Proof

/-- `IFFT(x, cjo)` (R220): conjugate, transform, divide by the length, and conjugate again for
`cjo = 1`. The empty sequence gives the empty sequence, with no division. -/
def ifft (rom : Nat → C64) (cjo : Bool) (x : List C64) : List C64 :=
  (fft rom (x.map cconj)).map fun y =>
    let z := cdivr y (i2f x.length)
    if cjo then cconj z else z

/-- The normalized frequency of bin `i` in a pass of length `n` (R241). -/
def binFreq (n i : Nat) : F64 := div64 (i2f i) (i2f n)

/-- `KEEP_n(i)` (R241): the bin's frequency lies in the band, both ends included. -/
def keepBin (lo hi : F64) (n i : Nat) : Bool := le64 lo (binFreq n i) && le64 (binFreq n i) hi

/-- `MASK_n` (R242) on the bins from index `i` on. -/
def maskFrom (lo hi : F64) (n : Nat) : Nat → List C64 → List C64
  | _, [] => []
  | i, x :: xs => (if keepBin lo hi n i then x else C64.zero) :: maskFrom lo hi n (i + 1) xs

/-- `MASK_N(x)` (R242). -/
def maskBins (lo hi : F64) (x : List C64) : List C64 := maskFrom lo hi x.length 0 x

/-- The complex sequence of a whole filter pass (R244): forward, mask, inverse. -/
def filterPass (rom : Nat → C64) (lo hi : F64) (cjo : Bool) (x : List C64) : List C64 :=
  ifft rom cjo (maskBins lo hi (fft rom x))

/-- `R2C_N(w)` (R260): the sample's bits and `+0.0`. -/
def realToComplex (w : List F64) : List C64 := w.map fun x => ⟨x, F64.zero⟩

/-- `C2R_N(x)` (R262): the real parts, bit for bit. -/
def realParts (x : List C64) : List F64 := x.map C64.re

/-- `WPUSH_N(w, s)` (R265): the oldest sample dropped, the new one appended. -/
def pushSample (w : List F64) (s : F64) : List F64 :=
  match w with
  | [] => []
  | _ :: rest => rest ++ [s]

end Sys2Proof
end

