-- ==== Sys2Proof/Machine/Operands.lean ====
section
/-! DEFINITION. The operands of the commands (30_encoding.md R117): the length and its check
(60_exceptions.md R302), the twiddle fields and theirs (R304), and the buffer ranges a sequence command
reads and writes (10_state.md R43 to R45, R47). -/

namespace Sys2Proof.Machine

/-- `invalidN` (R302): not 0, and no power of two or above N_MAX. -/
def invalidN (p : Params) (n : BitVec 16) : Bool :=
  n != 0#16 && ((n &&& (n - 1#16)) != 0#16 || decide (p.nMax < n.toNat))

/-- `invalidTW` (R304). -/
def invalidTW (p : Params) (l : BitVec 4) (j : BitVec 16) : Bool :=
  l == 0#4 || decide (p.log2nMax.val < l.toNat) || decide (2 ^ (l.toNat - 1) ≤ j.toNat)

/-- The 4th and 5th checks of a presented command (R303): the length for a sequence command, L and J for
a twiddle command, none for an operand command. -/
def commandError (p : Params) (n : BitVec 16) (i : Instr) : Option ErrorCause :=
  match i.format with
  | .op => none
  | .seq | .seqc => if invalidN p n then some .badLength else none
  | .tw => if invalidTW p i.stage i.index then some .badTwiddle else none

/-- A sequence command with the length it runs with; one whose length is invalid is turned away with
BAD_LENGTH (R302), which for a latched command acceptance has ruled out (R303, R309). -/
def State.seqCommand (s : State) (k : Nat → Result) : Result :=
  if invalidN s.params s.cmdLen then .next (s.turnAway .badLength) else k s.cmdLen.toNat

/-- A twiddle command with the accumulated twiddle it uses; one whose L or J is out of range is turned
away with BAD_TWIDDLE (R304), which for a latched command acceptance has ruled out (R303, R309). -/
def State.twCommand (s : State) (l : BitVec 4) (j : BitVec 16) (k : C64 → Result) : Result :=
  if invalidTW s.params l j then .next (s.turnAway .badTwiddle) else k (twAcc s.rom l.toNat j.toNat)

/-- `X[0..n-1]` as an operand; an unwritten element among them is a fault (R346; log entry 9). -/
def State.withX (s : State) (n : Nat) (k : List C64 → Result) : Result :=
  match readC64s s.mem xBase n with
  | some x => k x
  | none => .fault .unwrittenOperand

/-- The real parts of `X[0..n-1]` as an operand, the imaginary parts not inspected (R262); an unwritten
element among them is a fault (R346). DEDUCED (log entry 6). -/
def State.withXRe (s : State) (n : Nat) (k : List F64 → Result) : Result :=
  match readF64s s.mem 16 xBase n with
  | some x => k x
  | none => .fault .unwrittenOperand

/-- `WIN[0..n-1]` as an operand; an unwritten element among them is a fault (R346; log entry 9). -/
def State.withWin (s : State) (n : Nat) (k : List F64 → Result) : Result :=
  match readF64s s.mem 8 winBase n with
  | some w => k w
  | none => .fault .unwrittenOperand

/-- Writes a sequence to X from element 0 on. -/
def State.putX (s : State) (x : List C64) : State := s.setMem (writeC64s s.mem xBase x)

/-- Writes a sequence to OUT from element 0 on. -/
def State.putOut (s : State) (r : List F64) : State := s.setMem (writeF64s s.mem outBase r)

/-- Writes a sequence to WIN from element 0 on. -/
def State.putWin (s : State) (w : List F64) : State := s.setMem (writeF64s s.mem winBase w)

end Sys2Proof.Machine
end

