-- ==== Sys2Proof/Machine/Bus.lean ====
section
/-! DEFINITION. The host's accesses (20_memory.md R81 to R90): which register or element an offset
reaches, the bus errors, the busy guard (60_exceptions.md R306), reading, writing, and presenting a
command (R303). -/

namespace Sys2Proof.Machine

/-- The registers of the register block (R81). -/
inductive Reg where
  | id | ctrl | status | cmd | nlen | bandLo | bandHi | sample | scalar
  | caRe | caIm | cbRe | cbIm | crRe | crIm | csRe | csIm
  deriving DecidableEq, Repr

/-- What an offset reaches (R81, R83): a register, a part of TWROM[L], or an element of a buffer. -/
inductive Loc where
  | reg (r : Reg)
  | rom (l : Nat) (im : Bool)
  | win (i : Nat)
  | xRe (i : Nat)
  | xIm (i : Nat)
  | out (i : Nat)
  deriving DecidableEq, Repr

/-- The register in the `k`-th 8-byte slot of the register block (R81). -/
def regAt : Nat → Option Reg
  | 0 => some .id
  | 1 => some .ctrl
  | 2 => some .status
  | 3 => some .cmd
  | 4 => some .nlen
  | 5 => some .bandLo
  | 6 => some .bandHi
  | 7 => some .sample
  | 8 => some .scalar
  | 9 => some .caRe
  | 10 => some .caIm
  | 11 => some .cbRe
  | 12 => some .cbIm
  | 13 => some .crRe
  | 14 => some .crIm
  | 15 => some .csRe
  | 16 => some .csIm
  | _ => none

/-- What the offset `o` reaches (R81, R83); none for a reserved offset (R82). -/
def locate (p : Params) (o : Nat) : Option Loc :=
  if o < 0x100 then (regAt (o / 8)).map .reg
  else if o < 0x200 then some (.rom ((o - 0x100) / 16) (o / 8 % 2 == 1))
  else if o < winBase then none
  else if o < xBase then
    (if (o - winBase) / 8 < p.nMax then some (.win ((o - winBase) / 8)) else none)
  else if o < outBase then
    (if (o - xBase) / 16 < p.nMax then
      some (if o / 8 % 2 = 0 then .xRe ((o - xBase) / 16) else .xIm ((o - xBase) / 16))
    else none)
  else (if (o - outBase) / 8 < p.nMax then some (.out ((o - outBase) / 8)) else none)

/-- What an access reaches; none when it gets BUS_ERROR: a width other than 4 and 8 (R86), a misaligned
offset (R87), a reserved one (R82). -/
def target (p : Params) (o : BitVec 18) (width : Nat) : Option Loc :=
  if (width = 4 ∨ width = 8) ∧ o.toNat % width = 0 then locate p o.toNat else none

/-- The busy-guarded offsets (R306): every mapped one but ID, CTRL, STATUS, CMD and TWROM. -/
def busyGuarded : Loc → Bool
  | .reg .id | .reg .ctrl | .reg .status | .reg .cmd => false
  | .rom _ _ => false
  | _ => true

/-- The access reaches the upper half of its 64-bit location (R84). -/
def upperHalf (o : BitVec 18) (width : Nat) : Bool := width == 4 && o.toNat % 8 == 4

/-- The data an access reads of a 64-bit value (R84, R88). -/
def readLane (o : BitVec 18) (width : Nat) (v : BitVec 64) : BitVec 64 :=
  if width = 8 then v
  else if upperHalf o width then (v.extractLsb' 32 32).setWidth 64 else (v.extractLsb' 0 32).setWidth 64

/-- The bits of a 64-bit location that a write addresses (R84). -/
def writeMask (o : BitVec 18) (width : Nat) : BitVec 64 :=
  if width = 8 then 0xFFFFFFFFFFFFFFFF#64
  else if upperHalf o width then 0xFFFFFFFF00000000#64 else 0x00000000FFFFFFFF#64

/-- The written data at the bits it addresses (R84). -/
def writeLane (o : BitVec 18) (width : Nat) (d : BitVec 64) : BitVec 64 :=
  if width = 8 then d
  else if upperHalf o width then d.extractLsb' 0 32 ++ 0#32 else 0#32 ++ d.extractLsb' 0 32

/-- The value after a write: the addressed bits from the data, the others kept (R84). -/
def merge (old mask data : BitVec 64) : BitVec 64 := (old &&& ~~~mask) ||| (data &&& mask)

/-- The 8-byte slot of a register in the register block (R81). -/
def Reg.slot : Reg → Nat
  | .id => 0
  | .ctrl => 1
  | .status => 2
  | .cmd => 3
  | .nlen => 4
  | .bandLo => 5
  | .bandHi => 6
  | .sample => 7
  | .scalar => 8
  | .caRe => 9
  | .caIm => 10
  | .cbRe => 11
  | .cbIm => 12
  | .crRe => 13
  | .crIm => 14
  | .csRe => 15
  | .csIm => 16

/-- The offset of a location (R81, R83). -/
def Loc.addr : Loc → Nat
  | .reg r => 8 * r.slot
  | .rom l im => 0x100 + 16 * l + (if im then 8 else 0)
  | .win i => winBase + 8 * i
  | .xRe i => xBase + 16 * i
  | .xIm i => xBase + 16 * i + 8
  | .out i => outBase + 8 * i

/-- The value of a register (10_state.md R31 to R40). -/
def State.readReg (s : State) : Reg → BitVec 64
  | .id => s.idWord
  | .ctrl => s.ctrlWord
  | .status => s.statusWord
  | .cmd => s.cmdReg
  | .nlen => s.nlenReg
  | .bandLo => s.bandLo
  | .bandHi => s.bandHi
  | .sample => s.sample
  | .scalar => s.scalar
  | .caRe => s.ca.re
  | .caIm => s.ca.im
  | .cbRe => s.cb.re
  | .cbIm => s.cb.im
  | .crRe => s.cr.re
  | .crIm => s.cr.im
  | .csRe => s.cs.re
  | .csIm => s.cs.im

/-- The value at a location; none for an unwritten element of a buffer (R346). -/
def State.readLoc (s : State) (l : Loc) : Option (BitVec 64) :=
  match l with
  | .reg r => some (s.readReg r)
  | .rom l im => some (if im then (s.rom l).im else (s.rom l).re)
  | .win _ | .xRe _ | .xIm _ | .out _ => readElem s.mem l.addr

/-- `present(w)` (R303): the checks in their order, the first failing one reported; a word that passes all
is accepted. CMDWORD takes the word unless the engine is busy (R35, R307). -/
def State.present (s : State) (w : BitVec 32) : State :=
  if s.busy then s.raiseError .cmdWhileBusy
  else
    let s := { s with cmdword := w }
    match decode w with
    | .error e => s.raiseError e
    | .ok i =>
      match commandError s.params s.nlen i with
      | some e => s.raiseError e
      | none => s.accept w

/-- A write of CTRL (10_state.md R32): SRST resets and the IE written is ignored; otherwise IE is
written. -/
def State.writeCtrl (s : State) (mask data : BitVec 64) : State :=
  if (data &&& mask).getLsbD 1 then s.softReset
  else if mask.getLsbD 0 then { s with ie := data.getLsbD 0 } else s

/-- A write of CMD (R35): the lower half presents a command, the upper half is ignored. -/
def State.writeCmd (s : State) (mask data : BitVec 64) : State :=
  if mask.getLsbD 0 then s.present (data.extractLsb' 0 32) else s

/-- A write of a register, by the access type of each field (R89, R90). -/
def State.writeReg (s : State) (mask data : BitVec 64) : Reg → State
  | .id | .crRe | .crIm | .csRe | .csIm => s
  | .ctrl => s.writeCtrl mask data
  | .status => s.writeStatus ((data &&& mask).getLsbD 1) ((data &&& mask).getLsbD 2)
  | .cmd => s.writeCmd mask data
  | .nlen => { s with nlen := (merge s.nlenReg mask data).extractLsb' 0 16 }
  | .bandLo => { s with bandLo := merge s.bandLo mask data }
  | .bandHi => { s with bandHi := merge s.bandHi mask data }
  | .sample => { s with sample := merge s.sample mask data }
  | .scalar => { s with scalar := merge s.scalar mask data }
  | .caRe => { s with ca := ⟨merge s.ca.re mask data, s.ca.im⟩ }
  | .caIm => { s with ca := ⟨s.ca.re, merge s.ca.im mask data⟩ }
  | .cbRe => { s with cb := ⟨merge s.cb.re mask data, s.cb.im⟩ }
  | .cbIm => { s with cb := ⟨s.cb.re, merge s.cb.im mask data⟩ }

/-- A write of a buffer element, which marks it written (R346). The half of an unwritten element that a
4-byte write does not address holds unspecified bits: a free value (R20; DEDUCED, log entry 8). -/
def State.writeBuffer (s : State) (a : Nat) (mask data : BitVec 64) : State :=
  match readElem s.mem a with
  | some old => s.setMem (writeElem s.mem a (merge old mask data))
  | none =>
    if mask = 0xFFFFFFFFFFFFFFFF#64 then s.setMem (writeElem s.mem a data)
    else { s with mem := writeElem s.mem a (merge (Config.freeBits s.draws) mask data), draws := s.draws + 1 }

/-- A write at a location (R89, R90): TWROM and OUT are read-only. -/
def State.writeLoc (s : State) (l : Loc) (mask data : BitVec 64) : State :=
  match l with
  | .reg r => s.writeReg mask data r
  | .win _ | .xRe _ | .xIm _ => s.writeBuffer l.addr mask data
  | .rom _ _ | .out _ => s

/-- `HostRead(o, n)` (R88): BUS_ERROR with data 0 while `rst_n` is low (R340) or when the access reaches nothing; an
unspecified value and ACCESS_WHILE_BUSY at a guarded offset while the engine is busy (R306); otherwise the
value, and a fault if the element is unwritten (R346). -/
def hostRead (o : BitVec 18) (width : Nat) (s : State) : Result :=
  if !s.rstN then .next (s.respond (.readError 0#64))
  else
    match target s.params o width with
    | none => .next (s.respond (.readError 0#64))
    | some l =>
      if busyGuarded l && s.busy then
        .next { (s.raiseError .accessWhileBusy).respond (.readOk (readLane o width (Config.freeBits s.draws)))
                with draws := s.draws + 1 }
      else
        match s.readLoc l with
        | some v => .next (s.respond (.readOk (readLane o width v)))
        | none => .fault .unwrittenRead

/-- `HostWrite(o, n, d)` (R88): BUS_ERROR as for a read; dropped with ACCESS_WHILE_BUSY at a guarded offset
while the engine is busy (R306); otherwise applied. -/
def hostWrite (o : BitVec 18) (width : Nat) (d : BitVec 64) (s : State) : Result :=
  if !s.rstN then .next (s.respond .writeError)
  else
    match target s.params o width with
    | none => .next (s.respond .writeError)
    | some l =>
      if busyGuarded l && s.busy then .next ((s.raiseError .accessWhileBusy).respond .writeOk)
      else .next ((s.writeLoc l (writeMask o width) (writeLane o width d)).respond .writeOk)

end Sys2Proof.Machine
end

