-- ==== Sys2Proof/Machine/Mask.lean ====
section
/-! DEFINITION. The completion steps of the masking unit and the filter (43_mask_filter.md R243, R245). -/

namespace Sys2Proof.Machine

/-- BPMASK (R243). -/
def execBpmask (s : State) : Result :=
  s.seqCommand fun n => s.withX n fun x => .next (s.putX (maskBins s.bandLo s.bandHi x)).finish

/-- The end of a filter pass (R245): the complex sequence in X, its real parts in OUT. -/
def State.finishFilter (s : State) (v : List C64) : Result := .next ((s.putX v).putOut (realParts v)).finish

/-- FILTER (R245). -/
def execFilter (cjo : Bool) (s : State) : Result :=
  s.seqCommand fun n => s.withX n fun x => s.finishFilter (filterPass s.rom s.bandLo s.bandHi cjo x)

end Sys2Proof.Machine
end

