-- ==== Sys2Proof/Machine/Adapter.lean ====
section
/-! DEFINITION. The completion steps of the adapters, the whole pass on the window and the window update
(44_real_adapter.md R261, R263, R264, R266). -/

namespace Sys2Proof.Machine

/-- R2C (R261). -/
def execR2c (s : State) : Result :=
  s.seqCommand fun n => s.withWin n fun w => .next (s.putX (realToComplex w)).finish

/-- C2R (R263). -/
def execC2r (s : State) : Result :=
  s.seqCommand fun n => s.withXRe n fun r => .next (s.putOut r).finish

/-- DENOISE (R264): the window wrapped, then the whole filter pass. -/
def execDenoise (cjo : Bool) (s : State) : Result :=
  s.seqCommand fun n => s.withWin n fun w =>
    s.finishFilter (filterPass s.rom s.bandLo s.bandHi cjo (realToComplex w))

/-- WPUSH (R266). -/
def execWpush (s : State) : Result :=
  s.seqCommand fun n => s.withWin n fun w => .next (s.putWin (pushSample w s.sample)).finish

end Sys2Proof.Machine
end

