-- ==== Sys2Proof/Machine/Transform.lean ====
section
/-! DEFINITION. The completion steps of the transforms (41_fft.md R191; 42_ifft.md R221). -/

namespace Sys2Proof.Machine

/-- FFT (R191). -/
def execFft (s : State) : Result :=
  s.seqCommand fun n => s.withX n fun x => .next (s.putX (fft s.rom x)).finish

/-- IFFT (R221). -/
def execIfft (cjo : Bool) (s : State) : Result :=
  s.seqCommand fun n => s.withX n fun x => .next (s.putX (ifft s.rom cjo x)).finish

end Sys2Proof.Machine
end

