-- ==== Sys2Proof/Machine/Elementary.lean ====
section
/-! DEFINITION. MAG_FN and PHASE_FN (00_scope.md R10; 40_complex_alu.md R158, R159). The defaults are
hypot and atan2, correctly rounded, with the special values of IEEE 754-2008 section 9.2; a part may
have functions of its own. -/

namespace Sys2Proof

/-- The integer square root by binary digits: the largest `r + x` with `x < 2^k` whose square is at
most `n`, for an `r` whose square is. -/
def isqrtDigits (n : Nat) : Nat → Nat → Nat
  | 0, r => r
  | k + 1, r => isqrtDigits n k (if (r + 2 ^ k) * (r + 2 ^ k) ≤ n then r + 2 ^ k else r)

/-- The integer part of the square root. -/
def isqrt (n : Nat) : Nat := isqrtDigits n (Nat.log2 n / 2 + 1) 0

/-- The square root of `n` units squared, rounded to binary64. The root is taken to a quarter unit and
a remainder is kept as one more eighth, so that no rounding boundary lies between the two. -/
def roundSqrt (n : Nat) : F64 :=
  let r := isqrt (16 * n)
  roundRat false (2 * r + (if r * r = 16 * n then 0 else 1)) 8

/-- The default MAG_FN (R158): `√(a² + b²)` of the exact squares, rounded once; an infinite part gives
`+∞` whatever the other part, otherwise a NaN part gives a NaN. PRESUMED for what R158 leaves to IEEE 754
(log entry 14). -/
def hypot64 (a b : F64) : F64 :=
  if isInf a || isInf b then signedInf false
  else if isNaN a || isNaN b then nanResult .hypot a b
  else roundSqrt (magUnits a * magUnits a + magUnits b * magUnits b)

/-- Bounds on a real number, as integers over a common denominator `2^p`. -/
structure FixedBounds where
  lo : Int
  hi : Int
  deriving DecidableEq, Repr

/-- The sum of `k` more terms of Euler's series of the arctangent, from term `n` of value `t` on: each
term is `(2n+2)/(2n+3) * y² / (x² + y²)` times the last, rounded down. The answer is the sum and the
first term left out. -/
def eulerSum (num den : Nat) : Nat → Nat → Nat → Nat → Nat × Nat
  | 0, _, t, acc => (acc, t)
  | k + 1, n, t, acc => eulerSum num den k (n + 1) (t * ((2 * n + 2) * num) / ((2 * n + 3) * den)) (acc + t)

/-- Bounds on `atan(y / x) * 2^p` for `0 < x` and `y ≤ x`. Each of the `p + 4` terms is less than 2 below
its exact value, and the terms left out are together below twice the first of them. -/
def atanBounds (y x p : Nat) : FixedBounds :=
  let den := x * x + y * y
  let r := eulerSum (y * y) den (p + 4) 0 (2 ^ p * (x * y) / den) 0
  ⟨(r.1 : Int), (r.1 + 2 * (p + 4) + 2 * r.2 + 4 : Nat)⟩

/-- Bounds on `π/4 * 2^p`. -/
def quarterPiBounds (p : Nat) : FixedBounds := atanBounds 1 1 p

/-- Bounds on `m * (π/4) * 2^p - v` for bounds on `v`. -/
def quarterTurnsMinus (m : Int) (q v : FixedBounds) : FixedBounds :=
  ⟨m * q.lo - v.hi, m * q.hi - v.lo⟩

/-- Bounds on the angle of the point `(±x, y)` in the upper half plane, for positive `x` and `y`;
`xneg` says that the real coordinate is negative. -/
def angleBounds (y x : Nat) (xneg : Bool) (p : Nat) : FixedBounds :=
  let q := quarterPiBounds p
  let first := if y ≤ x then atanBounds y x p else quarterTurnsMinus 2 q (atanBounds x y p)
  if xneg then quarterTurnsMinus 4 q first else first

/-- `n / 2^p` rounded to binary64. -/
def roundFixed (s : Bool) (n : Int) (p : Nat) : F64 := roundRat s (n.toNat * 2 ^ 1074) (2 ^ p)

/-- The angle rounded to binary64: with the precision doubled, `fuel` times at most, until both bounds
round to one value (log entry 15). -/
def roundAngle (s : Bool) (y x : Nat) (xneg : Bool) : Nat → Nat → F64
  | 0, p => roundFixed s (angleBounds y x xneg p).lo p
  | fuel + 1, p =>
    let b := angleBounds y x xneg p
    if roundFixed s b.lo p = roundFixed s b.hi p then roundFixed s b.lo p
    else roundAngle s y x xneg fuel (2 * p)

/-- The angle of a point with finite non-zero coordinates, rounded. For `y/x < 2^-60` in the right half
plane the arctangent lies below `y/x` and above it less one part in `2^120`, and no rounding boundary
other than `y/x` itself lies that near. -/
def angleFinite (s : Bool) (y x : Nat) (xneg : Bool) : F64 :=
  if !xneg && y * 2 ^ 60 < x then roundRat s (y * (2 ^ 122 - 1) * 2 ^ 1074) (x * 2 ^ 122)
  else roundAngle s y x xneg 5 128

/-- `π/4`, `π/2`, `3π/4` and `π` rounded to binary64 (the lower 63 bits). -/
def roundedQuarterTurns : Nat → BitVec 63
  | 1 => 0x3FE921FB54442D18#63
  | 2 => 0x3FF921FB54442D18#63
  | 3 => 0x4002D97C7F3321D2#63
  | _ => 0x400921FB54442D18#63

/-- The default PHASE_FN (R159): `atan2(y, x)`, rounded once. A zero `y` gives `±0` or `±π` by the sign
bit of `x`; a zero `x` gives `±π/2`; infinities give the quarter turns of IEEE 754-2008 section 9.2.
PRESUMED for what R159 leaves to IEEE 754 (log entry 15). -/
def atan264 (y x : F64) : F64 :=
  let s := f64Sign y
  if isNaN y || isNaN x then nanResult .atan2 y x
  else if isZero y then (if f64Sign x then withSign s (roundedQuarterTurns 4) else signedZero s)
  else if isInf y then
    (if isInf x then withSign s (roundedQuarterTurns (if f64Sign x then 3 else 1))
     else withSign s (roundedQuarterTurns 2))
  else if isInf x then (if f64Sign x then withSign s (roundedQuarterTurns 4) else signedZero s)
  else if isZero x then withSign s (roundedQuarterTurns 2)
  else angleFinite s (magUnits y) (magUnits x) (f64Sign x)

/-- MAG_FN of a part (R10). -/
def magFn (p : Params) (a b : F64) : F64 :=
  match p.magFn with
  | .default => hypot64 a b
  | .part => Config.partMag a b

/-- PHASE_FN of a part (R10), its arguments in the order `(y, x)` (R159). -/
def phaseFn (p : Params) (y x : F64) : F64 :=
  match p.phaseFn with
  | .default => atan264 y x
  | .part => Config.partPhase y x

end Sys2Proof
end

