-- ==== Sys2Proof/Machine/Alu.lean ====
section
/-! DEFINITION. The completion steps of NOP and of the operand commands without twiddles
(40_complex_alu.md R151 to R159): CR from CA, CB and SCALAR, then BUSY cleared and DONE set. -/

namespace Sys2Proof.Machine

/-- The template of R151: CR written, the command finished. -/
def State.finishCR (s : State) (z : C64) : Result := .next (s.setCR z).finish

/-- NOP (R152). -/
def execNop (s : State) : Result := .next s.finish

/-- CADD (R153). -/
def execCadd (s : State) : Result := s.finishCR (cadd s.ca s.cb)

/-- CSUB (R154). -/
def execCsub (s : State) : Result := s.finishCR (csub s.ca s.cb)

/-- CMUL (R155). -/
def execCmul (s : State) : Result := s.finishCR (cmul s.ca s.cb)

/-- CDIVR (R156). -/
def execCdivr (s : State) : Result := s.finishCR (cdivr s.ca s.scalar)

/-- CCONJ (R157). -/
def execCconj (s : State) : Result := s.finishCR (cconj s.ca)

/-- CMAG (R158). -/
def execCmag (s : State) : Result := s.finishCR ⟨magFn s.params s.ca.re s.ca.im, F64.zero⟩

/-- CPHASE (R159): PHASE_FN of the imaginary part and the real part, in that order. -/
def execCphase (s : State) : Result := s.finishCR ⟨phaseFn s.params s.ca.im s.ca.re, F64.zero⟩

end Sys2Proof.Machine
end

