-- ==== Sys2Proof/Machine/TwiddleOps.lean ====
section
/-! DEFINITION. The completion steps of the twiddle and butterfly commands (41_fft.md R187 to R189). -/

namespace Sys2Proof.Machine

/-- TWGEN L, J (R187). -/
def execTwgen (l : BitVec 4) (j : BitVec 16) (s : State) : Result :=
  s.twCommand l j fun w => s.finishCR w

/-- CTWMUL L, J (R188). -/
def execCtwmul (l : BitVec 4) (j : BitVec 16) (s : State) : Result :=
  s.twCommand l j fun w => s.finishCR (cmul w s.ca)

/-- BFLY L, J (R189): CR the top and CS the bottom output, from one product. -/
def execBfly (l : BitVec 4) (j : BitVec 16) (s : State) : Result :=
  s.twCommand l j fun w =>
    let b := butterflyWith w s.ca s.cb
    .next ((s.setCR b.1).setCS b.2).finish

end Sys2Proof.Machine
end

