-- ==== Sys2Proof/Machine/Dispatch.lean ====
section
/-! DEFINITION. What the engine does to complete a command: one arm per command, each its meaning. -/

namespace Sys2Proof.Machine

-- The completion step of a command (60_exceptions.md R309).
def exec (i : Instr) (s : State) : Host.Outcome State Fault Refusal :=
  match i with
  | .nop => Sys2Proof.Machine.execNop s
  | .fft => Sys2Proof.Machine.execFft s
  | .ifft cjo => Sys2Proof.Machine.execIfft cjo s
  | .bpmask => Sys2Proof.Machine.execBpmask s
  | .filter cjo => Sys2Proof.Machine.execFilter cjo s
  | .r2c => Sys2Proof.Machine.execR2c s
  | .c2r => Sys2Proof.Machine.execC2r s
  | .denoise cjo => Sys2Proof.Machine.execDenoise cjo s
  | .wpush => Sys2Proof.Machine.execWpush s
  | .cadd => Sys2Proof.Machine.execCadd s
  | .csub => Sys2Proof.Machine.execCsub s
  | .cmul => Sys2Proof.Machine.execCmul s
  | .cdivr => Sys2Proof.Machine.execCdivr s
  | .cconj => Sys2Proof.Machine.execCconj s
  | .cmag => Sys2Proof.Machine.execCmag s
  | .cphase => Sys2Proof.Machine.execCphase s
  | .twgen l j => Sys2Proof.Machine.execTwgen l j s
  | .ctwmul l j => Sys2Proof.Machine.execCtwmul l j s
  | .bfly l j => Sys2Proof.Machine.execBfly l j s

end Sys2Proof.Machine
end

