-- ==== Sys2Proof/Machine/Engine.lean ====
section
/-! DEFINITION. The engine's turn (00_scope.md R24), and what each pending event does. -/

namespace Sys2Proof.Machine

/-- The engine's turn (R24, R309): the latched command is completed; an idle engine, or one held in reset
(R340), does nothing. A latched word that is no command is turned away with its decoding error (R115),
which acceptance has ruled out (R303; DESIGN CHOICE, log entry 4). -/
def engineTurn (s : State) : Result :=
  if !s.rstN then .next s
  else
    match s.engine with
    | none => .next s
    | some l =>
      match decode l.cmd with
      | .ok i => exec i s
      | .error e => .next (s.turnAway e)

/-- What an event does: one atomic step of the host, of the engine, or of the input `rst_n` (R24, R93). -/
def handle (e : HostEvent) (s : State) : Result :=
  match e with
  | .read o w => hostRead o w s
  | .write o w d => hostWrite o w d s
  | .engine => engineTurn s
  | .resetLow => .next s.powerDown
  | .resetHigh => .next s.powerUp

end Sys2Proof.Machine
end

