-- ==== Sys2Proof/Machine/Step.lean ====
section
/-! DEFINITION. One step of the system: the next pending event; with none pending, the engine's turn, so
that every accepted command completes (70_reset_and_hazards.md R355), and an idle core keeps its state
(60_exceptions.md R323). -/

namespace Sys2Proof.Machine

/-- One atomic step (00_scope.md R24). -/
def step (s : State) : Host.Outcome State Fault Refusal :=
  match s.inputs with
  | [] => engineTurn s
  | e :: rest => handle e { s with inputs := rest }

/-- The state in which the very next step runs the command whose word is `w` (below bit `nbits`): the word
latched in the engine with the present length, `rst_n` high and the next turn the engine's. It stands for
the host's write of CMD and its acceptance. DESIGN CHOICE (log entry 3). -/
def State.withFetchWord (s : State) (nbits w : Nat) : State :=
  { s with
    engine := some ⟨BitVec.ofNat 32 (w % 2 ^ nbits), s.nlen⟩,
    rstN := true,
    inputs := .engine :: s.inputs }

end Sys2Proof.Machine
end

