-- ==== Sys2Proof/Safety.lean ====
section
/-! DEFINITION. What the statements about the machine are said in: the invariants of its state, what a
buffer holds, the legal lengths and twiddle fields in the spec's own terms, and what a safe step is. -/

namespace Sys2Proof.Machine

/-- ECODE is 0x00 while ERR is 0, and one of the codes of R301 while ERR is 1 (R33, R301, R305). -/
def State.errorCodeOk (s : State) : Prop :=
  (s.err = false → s.ecode = 0x00#8) ∧ (s.err = true → 1 ≤ s.ecode.toNat ∧ s.ecode.toNat ≤ 6)

/-- The written marks are per 64-bit element (R346): with one byte of it written, all are. -/
def Memory.wholeElements (m : Memory) : Prop :=
  ∀ a k, (readByte m a).isSome → k < 8 → (readByte m (8 * (a / 8) + k)).isSome

/-- An address lies in an element of WIN, X or OUT (R83). -/
def inBuffer (p : Params) (a : Nat) : Prop :=
  (winBase ≤ a ∧ a < winBase + 8 * p.nMax) ∨ (xBase ≤ a ∧ a < xBase + 16 * p.nMax)
    ∨ (outBase ≤ a ∧ a < outBase + 8 * p.nMax)

/-- Only bytes of the buffers are held (R83). -/
def State.memInBuffers (s : State) : Prop := ∀ a, (readByte s.mem a).isSome → inBuffer s.params a

/-- The latched command is one that passed every check (R303, R308), CMD, LASTOP and NLEN still show it
(R306, R307), and DONE is 0 (R308). -/
def State.latchOk (s : State) : Prop :=
  ∀ l, s.engine = some l →
    (∃ i, decode l.cmd = .ok i ∧ commandError s.params l.n i = none) ∧
    s.cmdword = l.cmd ∧ s.lastop = l.cmd.extractLsb' 0 8 ∧ s.nlen = l.n ∧ s.done = false

/-- While `rst_n` is low the core holds the power-on reset state (R340). -/
def State.heldInReset (s : State) : Prop :=
  s.rstN = false → s = { s.resetRegs with mem := [] }

/-- A legal sequence length (R8): 0, or a power of two up to N_MAX. -/
def lengthOk (p : Params) (n : BitVec 16) : Prop :=
  n = 0#16 ∨ ∃ k, k ≤ p.log2nMax.val ∧ n.toNat = 2 ^ k

/-- Legal twiddle fields (R112): `1 ≤ L ≤ LOG2N_MAX` and `J < 2^(L-1)`. -/
def twiddleOk (p : Params) (l : BitVec 4) (j : BitVec 16) : Prop :=
  1 ≤ l.toNat ∧ l.toNat ≤ p.log2nMax.val ∧ j.toNat < 2 ^ (l.toNat - 1)

/-- A sequence command (00_scope.md R23). -/
def Instr.isSequence (i : Instr) : Prop := i.format = .seq ∨ i.format = .seqc

/-- X holds a sequence, from element 0 on. -/
def State.xHolds (s : State) (x : List C64) : Prop := ∀ k, k < x.length → readC64 s.mem (xBase + 16 * k) = x[k]?

/-- WIN holds a sequence, from element 0 on. -/
def State.winHolds (s : State) (w : List F64) : Prop := ∀ k, k < w.length → readElem s.mem (winBase + 8 * k) = w[k]?

/-- OUT holds a sequence, from element 0 on. -/
def State.outHolds (s : State) (r : List F64) : Prop := ∀ k, k < r.length → readElem s.mem (outBase + 8 * k) = r[k]?

/-- The bytes of `X[0..n-1]`, of `WIN[0..n-1]` and of `OUT[0..n-1]` (R83). -/
def inX (n a : Nat) : Prop := xBase ≤ a ∧ a < xBase + 16 * n
def inWin (n a : Nat) : Prop := winBase ≤ a ∧ a < winBase + 8 * n
def inOut (n a : Nat) : Prop := outBase ≤ a ∧ a < outBase + 8 * n

/-- `t` is `s` with a command completed that may have written buffer bytes: BUSY 0, DONE 1, and every other
register, flag and constant as before (R309). -/
def State.completedFrom (t s : State) : Prop := t = { s with mem := t.mem, engine := none, done := true }

/-- An element among the operands of a command run with length `n` is unwritten (R346): a part of `X[0..n-1]`,
for C2R a real part (log entry 6), or an element of `WIN[0..n-1]`, as the command's rule lists. -/
def operandUnwritten (m : Memory) (n : Nat) (i : Instr) : Prop :=
  match i with
  | .fft | .ifft _ | .bpmask | .filter _ =>
    ∃ k, k < n ∧ (readElem m (xBase + 16 * k) = none ∨ readElem m (xBase + 16 * k + 8) = none)
  | .c2r => ∃ k, k < n ∧ readElem m (xBase + 16 * k) = none
  | .r2c | .denoise _ | .wpush => ∃ k, k < n ∧ readElem m (winBase + 8 * k) = none
  | .nop | .cadd | .csub | .cmul | .cdivr | .cconj | .cmag | .cphase => False
  | .twgen _ _ | .ctwmul _ _ | .bfly _ _ => False

/-- An 8-byte host read at `o` answers `v` and changes nothing (R88). -/
def State.reads (s : State) (o : BitVec 18) (v : BitVec 64) : Prop :=
  hostRead o 8 s = .next { s with resp := some (.readOk v) }

/-- A 64-bit value with its lower half replaced by bits 31:0 of the data (R84). -/
def withLowHalf (old d : BitVec 64) : BitVec 64 := old.extractLsb' 32 32 ++ d.extractLsb' 0 32

/-- A 64-bit value with its upper half replaced by bits 31:0 of the data (R84). -/
def withHighHalf (old d : BitVec 64) : BitVec 64 := d.extractLsb' 0 32 ++ old.extractLsb' 0 32

/-- The least magnitude, in units of 2^-1074, that rounds to infinity under roundTiesToEven (R140, R144): half a
last place above the greatest finite one, `(2^53 - 1/2) * 2^2045`. -/
def overflowUnits : Nat := (2 ^ 54 - 1) * 2 ^ 2044

/-- Two patterns are the same value up to the sign and payload of a NaN (R143). -/
def sameUpToNaN (a b : F64) : Prop := a = b ∨ (isNaN a = true ∧ isNaN b = true)

/-- A safe step: it answers a next state. -/
def State.safeStep (s : State) : Prop := ∃ t, step s = .next t

end Sys2Proof.Machine
end

