-- ==== Sys2Proof/Certificates/Slice0/Obligations.lean ====
section
/-! DEFINITION. The statements about the model, for the provers. Each docstring names the rules it
formalises, and the log entry of every choice of the model it rests on. -/

open Sys2Proof Sys2Proof.Machine

/-! ### Encoding -/

/-- R120: the example words decode to their commands, and those words that do not decode do so for the
reason given (`bfly 0 0` decodes and is refused with BAD_TWIDDLE, by any part). -/
def Obligations.ExampleWordsDecode : Prop :=
  decode 0x00000000#32 = .ok .nop ∧ decode 0x00000001#32 = .ok .fft ∧
  decode 0x00000002#32 = .ok (.ifft false) ∧ decode 0x00000102#32 = .ok (.ifft true) ∧
  decode 0x00000003#32 = .ok .bpmask ∧ decode 0x00000004#32 = .ok (.filter false) ∧
  decode 0x00000104#32 = .ok (.filter true) ∧ decode 0x00000005#32 = .ok .r2c ∧
  decode 0x00000006#32 = .ok .c2r ∧ decode 0x00000007#32 = .ok (.denoise false) ∧
  decode 0x00000107#32 = .ok (.denoise true) ∧ decode 0x00000008#32 = .ok .wpush ∧
  decode 0x00000010#32 = .ok .cadd ∧ decode 0x00000011#32 = .ok .csub ∧
  decode 0x00000012#32 = .ok .cmul ∧ decode 0x00000013#32 = .ok .cdivr ∧
  decode 0x00000014#32 = .ok .cconj ∧ decode 0x00000015#32 = .ok .cmag ∧
  decode 0x00000016#32 = .ok .cphase ∧ decode 0x00013018#32 = .ok (.twgen 3#4 1#16) ∧
  decode 0x00013019#32 = .ok (.ctwmul 3#4 1#16) ∧ decode 0x0000101A#32 = .ok (.bfly 1#4 0#16) ∧
  decode 0x0001201A#32 = .ok (.bfly 2#4 1#16) ∧ decode 0x00000101#32 = .error .reservedField ∧
  decode 0x0000001A#32 = .ok (.bfly 0#4 0#16) ∧
  (∀ p n, commandError p n (.bfly 0#4 0#16) = some .badTwiddle) ∧
  decode 0x0000001B#32 = .error .illegalOpcode

/-- R111, R115: decoding an encoded command gives it back, for every command and every field value. -/
def Obligations.DecodeEncodeRoundTrip : Prop := ∀ i : Instr, decode (encode i) = .ok i

/-- R111, R113, R115: a word that decodes is the encoding of what it decodes to, so each command has one
word. -/
def Obligations.DecodedWordIsItsEncoding : Prop :=
  ∀ (w : BitVec 32) (i : Instr), decode w = .ok i → encode i = w

/-- R113, R115, R116: the reserved opcodes are 0x09 to 0x0F, 0x17 and 0x1B to 0xFF, and exactly the words with one
are ILLEGAL_OPCODE; with a known opcode, a word is RESERVED_FIELD exactly when a field its format does not use is
not 0; and an idle core to which such a word is presented records the word and the error and changes nothing
else. -/
def Obligations.WordsThatAreNoCommand : Prop :=
  (∀ w : BitVec 32, decode w = .error .illegalOpcode ↔
    (0x09 ≤ (w.extractLsb' 0 8).toNat ∧ (w.extractLsb' 0 8).toNat ≤ 0x0F) ∨ (w.extractLsb' 0 8).toNat = 0x17 ∨
      0x1B ≤ (w.extractLsb' 0 8).toNat) ∧
  (∀ w : BitVec 32,
    ((w.extractLsb' 0 8) ∈ [0x00#8, 0x10#8, 0x11#8, 0x12#8, 0x13#8, 0x14#8, 0x15#8, 0x16#8,
        0x01#8, 0x03#8, 0x05#8, 0x06#8, 0x08#8] →
      (decode w = .error .reservedField ↔ w.extractLsb' 8 24 ≠ 0#24)) ∧
    ((w.extractLsb' 0 8) ∈ [0x02#8, 0x04#8, 0x07#8] →
      (decode w = .error .reservedField ↔ w.extractLsb' 9 23 ≠ 0#23)) ∧
    ((w.extractLsb' 0 8) ∈ [0x18#8, 0x19#8, 0x1A#8] →
      (decode w = .error .reservedField ↔ w.extractLsb' 8 4 ≠ 0#4))) ∧
  (∀ (s : State) (w : BitVec 32), s.busy = false →
    (decode w = .error .illegalOpcode →
      s.present w = { s with cmdword := w, err := true, ecode := if s.err then s.ecode else 0x01#8 }) ∧
    (decode w = .error .reservedField →
      s.present w = { s with cmdword := w, err := true, ecode := if s.err then s.ecode else 0x02#8 }))

/-! ### Presenting, accepting, stepping -/

/-- R303, R308: a word that decodes, with a legal length for a sequence command and legal fields for a
twiddle command, is accepted by an idle core: BUSY set, DONE cleared, LASTOP and the latch written, CMDWORD
the word, and nothing else changed, ERR and ECODE included. -/
def Obligations.AcceptanceEffect : Prop :=
  ∀ (s : State) (w : BitVec 32) (i : Instr), s.busy = false → decode w = .ok i →
    (Instr.isSequence i → lengthOk s.params s.nlen) → (i.format = .tw → twiddleOk s.params i.stage i.index) →
    s.present w = { s with
      cmdword := w, done := false, lastop := w.extractLsb' 0 8, engine := some ⟨w, s.nlen⟩ } ∧
    (s.present w).busy = true

/-- R302, R304: presented to an idle core, a sequence command is refused with BAD_LENGTH exactly when the length
is not legal, a twiddle command with BAD_TWIDDLE exactly when its fields are out of range, and no other command
is refused; the refusal records the word and the error and changes nothing else. -/
def Obligations.LengthAndTwiddleChecks : Prop :=
  ∀ (s : State) (i : Instr), s.busy = false →
    (Instr.isSequence i →
      ((s.present (encode i)).busy = true ↔ lengthOk s.params s.nlen) ∧
      (¬ lengthOk s.params s.nlen → s.present (encode i) =
        { s with cmdword := encode i, err := true, ecode := if s.err then s.ecode else 0x03#8 })) ∧
    (i.format = .tw →
      ((s.present (encode i)).busy = true ↔ twiddleOk s.params i.stage i.index) ∧
      (¬ twiddleOk s.params i.stage i.index → s.present (encode i) =
        { s with cmdword := encode i, err := true, ecode := if s.err then s.ecode else 0x04#8 })) ∧
    (i.format = .op → (s.present (encode i)).busy = true)

/-- R35, R307: an 8-byte or a 4-byte write at 0x018 presents bits 31:0 of the data, and a 4-byte write at 0x01C
presents nothing; while BUSY = 1 the presented word is discarded: CMD_WHILE_BUSY is recorded, and the running
command, CMDWORD and everything else stay. -/
def Obligations.CmdWritePresents : Prop :=
  ∀ (s : State) (d : BitVec 64), s.rstN = true →
    hostWrite 0x018#18 8 d s = .next ((s.present (d.extractLsb' 0 32)).respond .writeOk) ∧
    hostWrite 0x018#18 4 d s = .next ((s.present (d.extractLsb' 0 32)).respond .writeOk) ∧
    hostWrite 0x01C#18 4 d s = .next { s with resp := some .writeOk } ∧
    (s.busy = true → ∀ w, s.present w = { s with err := true, ecode := if s.err then s.ecode else 0x05#8 })

/-- R24, R93, R309: a step is its next event, which it consumes: a host read or write is that access on the rest of the
state, a change of `rst_n` is that reset event, and the engine's turn is `exec i` for a latched word that decodes to
`i`; with the engine idle, or `rst_n` low, its turn changes nothing. That what comes next stands in a list, and that a
step with no event pending is the engine's turn, is the model's choice (log entry 10); so is it that a latched word
that is no command is turned away (log entry 4). -/
def Obligations.StepRunsLatchedCommand : Prop :=
  ∀ s : State,
    (∀ (l : Latched) (i : Instr), s.rstN = true → s.engine = some l → decode l.cmd = .ok i →
      (s.inputs = [] → step s = exec i s) ∧
      (∀ rest, s.inputs = .engine :: rest → step s = exec i { s with inputs := rest })) ∧
    (∀ rest o width, s.inputs = .read o width :: rest → step s = hostRead o width { s with inputs := rest }) ∧
    (∀ rest o width d, s.inputs = .write o width d :: rest → step s = hostWrite o width d { s with inputs := rest }) ∧
    (∀ rest, s.inputs = .resetLow :: rest → step s = handle .resetLow { s with inputs := rest }) ∧
    (∀ rest, s.inputs = .resetHigh :: rest → step s = handle .resetHigh { s with inputs := rest }) ∧
    (s.rstN = false ∨ s.engine = none →
      (s.inputs = [] → step s = .next s) ∧
      (∀ rest, s.inputs = .engine :: rest → step s = .next { s with inputs := rest })) ∧
    (∀ (l : Latched) (e : ErrorCause), s.rstN = true → s.engine = some l → decode l.cmd = .error e →
      (s.inputs = [] →
        step s = .next { s with err := true, ecode := (if s.err then s.ecode else e.code), engine := none }) ∧
      (∀ rest, s.inputs = .engine :: rest → step s = .next { s with
        err := true, ecode := (if s.err then s.ecode else e.code), engine := none, inputs := rest }))

/-! ### The operand commands -/

/-- R145 to R149, R152 to R157: NOP completes from every state with nothing changed but BUSY and DONE, and CADD,
CSUB, CMUL, CDIVR and CCONJ complete from every state with the result their rules give in CR, and change nothing
but CR, BUSY and DONE. -/
def Obligations.ArithmeticCommandsComplete : Prop :=
  ∀ s : State,
    exec .nop s = .next { s with engine := none, done := true } ∧
    exec .cadd s = .next { s with
      cr := ⟨add64 s.ca.re s.cb.re, add64 s.ca.im s.cb.im⟩, engine := none, done := true } ∧
    exec .csub s = .next { s with
      cr := ⟨sub64 s.ca.re s.cb.re, sub64 s.ca.im s.cb.im⟩, engine := none, done := true } ∧
    exec .cmul s = .next { s with
      cr := ⟨sub64 (mul64 s.ca.re s.cb.re) (mul64 s.ca.im s.cb.im),
             add64 (mul64 s.ca.re s.cb.im) (mul64 s.ca.im s.cb.re)⟩, engine := none, done := true } ∧
    exec .cdivr s = .next { s with
      cr := ⟨div64 s.ca.re s.scalar, div64 s.ca.im s.scalar⟩, engine := none, done := true } ∧
    exec .cconj s = .next { s with
      cr := ⟨s.ca.re, s.ca.im ^^^ 0x8000000000000000#64⟩, engine := none, done := true }

/-- R10, R158, R159: CMAG and CPHASE complete from every state with MAG_FN of CA and PHASE_FN of CA (the imaginary
part first) in CR.re and `+0.0` in CR.im, each of the two functions the default or, whatever the other is, an
unknown one of the part (that it is a function of CA alone is log entry 16). -/
def Obligations.MagnitudeAndPhaseComplete : Prop :=
  ∀ s : State,
    exec .cmag s = .next { s with
      cr := ⟨(match s.params.magFn with
              | .default => hypot64 s.ca.re s.ca.im
              | .part => Config.partMag s.ca.re s.ca.im), 0#64⟩, engine := none, done := true } ∧
    exec .cphase s = .next { s with
      cr := ⟨(match s.params.phaseFn with
              | .default => atan264 s.ca.im s.ca.re
              | .part => Config.partPhase s.ca.im s.ca.re), 0#64⟩, engine := none, done := true }

/-- R158, R159: the special values of the default functions. MAG_FN: `+∞` for an infinite part whatever the other
part, a NaN for a NaN and a finite part, `+0.0` for two zeros. PHASE_FN: a NaN for a NaN part; for a zero `y`, `±π̂`
when the sign bit of `x` is set and `±0` when it is clear, with the sign of `y`. -/
def Obligations.MagnitudeAndPhaseSpecialValues : Prop :=
  ∀ a b : F64,
    (isInf a = true ∨ isInf b = true → hypot64 a b = 0x7FF0000000000000#64) ∧
    ((isNaN a = true ∧ isFinite b = true) ∨ (isFinite a = true ∧ isNaN b = true) →
      isNaN (hypot64 a b) = true) ∧
    (isZero a = true → isZero b = true → hypot64 a b = 0#64) ∧
    (isNaN a = true ∨ isNaN b = true → isNaN (atan264 a b) = true) ∧
    (isZero a = true → isNaN b = false → f64Sign b = true →
      atan264 a b = if f64Sign a then 0xC00921FB54442D18#64 else 0x400921FB54442D18#64) ∧
    (isZero a = true → isNaN b = false → f64Sign b = false →
      atan264 a b = if f64Sign a then 0x8000000000000000#64 else 0x0000000000000000#64)

/-- R158, R144: of finite operands, the default MAG_FN is finite exactly when the exact root lies below the overflow
threshold of roundTiesToEven, and is `+∞` otherwise; a finite result is at least as near the exact root as every
finite magnitude: with `h` the result, no `c` has its distance smaller (compared through the squares of the
midpoints, in units of 2^-1074). -/
def Obligations.HypotIsNearest : Prop :=
  ∀ a b : F64, isFinite a = true → isFinite b = true →
    (isFinite (hypot64 a b) = true ↔ magUnits a ^ 2 + magUnits b ^ 2 < overflowUnits ^ 2) ∧
    (isFinite (hypot64 a b) = false → hypot64 a b = 0x7FF0000000000000#64) ∧
    ∀ c : F64, isFinite c = true → isFinite (hypot64 a b) = true →
      (magUnits (hypot64 a b) < magUnits c →
        4 * (magUnits a ^ 2 + magUnits b ^ 2) ≤ (magUnits (hypot64 a b) + magUnits c) ^ 2) ∧
      (magUnits c < magUnits (hypot64 a b) →
        (magUnits (hypot64 a b) + magUnits c) ^ 2 ≤ 4 * (magUnits a ^ 2 + magUnits b ^ 2))

/-- R183, R187 to R189: with legal fields, TWGEN, CTWMUL and BFLY complete with TWACC(L, J), its product with
CA, and the two outputs of the butterfly of CA and CB, where TWACC is the chain of R183 over TWROM[L]; they
change nothing but CR, CS (BFLY alone), BUSY and DONE. -/
def Obligations.TwiddleCommandsComplete : Prop :=
  ∀ (s : State) (l : BitVec 4) (j : BitVec 16) (acc : Nat → C64), twiddleOk s.params l j →
    acc 0 = ⟨0x3FF0000000000000#64, 0#64⟩ →
    (∀ k, acc (k + 1) = cmul (acc k) (s.twrom[l.toNat]'(l.isLt))) →
    exec (.twgen l j) s = .next { s with cr := acc j.toNat, engine := none, done := true } ∧
    exec (.ctwmul l j) s = .next { s with cr := cmul (acc j.toNat) s.ca, engine := none, done := true } ∧
    exec (.bfly l j) s = .next { s with
      cr := cadd s.ca (cmul (acc j.toNat) s.cb), cs := csub s.ca (cmul (acc j.toNat) s.cb),
      engine := none, done := true }

/-! ### The sequence commands -/

/-- R190, the base case and the butterfly line of its recursion: a sequence of length 0 or 1 is its own transform; for
a length `2^(l+1)`, with `ev` and `od` the transforms of the even- and odd-indexed elements, output `j` is
`ev[j] + w^j·od[j]` and output `j + n/2` is `ev[j] - w^j·od[j]`, `w^j` the accumulated twiddle of stage `l + 1`; the
length is kept. -/
def Obligations.FftRecursion : Prop :=
  ∀ (rom : Nat → C64) (x : List C64),
    (x.length ≤ 1 → fft rom x = x) ∧
    (∀ l, x.length = 2 ^ (l + 1) →
      (fft rom x).length = x.length ∧
      ∃ evx odx : List C64, evx.length = 2 ^ l ∧ odx.length = 2 ^ l ∧
        (∀ j, j < 2 ^ l → evx[j]? = x[2 * j]? ∧ odx[j]? = x[2 * j + 1]?) ∧
        ∀ (j : Nat) (e o : C64), (fft rom evx)[j]? = some e → (fft rom odx)[j]? = some o →
          (fft rom x)[j]? = some (cadd e (cmul (twAcc rom (l + 1) j) o)) ∧
          (fft rom x)[j + 2 ^ l]? = some (csub e (cmul (twAcc rom (l + 1) j) o)))

/-- R191, R47: FFT of a legal length on written elements completes with their transform in X; no byte outside
`X[0..N-1]` and no register but BUSY and DONE changes. -/
def Obligations.FftCompletes : Prop :=
  ∀ (s : State) (x : List C64), lengthOk s.params s.cmdLen → x.length = s.cmdLen.toNat → s.xHolds x →
    ∃ t, exec .fft s = .next t ∧ (fft s.rom x).length = x.length ∧ t.xHolds (fft s.rom x) ∧
      t.completedFrom s ∧ ∀ a, ¬ inX x.length a → readByte t.mem a = readByte s.mem a

/-- R220, R221, R47: IFFT of a legal length on written elements completes with, in `X[k]`, the transform of the
conjugates divided by the length, conjugated once more for CJO = 1; nothing else changes but BUSY and DONE. -/
def Obligations.IfftCompletes : Prop :=
  ∀ (s : State) (cjo : Bool) (x : List C64), lengthOk s.params s.cmdLen → x.length = s.cmdLen.toNat →
    s.xHolds x →
    ∃ t, exec (.ifft cjo) s = .next t ∧
      (∀ k, k < x.length → ∃ y, (fft s.rom (x.map cconj))[k]? = some y ∧
        readC64 t.mem (xBase + 16 * k) =
          some (if cjo then cconj (cdivr y (i2f x.length)) else cdivr y (i2f x.length))) ∧
      t.completedFrom s ∧ ∀ a, ¬ inX x.length a → readByte t.mem a = readByte s.mem a

/-- R241 to R243, R47: BPMASK of a legal length on written elements keeps the bins whose frequency lies in the
band bit for bit and writes `(+0.0, +0.0)` to the others; nothing else changes but BUSY and DONE. -/
def Obligations.BpmaskCompletes : Prop :=
  ∀ (s : State) (x : List C64), lengthOk s.params s.cmdLen → x.length = s.cmdLen.toNat → s.xHolds x →
    ∃ t, exec .bpmask s = .next t ∧
      (∀ k, k < x.length → readC64 t.mem (xBase + 16 * k) =
        if le64 s.bandLo (div64 (i2f k) (i2f x.length)) && le64 (div64 (i2f k) (i2f x.length)) s.bandHi
        then x[k]? else some ⟨0#64, 0#64⟩) ∧
      t.completedFrom s ∧ ∀ a, ¬ inX x.length a → readByte t.mem a = readByte s.mem a

/-- R244, R245, R47: FILTER of a legal length on written elements completes with the inverse transform of the
masked transform in X and its real parts in OUT; nothing else changes but BUSY and DONE. -/
def Obligations.FilterCompletes : Prop :=
  ∀ (s : State) (cjo : Bool) (x : List C64), lengthOk s.params s.cmdLen → x.length = s.cmdLen.toNat →
    s.xHolds x →
    ∃ t v, exec (.filter cjo) s = .next t ∧ v = ifft s.rom cjo (maskBins s.bandLo s.bandHi (fft s.rom x)) ∧
      v.length = x.length ∧ t.xHolds v ∧ t.outHolds (v.map C64.re) ∧
      t.completedFrom s ∧ ∀ a, ¬ inX x.length a → ¬ inOut x.length a → readByte t.mem a = readByte s.mem a

/-- R260, R261, R47: R2C of a legal length on written samples writes each sample's bits and `+0.0` to X;
nothing else changes but BUSY and DONE. -/
def Obligations.R2cCompletes : Prop :=
  ∀ (s : State) (w : List F64), lengthOk s.params s.cmdLen → w.length = s.cmdLen.toNat → s.winHolds w →
    ∃ t, exec .r2c s = .next t ∧
      (∀ k, k < w.length → ∃ a, w[k]? = some a ∧ readC64 t.mem (xBase + 16 * k) = some ⟨a, 0#64⟩) ∧
      t.completedFrom s ∧ ∀ a, ¬ inX w.length a → readByte t.mem a = readByte s.mem a

/-- R262, R263, R47 (log entry 6: the imaginary parts need not be written): C2R of a legal length on elements
with written real parts copies them to OUT bit for bit; nothing else changes but BUSY and DONE. -/
def Obligations.C2rCompletes : Prop :=
  ∀ (s : State) (r : List F64), lengthOk s.params s.cmdLen → r.length = s.cmdLen.toNat →
    (∀ k, k < r.length → readElem s.mem (xBase + 16 * k) = r[k]?) →
    ∃ t, exec .c2r s = .next t ∧ t.outHolds r ∧
      t.completedFrom s ∧ ∀ a, ¬ inOut r.length a → readByte t.mem a = readByte s.mem a

/-- R264, R47: DENOISE of a legal length on written samples completes with the whole filter pass over the
wrapped samples in X and its real parts in OUT; nothing else changes but BUSY and DONE, WIN included. -/
def Obligations.DenoiseCompletes : Prop :=
  ∀ (s : State) (cjo : Bool) (w : List F64), lengthOk s.params s.cmdLen → w.length = s.cmdLen.toNat →
    s.winHolds w →
    ∃ t v, exec (.denoise cjo) s = .next t ∧
      v = ifft s.rom cjo (maskBins s.bandLo s.bandHi (fft s.rom (w.map fun a => ⟨a, 0#64⟩))) ∧
      v.length = w.length ∧ t.xHolds v ∧ t.outHolds (v.map C64.re) ∧
      t.completedFrom s ∧ ∀ a, ¬ inX w.length a → ¬ inOut w.length a → readByte t.mem a = readByte s.mem a

/-- R265, R266, R47: WPUSH of a legal length on written samples moves each sample one place toward 0 and puts
SAMPLE last; nothing else changes but BUSY and DONE. -/
def Obligations.WpushCompletes : Prop :=
  ∀ (s : State) (w : List F64), lengthOk s.params s.cmdLen → w.length = s.cmdLen.toNat → s.winHolds w →
    ∃ t, exec .wpush s = .next t ∧
      (∀ k, k + 1 < w.length → readElem t.mem (winBase + 8 * k) = w[k + 1]?) ∧
      (0 < w.length → readElem t.mem (winBase + 8 * (w.length - 1)) = some s.sample) ∧
      t.completedFrom s ∧ ∀ a, ¬ inWin w.length a → readByte t.mem a = readByte s.mem a

/-- R302: with N = 0 every sequence command completes and touches no element. -/
def Obligations.ZeroLengthTouchesNothing : Prop :=
  ∀ (s : State) (i : Instr), Instr.isSequence i → s.cmdLen = 0#16 →
    exec i s = .next { s with engine := none, done := true }

/-- R302, R304, R305 (log entry 4): run with a length that is not legal, a sequence command is turned away with
BAD_LENGTH, and run with fields out of range a twiddle command with BAD_TWIDDLE: the error is recorded, the engine
is idle and nothing else changes. -/
def Obligations.InvalidCommandsTurnedAway : Prop :=
  ∀ (s : State) (i : Instr),
    (Instr.isSequence i → ¬ lengthOk s.params s.cmdLen →
      exec i s = .next { s with err := true, ecode := (if s.err then s.ecode else 0x03#8), engine := none }) ∧
    (i.format = .tw → ¬ twiddleOk s.params i.stage i.index →
      exec i s = .next { s with err := true, ecode := (if s.err then s.ecode else 0x04#8), engine := none })

/-- R346 (log entry 5 for the unit of the mark, 6 for C2R, 9 for elements whose value is discarded): with a legal
length, a sequence command faults exactly when a part of an operand element is unwritten. -/
def Obligations.UnwrittenOperandFaults : Prop :=
  ∀ (s : State) (c : Bool), lengthOk s.params s.cmdLen →
    (∀ i ∈ [Instr.fft, .ifft c, .bpmask, .filter c],
      (exec i s = .fault .unwrittenOperand ↔ ∃ k, k < s.cmdLen.toNat ∧
        (readElem s.mem (xBase + 16 * k) = none ∨ readElem s.mem (xBase + 16 * k + 8) = none))) ∧
    (∀ i ∈ [Instr.r2c, .denoise c, .wpush],
      (exec i s = .fault .unwrittenOperand ↔ ∃ k, k < s.cmdLen.toNat ∧ readElem s.mem (winBase + 8 * k) = none)) ∧
    (exec .c2r s = .fault .unwrittenOperand ↔ ∃ k, k < s.cmdLen.toNat ∧ readElem s.mem (xBase + 16 * k) = none)

/-- R264: DENOISE gives the state that R2C followed by FILTER with the same CJO gives, the latched length being the
one NLEN holds, on a memory in canonical form. That the two commands of the pair, run one after the other, take
NLEN for their length is log entry 25; that NaN results agree bit for bit is log entry 12; that equal buffers are
equal data is log entry 23. -/
def Obligations.DenoiseIsR2cThenFilter : Prop :=
  ∀ (s u v : State) (cjo : Bool), s.mem.wf → s.cmdLen = s.nlen →
    exec .r2c s = .next u → exec (.filter cjo) u = .next v → exec (.denoise cjo) s = .next v

/-- R223: the two inverse variants agree in every real part bit for bit and their imaginary parts differ in the
sign bit alone; so FILTER and DENOISE leave the same bytes in OUT whatever CJO they carry. For parts that are NaNs
the agreement of the bits is the model's choice (log entry 12: a NaN result is a function of the operands). -/
def Obligations.InverseVariantsDifferInSign : Prop :=
  (∀ (rom : Nat → C64) (x : List C64),
    (ifft rom true x).map C64.re = (ifft rom false x).map C64.re ∧
    (ifft rom true x).map C64.im = (ifft rom false x).map fun z => neg64 z.im) ∧
  (∀ (s t u : State) (a : Nat), outBase ≤ a →
    ((exec (.filter false) s = .next t ∧ exec (.filter true) s = .next u) ∨
      (exec (.denoise false) s = .next t ∧ exec (.denoise true) s = .next u)) →
    readByte t.mem a = readByte u.mem a)

/-- R243: masking twice is masking once, bit for bit. -/
def Obligations.MaskIsIdempotent : Prop :=
  ∀ (lo hi : F64) (x : List C64), maskBins lo hi (maskBins lo hi x) = maskBins lo hi x

/-- R15, R241: `i2f` of a number below 2^53 is finite, has no sign and has exactly that value (in units of 2^-1074), and
the normalized frequency of bin `i` at a length `2^k`, `k ≤ 12`, is exactly `i / 2^k`. -/
def Obligations.BinFrequencyIsExact : Prop :=
  (∀ i : Nat, i < 2 ^ 53 →
    isFinite (i2f i) = true ∧ f64Sign (i2f i) = false ∧ valUnits (i2f i) = (i : Int) * 2 ^ 1074) ∧
  (∀ k i : Nat, k ≤ 12 → i < 2 ^ k →
    isFinite (div64 (i2f i) (i2f (2 ^ k))) = true ∧
    valUnits (div64 (i2f i) (i2f (2 ^ k))) * 2 ^ k = (i : Int) * 2 ^ 1074)

/-- R36, R240: at a length `2^k`, a bin passes exactly when `low ≤ i/N ≤ high`, both ends included, for finite bounds; a
low bound `-∞` or a high bound `+∞` leaves the other bound to decide, and the two together pass every bin; a low bound
`+∞` or a high bound `-∞` passes no bin; a NaN in either bound passes no bin; low above high passes no bin. (That the
ordered comparison puts the infinities at the two ends is log entry 24.) -/
def Obligations.BandIsInclusive : Prop :=
  ∀ (lo hi : F64) (k i : Nat), k ≤ 12 → i < 2 ^ k →
    (isFinite lo = true → isFinite hi = true →
      (keepBin lo hi (2 ^ k) i = true ↔
        valUnits lo * 2 ^ k ≤ (i : Int) * 2 ^ 1074 ∧ (i : Int) * 2 ^ 1074 ≤ valUnits hi * 2 ^ k)) ∧
    (lo = 0xFFF0000000000000#64 → isFinite hi = true →
      (keepBin lo hi (2 ^ k) i = true ↔ (i : Int) * 2 ^ 1074 ≤ valUnits hi * 2 ^ k)) ∧
    (isFinite lo = true → hi = 0x7FF0000000000000#64 →
      (keepBin lo hi (2 ^ k) i = true ↔ valUnits lo * 2 ^ k ≤ (i : Int) * 2 ^ 1074)) ∧
    (lo = 0xFFF0000000000000#64 → hi = 0x7FF0000000000000#64 → keepBin lo hi (2 ^ k) i = true) ∧
    (lo = 0x7FF0000000000000#64 ∨ hi = 0xFFF0000000000000#64 → keepBin lo hi (2 ^ k) i = false) ∧
    (isNaN lo = true ∨ isNaN hi = true → keepBin lo hi (2 ^ k) i = false) ∧
    (isNaN lo = false → isNaN hi = false → le64 lo hi = false → keepBin lo hi (2 ^ k) i = false)

/-! ### Arithmetic -/

/-- R140, R144: a sum or difference of finite operands is finite exactly when the exact one lies below the overflow
threshold of roundTiesToEven, and otherwise is the infinity of its sign. A finite one is at least as near the exact
one as every finite value is, and at equal distance from another value it is the one with the even fraction. An
exact zero sum is `-0.0` when both addends have the sign bit set (the second one flipped for a difference) and
`+0.0` otherwise (log entry 24). -/
def Obligations.SumIsNearestEven : Prop :=
  ∀ a b : F64, isFinite a = true → isFinite b = true →
    (isFinite (add64 a b) = true ↔ (valUnits a + valUnits b).natAbs < overflowUnits) ∧
    (isFinite (add64 a b) = false →
      add64 a b = if valUnits a + valUnits b < 0 then 0xFFF0000000000000#64 else 0x7FF0000000000000#64) ∧
    (valUnits a + valUnits b = 0 → add64 a b = if f64Sign a && f64Sign b then 0x8000000000000000#64 else 0#64) ∧
    (isFinite (sub64 a b) = true ↔ (valUnits a - valUnits b).natAbs < overflowUnits) ∧
    (isFinite (sub64 a b) = false →
      sub64 a b = if valUnits a - valUnits b < 0 then 0xFFF0000000000000#64 else 0x7FF0000000000000#64) ∧
    (valUnits a - valUnits b = 0 → sub64 a b = if f64Sign a && !f64Sign b then 0x8000000000000000#64 else 0#64) ∧
    ∀ c : F64, isFinite c = true →
      (isFinite (add64 a b) = true →
        (valUnits (add64 a b) - (valUnits a + valUnits b)).natAbs ≤ (valUnits c - (valUnits a + valUnits b)).natAbs ∧
        ((valUnits (add64 a b) - (valUnits a + valUnits b)).natAbs = (valUnits c - (valUnits a + valUnits b)).natAbs →
          valUnits c = valUnits (add64 a b) ∨ f64Frac (add64 a b) % 2 = 0)) ∧
      (isFinite (sub64 a b) = true →
        (valUnits (sub64 a b) - (valUnits a - valUnits b)).natAbs ≤ (valUnits c - (valUnits a - valUnits b)).natAbs ∧
        ((valUnits (sub64 a b) - (valUnits a - valUnits b)).natAbs = (valUnits c - (valUnits a - valUnits b)).natAbs →
          valUnits c = valUnits (sub64 a b) ∨ f64Frac (sub64 a b) % 2 = 0))

/-- R140, R144: a product of finite operands is finite exactly when the exact one lies below the overflow threshold
of roundTiesToEven, and is an infinity otherwise, its sign the exclusive-or of the signs (log entry 24). A finite
one is at least as near the exact one as every finite value is, and at equal distance from another value it is the
one with the even fraction. -/
def Obligations.ProductIsNearestEven : Prop :=
  ∀ a b : F64, isFinite a = true → isFinite b = true →
    (isFinite (mul64 a b) = true ↔ (valUnits a * valUnits b).natAbs < overflowUnits * 2 ^ 1074) ∧
    (isFinite (mul64 a b) = false → isInf (mul64 a b) = true) ∧
    f64Sign (mul64 a b) = xor (f64Sign a) (f64Sign b) ∧
    ∀ c : F64, isFinite c = true → isFinite (mul64 a b) = true →
      (valUnits (mul64 a b) * 2 ^ 1074 - valUnits a * valUnits b).natAbs
        ≤ (valUnits c * 2 ^ 1074 - valUnits a * valUnits b).natAbs ∧
      ((valUnits (mul64 a b) * 2 ^ 1074 - valUnits a * valUnits b).natAbs
        = (valUnits c * 2 ^ 1074 - valUnits a * valUnits b).natAbs →
        valUnits c = valUnits (mul64 a b) ∨ f64Frac (mul64 a b) % 2 = 0)

/-- R140, R144: a quotient of finite operands, the divisor not zero, is finite exactly when the exact one lies below
the overflow threshold of roundTiesToEven, and is an infinity otherwise, its sign the exclusive-or of the signs (log
entry 24). A finite one is at least as near the exact one as every finite value is, and at equal distance from
another value it is the one with the even fraction. -/
def Obligations.QuotientIsNearestEven : Prop :=
  ∀ a b : F64, isFinite a = true → isFinite b = true → isZero b = false →
    (isFinite (div64 a b) = true ↔ (valUnits a).natAbs * 2 ^ 1074 < overflowUnits * (valUnits b).natAbs) ∧
    (isFinite (div64 a b) = false → isInf (div64 a b) = true) ∧
    f64Sign (div64 a b) = xor (f64Sign a) (f64Sign b) ∧
    ∀ c : F64, isFinite c = true → isFinite (div64 a b) = true →
      (valUnits (div64 a b) * valUnits b - valUnits a * 2 ^ 1074).natAbs
        ≤ (valUnits c * valUnits b - valUnits a * 2 ^ 1074).natAbs ∧
      ((valUnits (div64 a b) * valUnits b - valUnits a * 2 ^ 1074).natAbs
        = (valUnits c * valUnits b - valUnits a * 2 ^ 1074).natAbs →
        valUnits c = valUnits (div64 a b) ∨ f64Frac (div64 a b) % 2 = 0)

/-- R143, R144: the invalid operations and every operation with a NaN operand deliver a quiet NaN, and a non-zero
dividend that is not a NaN, over a zero, gives an infinity whose sign is the exclusive-or of the signs. The other
operations on infinities are as in IEEE 754-2008 section 6.1, which the rules leave to it (log entry 24): an infinite
operand of a sum or difference is the result (the second one of a difference with its sign flipped), an infinity
times a value that is neither zero nor a NaN, or over a finite one, is an infinity, and a finite value over an
infinity is a zero, the signs of these the exclusive-or. -/
def Obligations.InvalidOperationsAndDivisionByZero : Prop :=
  ∀ a b : F64,
    (isNaN a = true ∨ isNaN b = true → isQuietNaN (add64 a b) = true ∧ isQuietNaN (sub64 a b) = true ∧
      isQuietNaN (mul64 a b) = true ∧ isQuietNaN (div64 a b) = true) ∧
    (isInf a = true → isInf b = true → f64Sign a ≠ f64Sign b → isQuietNaN (add64 a b) = true) ∧
    (isInf a = true → isInf b = true → f64Sign a = f64Sign b → isQuietNaN (sub64 a b) = true) ∧
    ((isZero a = true ∧ isInf b = true) ∨ (isInf a = true ∧ isZero b = true) → isQuietNaN (mul64 a b) = true) ∧
    ((isZero a = true ∧ isZero b = true) ∨ (isInf a = true ∧ isInf b = true) → isQuietNaN (div64 a b) = true) ∧
    (isNaN a = false → isZero a = false → isZero b = true →
      isInf (div64 a b) = true ∧ f64Sign (div64 a b) = xor (f64Sign a) (f64Sign b)) ∧
    (isInf a = true → isFinite b = true →
      add64 a b = a ∧ add64 b a = a ∧ sub64 a b = a ∧ sub64 b a = a ^^^ 0x8000000000000000#64) ∧
    (isInf a = true → isInf b = true → f64Sign a = f64Sign b → add64 a b = a) ∧
    (isInf a = true → isInf b = true → f64Sign a ≠ f64Sign b → sub64 a b = a) ∧
    ((isInf a = true ∧ isNaN b = false ∧ isZero b = false) ∨ (isInf b = true ∧ isNaN a = false ∧ isZero a = false) →
      isInf (mul64 a b) = true ∧ f64Sign (mul64 a b) = xor (f64Sign a) (f64Sign b)) ∧
    (isInf a = true → isFinite b = true →
      isInf (div64 a b) = true ∧ f64Sign (div64 a b) = xor (f64Sign a) (f64Sign b)) ∧
    (isFinite a = true → isInf b = true →
      isZero (div64 a b) = true ∧ f64Sign (div64 a b) = xor (f64Sign a) (f64Sign b))

/-- R150 (a): the complex product is commutative, NaN payloads aside. -/
def Obligations.ComplexProductCommutes : Prop :=
  ∀ a b : C64, sameUpToNaN (cmul a b).re (cmul b a).re ∧ sameUpToNaN (cmul a b).im (cmul b a).im

/-- R150 (b): the product of ONE and a finite `(c, d)` is `(c, d)`, except that the real part is `+0.0` when `c` is
`-0.0` and `d` has its sign bit set, and the imaginary part is `+0.0` when `d` is `-0.0` and `c` has it clear. -/
def Obligations.MultiplyByOne : Prop :=
  ∀ c d : F64, isFinite c = true → isFinite d = true →
    cmul ⟨0x3FF0000000000000#64, 0#64⟩ ⟨c, d⟩ =
      ⟨if c = 0x8000000000000000#64 ∧ f64Sign d = true then 0#64 else c,
       if d = 0x8000000000000000#64 ∧ f64Sign c = false then 0#64 else d⟩

/-! ### Host accesses -/

/-- R82, R86 to R88: an access of a width other than 4 and 8, at a misaligned offset, or at a reserved one, gets
BUS_ERROR, a read with data 0, and changes nothing, STATUS included; so does every access while `rst_n` is low
(R340). -/
def Obligations.BusErrorHasNoEffect : Prop :=
  ∀ (s : State) (o : BitVec 18) (width : Nat) (d : BitVec 64),
    (s.rstN = false ∨ (width ≠ 4 ∧ width ≠ 8) ∨ o.toNat % width ≠ 0 ∨
      (0x088 ≤ o.toNat ∧ o.toNat < 0x100) ∨ (0x200 ≤ o.toNat ∧ o.toNat < 0x10000) ∨
      (0x10000 + 8 * s.params.nMax ≤ o.toNat ∧ o.toNat < 0x20000) ∨
      (0x20000 + 16 * s.params.nMax ≤ o.toNat ∧ o.toNat < 0x30000) ∨
      0x30000 + 8 * s.params.nMax ≤ o.toNat) →
    hostRead o width s = .next { s with resp := some (.readError 0#64) } ∧
    hostWrite o width d s = .next { s with resp := some .writeError }

/-- R81, R83, and what a host read answers (R88): the register map (each register, ROM entry and buffer element below
N_MAX is reached at its offset, and what an offset that is a multiple of 8 reaches lies there); at each offset a read
answers the register's fields (R31 to R40), TWROM[L] or zero for `L = 0` and `L > LOG2N_MAX` (R42), or the element,
and faults if that is unwritten (R346); the guarded ones are read with the engine idle. The two 4-byte reads at a
place answer the halves of what the 8-byte read answers (R84; the zeros above them are log entry 11). -/
def Obligations.MapReachesEveryLocation : Prop :=
  (∀ (p : Params),
    (∀ r, locate p (Loc.reg r).addr = some (.reg r)) ∧
    (∀ l im, l < 16 → locate p (Loc.rom l im).addr = some (.rom l im)) ∧
    (∀ i, i < p.nMax → locate p (0x10000 + 8 * i) = some (.win i) ∧
      locate p (0x20000 + 16 * i) = some (.xRe i) ∧ locate p (0x20008 + 16 * i) = some (.xIm i) ∧
      locate p (0x30000 + 8 * i) = some (.out i)) ∧
    (∀ o l, o % 8 = 0 → o < 2 ^ 18 → locate p o = some l → l.addr = o)) ∧
  (∀ s : State, s.rstN = true →
    s.reads 0x000#18 (0#12 ++ BitVec.ofNat 4 s.params.log2nMax.val ++ 0x0001#16 ++ 0x4B525446#32) ∧
    s.reads 0x008#18 (0#63 ++ BitVec.ofBool s.ie) ∧
    (∃ v, s.reads 0x010#18 v ∧ v.getLsbD 0 = s.busy ∧ v.getLsbD 1 = s.done ∧ v.getLsbD 2 = s.err ∧
      v.extractLsb' 3 5 = 0#5 ∧ v.extractLsb' 8 8 = s.ecode ∧ v.extractLsb' 16 8 = s.lastop ∧
      v.extractLsb' 24 40 = 0#40) ∧
    s.reads 0x018#18 (0#32 ++ s.cmdword) ∧
    (∀ l : Fin 16,
      s.reads (BitVec.ofNat 18 (0x100 + 16 * l.val))
        (if 1 ≤ l.val ∧ l.val ≤ s.params.log2nMax.val then s.twrom[l].re else 0#64) ∧
      s.reads (BitVec.ofNat 18 (0x108 + 16 * l.val))
        (if 1 ≤ l.val ∧ l.val ≤ s.params.log2nMax.val then s.twrom[l].im else 0#64)) ∧
    (s.busy = false →
      s.reads 0x020#18 (0#48 ++ s.nlen) ∧ s.reads 0x028#18 s.bandLo ∧ s.reads 0x030#18 s.bandHi ∧
      s.reads 0x038#18 s.sample ∧ s.reads 0x040#18 s.scalar ∧
      s.reads 0x048#18 s.ca.re ∧ s.reads 0x050#18 s.ca.im ∧ s.reads 0x058#18 s.cb.re ∧ s.reads 0x060#18 s.cb.im ∧
      s.reads 0x068#18 s.cr.re ∧ s.reads 0x070#18 s.cr.im ∧ s.reads 0x078#18 s.cs.re ∧ s.reads 0x080#18 s.cs.im ∧
      ∀ i o, i < s.params.nMax → o ∈ [0x10000 + 8 * i, 0x20000 + 16 * i, 0x20008 + 16 * i, 0x30000 + 8 * i] →
        (∀ v, readElem s.mem o = some v → s.reads (BitVec.ofNat 18 o) v) ∧
        (readElem s.mem o = none → hostRead (BitVec.ofNat 18 o) 8 s = .fault .unwrittenRead))) ∧
  (∀ (s : State) (o : BitVec 18) (v : BitVec 64), s.reads o v →
    hostRead o 4 s = .next { s with resp := some (.readOk ((v.extractLsb' 0 32).setWidth 64)) } ∧
    hostRead (o + 4#18) 4 s = .next { s with resp := some (.readOk ((v.extractLsb' 32 32).setWidth 64)) })

/-- R306: while the engine is busy, an access of a mapped offset other than ID, CTRL, STATUS, CMD and TWROM is
refused: ACCESS_WHILE_BUSY is recorded, a write is dropped, a read answers some value, and nothing else of the
core changes; a read of one of those others is answered and records nothing. -/
def Obligations.GuardedAccessWhileBusy : Prop :=
  ∀ (s : State) (o : BitVec 18) (width : Nat) (d : BitVec 64) (l : Loc), s.rstN = true → s.busy = true →
    target s.params o width = some l →
    (0x020 ≤ o.toNat ∧ (o.toNat < 0x100 ∨ 0x200 ≤ o.toNat) →
      hostWrite o width d s =
        .next { s with err := true, ecode := (if s.err then s.ecode else 0x06#8), resp := some .writeOk } ∧
      ∃ v k, hostRead o width s =
        .next { s with err := true, ecode := (if s.err then s.ecode else 0x06#8), resp := some (.readOk v), draws := k }) ∧
    (o.toNat < 0x020 ∨ (0x100 ≤ o.toNat ∧ o.toNat < 0x200) →
      ∃ v, hostRead o width s = .next { s with resp := some (.readOk v) })

/-- R34, R36 to R39, R46, R84: an 8-byte host write of an idle core to a read-write data register puts the data in that
register and changes nothing else; of NLEN the low 16 bits are kept; to an element of WIN or X it writes that element
and changes no other byte of the buffers and no register. Read back with 8 bytes, each such register or element
answers the bits written; the two 4-byte reads answer its halves (zero-extended, log entry 11). -/
def Obligations.ReadBackAfterWrite : Prop :=
  (∀ (s t : State) (o : BitVec 18) (d : BitVec 64), s.rstN = true → s.busy = false →
    ((0x028 ≤ o.toNat ∧ o.toNat < 0x068) ∨ (0x10000 ≤ o.toNat ∧ o.toNat < 0x10000 + 8 * s.params.nMax) ∨
      (0x20000 ≤ o.toNat ∧ o.toNat < 0x20000 + 16 * s.params.nMax)) → o.toNat % 8 = 0 →
    hostWrite o 8 d s = .next t →
    hostRead o 8 t = .next { t with resp := some (.readOk d) } ∧
    hostRead o 4 t = .next { t with resp := some (.readOk ((d.extractLsb' 0 32).setWidth 64)) } ∧
    hostRead (o + 4#18) 4 t = .next { t with resp := some (.readOk ((d.extractLsb' 32 32).setWidth 64)) }) ∧
  (∀ (s : State) (d : BitVec 64), s.rstN = true → s.busy = false →
    hostWrite 0x020#18 8 d s = .next { s with nlen := d.extractLsb' 0 16, resp := some .writeOk } ∧
    hostWrite 0x020#18 4 d s = .next { s with nlen := d.extractLsb' 0 16, resp := some .writeOk } ∧
    hostWrite 0x024#18 4 d s = .next { s with resp := some .writeOk } ∧
    hostWrite 0x028#18 8 d s = .next { s with bandLo := d, resp := some .writeOk } ∧
    hostWrite 0x030#18 8 d s = .next { s with bandHi := d, resp := some .writeOk } ∧
    hostWrite 0x038#18 8 d s = .next { s with sample := d, resp := some .writeOk } ∧
    hostWrite 0x040#18 8 d s = .next { s with scalar := d, resp := some .writeOk } ∧
    hostWrite 0x048#18 8 d s = .next { s with ca := ⟨d, s.ca.im⟩, resp := some .writeOk } ∧
    hostWrite 0x050#18 8 d s = .next { s with ca := ⟨s.ca.re, d⟩, resp := some .writeOk } ∧
    hostWrite 0x058#18 8 d s = .next { s with cb := ⟨d, s.cb.im⟩, resp := some .writeOk } ∧
    hostWrite 0x060#18 8 d s = .next { s with cb := ⟨s.cb.re, d⟩, resp := some .writeOk } ∧
    ∀ i o, i < s.params.nMax → o ∈ [0x10000 + 8 * i, 0x20000 + 16 * i, 0x20008 + 16 * i] →
      ∃ t, hostWrite (BitVec.ofNat 18 o) 8 d s = .next t ∧ t = { s with mem := t.mem, resp := some .writeOk } ∧
        readElem t.mem o = some d ∧ ∀ a, a < o ∨ o + 8 ≤ a → readByte t.mem a = readByte s.mem a)

/-- R84, R346: a 4-byte write of an idle core to a read-write data register or to an element of WIN or X puts the 32
bits in the half it addresses, keeps the other half, and changes no other register or element; read back with 8
bytes, the two are together. The write of an unwritten element marks it written too; its other half is then some
fixed value (log entry 8). -/
def Obligations.HalfWriteKeepsOtherHalf : Prop :=
  (∀ (s t : State) (o : BitVec 18) (d old : BitVec 64), s.rstN = true → s.busy = false →
    ((0x028 ≤ o.toNat ∧ o.toNat < 0x068) ∨ (0x10000 ≤ o.toNat ∧ o.toNat < 0x10000 + 8 * s.params.nMax) ∨
      (0x20000 ≤ o.toNat ∧ o.toNat < 0x20000 + 16 * s.params.nMax)) → o.toNat % 8 = 0 →
    hostRead o 8 s = .next { s with resp := some (.readOk old) } →
    (hostWrite o 4 d s = .next t →
      hostRead o 8 t = .next { t with resp := some (.readOk (old.extractLsb' 32 32 ++ d.extractLsb' 0 32)) }) ∧
    (hostWrite (o + 4#18) 4 d s = .next t →
      hostRead o 8 t = .next { t with resp := some (.readOk (d.extractLsb' 0 32 ++ old.extractLsb' 0 32)) })) ∧
  (∀ (s : State) (d : BitVec 64), s.rstN = true → s.busy = false →
    hostWrite 0x028#18 4 d s = .next { s with bandLo := withLowHalf s.bandLo d, resp := some .writeOk } ∧
    hostWrite 0x02C#18 4 d s = .next { s with bandLo := withHighHalf s.bandLo d, resp := some .writeOk } ∧
    hostWrite 0x030#18 4 d s = .next { s with bandHi := withLowHalf s.bandHi d, resp := some .writeOk } ∧
    hostWrite 0x034#18 4 d s = .next { s with bandHi := withHighHalf s.bandHi d, resp := some .writeOk } ∧
    hostWrite 0x038#18 4 d s = .next { s with sample := withLowHalf s.sample d, resp := some .writeOk } ∧
    hostWrite 0x03C#18 4 d s = .next { s with sample := withHighHalf s.sample d, resp := some .writeOk } ∧
    hostWrite 0x040#18 4 d s = .next { s with scalar := withLowHalf s.scalar d, resp := some .writeOk } ∧
    hostWrite 0x044#18 4 d s = .next { s with scalar := withHighHalf s.scalar d, resp := some .writeOk } ∧
    hostWrite 0x048#18 4 d s = .next { s with ca := ⟨withLowHalf s.ca.re d, s.ca.im⟩, resp := some .writeOk } ∧
    hostWrite 0x04C#18 4 d s = .next { s with ca := ⟨withHighHalf s.ca.re d, s.ca.im⟩, resp := some .writeOk } ∧
    hostWrite 0x050#18 4 d s = .next { s with ca := ⟨s.ca.re, withLowHalf s.ca.im d⟩, resp := some .writeOk } ∧
    hostWrite 0x054#18 4 d s = .next { s with ca := ⟨s.ca.re, withHighHalf s.ca.im d⟩, resp := some .writeOk } ∧
    hostWrite 0x058#18 4 d s = .next { s with cb := ⟨withLowHalf s.cb.re d, s.cb.im⟩, resp := some .writeOk } ∧
    hostWrite 0x05C#18 4 d s = .next { s with cb := ⟨withHighHalf s.cb.re d, s.cb.im⟩, resp := some .writeOk } ∧
    hostWrite 0x060#18 4 d s = .next { s with cb := ⟨s.cb.re, withLowHalf s.cb.im d⟩, resp := some .writeOk } ∧
    hostWrite 0x064#18 4 d s = .next { s with cb := ⟨s.cb.re, withHighHalf s.cb.im d⟩, resp := some .writeOk } ∧
    ∀ i o, i < s.params.nMax → o ∈ [0x10000 + 8 * i, 0x20000 + 16 * i, 0x20008 + 16 * i] →
      ∃ old, (∀ v, readElem s.mem o = some v → old = v) ∧
        (∃ t, hostWrite (BitVec.ofNat 18 o) 4 d s = .next t ∧
          t = { s with mem := t.mem, draws := t.draws, resp := some .writeOk } ∧
          readElem t.mem o = some (withLowHalf old d) ∧ ∀ a, a < o ∨ o + 8 ≤ a → readByte t.mem a = readByte s.mem a) ∧
        (∃ t, hostWrite (BitVec.ofNat 18 (o + 4)) 4 d s = .next t ∧
          t = { s with mem := t.mem, draws := t.draws, resp := some .writeOk } ∧
          readElem t.mem o = some (withHighHalf old d) ∧ ∀ a, a < o ∨ o + 8 ≤ a → readByte t.mem a = readByte s.mem a))

/-- R89: a write of ID, CR, CS, TWROM or OUT by an idle core's host is OK and changes nothing; one of ID or TWROM,
which R306 does not guard, while a command runs too. -/
def Obligations.ReadOnlyWritesIgnored : Prop :=
  ∀ (s : State) (o : BitVec 18) (width : Nat) (d : BitVec 64) (l : Loc), s.rstN = true →
    (s.busy = false ∨ o.toNat < 0x008 ∨ (0x100 ≤ o.toNat ∧ o.toNat < 0x200)) →
    target s.params o width = some l →
    (o.toNat < 0x008 ∨ (0x068 ≤ o.toNat ∧ o.toNat < 0x200) ∨ 0x30000 ≤ o.toNat) →
    hostWrite o width d s = .next { s with resp := some .writeOk }

/-- R33, R314: a write of STATUS clears DONE where bit 1 is written as 1, and ERR with ECODE where bit 2 is, and
changes nothing else; it is allowed while the engine is busy. -/
def Obligations.StatusWriteClears : Prop :=
  ∀ (s : State) (d : BitVec 64), s.rstN = true →
    hostWrite 0x010#18 8 d s = .next { s with
      done := s.done && !d.getLsbD 1, err := s.err && !d.getLsbD 2,
      ecode := (if d.getLsbD 2 then 0x00#8 else s.ecode), resp := some .writeOk } ∧
    hostWrite 0x010#18 4 d s = hostWrite 0x010#18 8 d s ∧
    hostWrite 0x014#18 4 d s = .next { s with resp := some .writeOk }

/-- R48, R306: while a command runs, no host write but one of CTRL with bit 1 (SRST) written as 1 changes the command,
or a register, an element or the length that it reads: it answers, and changes at most CTRL.IE and the DONE, ERR and
ECODE of STATUS. -/
def Obligations.OperandsStableWhileBusy : Prop :=
  ∀ (s : State) (o : BitVec 18) (width : Nat) (d : BitVec 64), s.busy = true → s.rstN = true →
    (o = 0x008#18 → d.getLsbD 1 = false) →
    ∃ t, hostWrite o width d s = .next t ∧ t.engine = s.engine ∧ t.busy = true ∧
      t = { s with ie := t.ie, done := t.done, err := t.err, ecode := t.ecode, resp := t.resp }

/-! ### Reset, interrupt -/

/-- R52, R31, R181: the values of the power-on reset, read off the state, TWROM's the twelve rows of R181 and zero at the
entries 0 and 13 to 15, which no command uses (R42; that the reset state is the default part, with the default ROM, is
log entries 1 and 2). -/
def Obligations.ResetValues : Prop :=
  State.reset.idWord = 0x000A00014B525446#64 ∧ State.reset.ie = false ∧ State.reset.statusWord = 0#64 ∧
  State.reset.busy = false ∧ State.reset.done = false ∧ State.reset.err = false ∧
  State.reset.ecode = 0#8 ∧ State.reset.lastop = 0#8 ∧ State.reset.cmdword = 0#32 ∧ State.reset.nlen = 0#16 ∧
  State.reset.bandLo = 0#64 ∧ State.reset.bandHi = 0#64 ∧ State.reset.sample = 0#64 ∧
  State.reset.scalar = 0#64 ∧ State.reset.ca = ⟨0#64, 0#64⟩ ∧ State.reset.cb = ⟨0#64, 0#64⟩ ∧
  State.reset.cr = ⟨0#64, 0#64⟩ ∧ State.reset.cs = ⟨0#64, 0#64⟩ ∧
  State.reset.twrom = #v[
    ⟨0#64, 0#64⟩,
    ⟨0xBFF0000000000000#64, 0xBCA1A62633145C07#64⟩,
    ⟨0x3C91A62633145C07#64, 0xBFF0000000000000#64⟩,
    ⟨0x3FE6A09E667F3BCD#64, 0xBFE6A09E667F3BCC#64⟩,
    ⟨0x3FED906BCF328D46#64, 0xBFD87DE2A6AEA963#64⟩,
    ⟨0x3FEF6297CFF75CB0#64, 0xBFC8F8B83C69A60A#64⟩,
    ⟨0x3FEFD88DA3D12526#64, 0xBFB917A6BC29B42C#64⟩,
    ⟨0x3FEFF621E3796D7E#64, 0xBFA91F65F10DD814#64⟩,
    ⟨0x3FEFFD886084CD0D#64, 0xBF992155F7A3667E#64⟩,
    ⟨0x3FEFFF62169B92DB#64, 0xBF8921D1FCDEC784#64⟩,
    ⟨0x3FEFFFD8858E8A92#64, 0xBF7921F0FE670071#64⟩,
    ⟨0x3FEFFFF621621D02#64, 0xBF6921F8BECCA4BA#64⟩,
    ⟨0x3FEFFFFD88586EE6#64, 0xBF5921FAAEE6472D#64⟩,
    ⟨0#64, 0#64⟩, ⟨0#64, 0#64⟩, ⟨0#64, 0#64⟩] ∧
  (∀ a, readByte State.reset.mem a = none) ∧ State.reset.engine = none ∧ State.reset.irq = false

/-- R32, R342: a write of CTRL with SRST = 1, of either width and whatever the IE bit, is a soft reset: it resets every
register, idles the engine, drops irq, and leaves the buffers as they are but for the destinations of a command it
abandons (AbandonedDestinationsUnwritten says which); with the engine idle they all stay. -/
def Obligations.SoftResetEffect : Prop :=
  ∀ (s : State) (width : Nat) (d : BitVec 64), s.rstN = true → (width = 4 ∨ width = 8) → d.getLsbD 1 = true →
    ∃ t, hostWrite 0x008#18 width d s = .next t ∧ t = { s.softReset with resp := some .writeOk } ∧
      t = { State.reset with
        params := s.params, twrom := s.twrom, mem := s.abandonedMem, inputs := s.inputs,
        resp := some .writeOk, draws := s.draws } ∧
      t.irq = false ∧ (s.engine = none → t.mem = s.mem)

/-- R343 (log entry 18: that the lost elements are unwritten is the model's choice): a soft reset that abandons a
command makes the elements it would have written unwritten, for the length it was accepted with, keeps every other
byte, and sets CR and CS to zero. -/
def Obligations.AbandonedDestinationsUnwritten : Prop :=
  ∀ (s : State) (l : Latched) (i : Instr) (a : Nat), s.engine = some l → decode l.cmd = .ok i →
    let n := l.n.toNat
    let lost : Prop := match i with
      | .fft | .ifft _ | .bpmask | .r2c => inX n a
      | .filter _ | .denoise _ => inX n a ∨ inOut n a
      | .c2r => inOut n a
      | .wpush => inWin n a
      | .nop | .cadd | .csub | .cmul | .cdivr | .cconj | .cmag | .cphase => False
      | .twgen _ _ | .ctwmul _ _ | .bfly _ _ => False
    (lost → readByte s.softReset.mem a = none) ∧ (¬ lost → readByte s.softReset.mem a = readByte s.mem a) ∧
    s.softReset.cr = ⟨0#64, 0#64⟩ ∧ s.softReset.cs = ⟨0#64, 0#64⟩

/-- R340, R346 (log entry 17: that the changes of `rst_n` are events): when `rst_n` falls, whatever runs is abandoned:
the registers take their reset values and no buffer byte is written; while it is low the engine does nothing; when it
rises the core keeps its state, which after a low `rst_n` (StepKeepsResetHeld) is the power-on reset state, idle:
BUSY = 0 and no command latched. -/
def Obligations.PowerOnReset : Prop :=
  ∀ s : State,
    handle .resetLow s = .next { State.reset with
      params := s.params, twrom := s.twrom, rstN := false, inputs := s.inputs, resp := s.resp,
      draws := s.draws } ∧
    (s.rstN = false → handle .engine s = .next s) ∧
    handle .resetHigh s = .next { s with rstN := true } ∧
    (s.heldInReset → s.rstN = false → ∃ t, handle .resetHigh s = .next t ∧ t.busy = false ∧ t.engine = none ∧
      t = { State.reset with
        params := s.params, twrom := s.twrom, inputs := s.inputs, resp := s.resp, draws := s.draws })

/-- R32, R50, R310, R351: a write of CTRL with SRST = 0 stores IE and changes nothing else, its upper half nothing at
all; irq is the level of CTRL.IE ∧ (DONE ∨ ERR): with IE = 1 it is high after a completed NOP and after any recorded
error, and low after a write of STATUS that clears DONE and ERR; with IE = 0 it is low. -/
def Obligations.InterruptFollowsStatus : Prop :=
  ∀ (s t u : State) (e : ErrorCause) (d : BitVec 64),
    (s.rstN = true → d.getLsbD 1 = false →
      hostWrite 0x008#18 8 d s = .next { s with ie := d.getLsbD 0, resp := some .writeOk } ∧
      hostWrite 0x008#18 4 d s = .next { s with ie := d.getLsbD 0, resp := some .writeOk }) ∧
    (s.rstN = true → hostWrite 0x00C#18 4 d s = .next { s with resp := some .writeOk }) ∧
    (s.irq = true ↔ s.ie = true ∧ (s.done = true ∨ s.err = true)) ∧
    (s.ie = false → s.irq = false) ∧ (s.ie = true → (s.raiseError e).irq = true) ∧
    (exec .nop s = .next t → t.irq = s.ie) ∧
    (s.rstN = true → hostWrite 0x010#18 8 0x6#64 s = .next u → u.irq = false)

/-! ### Invariants and whole-machine rules -/

/-- The canonical form of the buffers' bytes, which is the model's own representation (log entry 23; the spec has none):
no step loses it. -/
def Obligations.StepKeepsMemoryCanonical : Prop :=
  ∀ s t : State, s.mem.wf → step s = .next t → t.mem.wf

/-- R346, R83 (log entries 5 and 23): every step keeps the written marks whole per 64-bit element, and the held bytes
within the elements below N_MAX. -/
def Obligations.StepKeepsWrittenMarksWhole : Prop :=
  ∀ s t : State, s.mem.wholeElements → s.memInBuffers → step s = .next t →
    t.mem.wholeElements ∧ t.memInBuffers

/-- R303, R306 to R308: every step keeps it that a latched command is one that passed every check, that CMD,
LASTOP and NLEN still show it, and that DONE is 0 while it runs. -/
def Obligations.StepKeepsLatchedCommandValid : Prop :=
  ∀ s t : State, s.latchOk → step s = .next t → t.latchOk

/-- R33, R301, R305: every step keeps it that ECODE is 0x00 while ERR = 0 and a code from 0x01 to 0x06 while
ERR = 1; codes 0x07 to 0xFF are never recorded. -/
def Obligations.StepKeepsErrorCode : Prop :=
  ∀ s t : State, s.errorCodeOk → step s = .next t → t.errorCodeOk

/-- R340: every step keeps it that a core whose `rst_n` is low holds the power-on reset state. -/
def Obligations.StepKeepsResetHeld : Prop :=
  ∀ s t : State, s.heldInReset → step s = .next t → t.heldInReset

/-- The invariants hold at reset (log entry 23 for the canonical form, 5 for the unit of the marks). -/
def Obligations.ResetMeetsInvariants : Prop :=
  State.reset.mem.wf ∧ State.reset.mem.wholeElements ∧ State.reset.memInBuffers ∧ State.reset.latchOk ∧
    State.reset.errorCodeOk ∧ State.reset.heldInReset

/-- R31, R42: no step changes ID, TWROM or the parameters of the part. -/
def Obligations.PartNeverChanges : Prop :=
  ∀ s t : State, step s = .next t →
    t.params = s.params ∧ t.twrom = s.twrom ∧ t.idWord = s.idWord ∧ ∀ l, t.rom l = s.rom l

/-- R309: an engine's turn on a valid latched command ends in the fault of an unwritten operand or completes the
command: BUSY 0, DONE 1, ERR and ECODE as before; a command that was accepted is not turned away. -/
def Obligations.AcceptedCommandCompletes : Prop :=
  ∀ s : State, s.latchOk → s.rstN = true → s.busy = true →
    engineTurn s = .fault .unwrittenOperand ∨
      ∃ t, engineTurn s = .next t ∧ t.busy = false ∧ t.done = true ∧ t.err = s.err ∧ t.ecode = s.ecode ∧
        t.lastop = s.lastop ∧ t.cmdword = s.cmdword

/-- R346, R88: a step answers a next state but for two faults. It faults with unwrittenRead exactly when the next event
is a host read, with `rst_n` high, of an element that nothing has written and that is not both guarded and of a busy
engine; an offset reaches an unwritten element exactly when it lies in a buffer and the 8 bytes there are not all
written. It faults with unwrittenOperand exactly at the engine's turn (with no event pending too, log entry 10) on a
command of legal length with an unwritten element among its operands (log entries 5, 6 and 9). None refuses, and a
step whose event is a host write never faults. -/
def Obligations.StepStopsOnlyOnUnwrittenReads : Prop :=
  ∀ s : State,
    (s.safeStep ∨ step s = .fault .unwrittenOperand ∨ step s = .fault .unwrittenRead) ∧
    (step s = .fault .unwrittenRead ↔ ∃ o width rest l, s.inputs = .read o width :: rest ∧ s.rstN = true ∧
      target s.params o width = some l ∧ ¬ (busyGuarded l = true ∧ s.busy = true) ∧ s.readLoc l = none) ∧
    (∀ o width l, target s.params o width = some l →
      (s.readLoc l = none ↔ 0x10000 ≤ o.toNat ∧ readElem s.mem (8 * (o.toNat / 8)) = none)) ∧
    (step s = .fault .unwrittenOperand ↔ ∃ l i, (s.inputs = [] ∨ ∃ rest, s.inputs = .engine :: rest) ∧
      s.rstN = true ∧ s.engine = some l ∧ decode l.cmd = .ok i ∧ lengthOk s.params l.n ∧
      operandUnwritten s.mem l.n.toNat i) ∧
    (∀ o w d rest, s.inputs = .write o w d :: rest → s.safeStep)

/-- R47: no command's completion changes a byte of an element at an index from N on, nor any byte outside the
buffers, for the length N it runs with. -/
def Obligations.CommandsTouchOnlyFirstElements : Prop :=
  ∀ (s t : State) (i : Instr) (a : Nat), exec i s = .next t →
    ¬ inX s.cmdLen.toNat a → ¬ inWin s.cmdLen.toNat a → ¬ inOut s.cmdLen.toNat a →
    readByte t.mem a = readByte s.mem a

/-- R47: no command reads an element at an index from N on: on buffers that agree in the first N elements, a command
faults alike, and otherwise ends in states that agree in everything but the other elements. Where results are NaNs,
that the two runs end with the same bits is the model's choice (log entry 12: a NaN result is a function of the
operands). -/
def Obligations.ElementsBeyondLengthNotRead : Prop :=
  ∀ (s : State) (m : Memory) (i : Instr),
    let near : Nat → Prop := fun a => inX s.cmdLen.toNat a ∨ inWin s.cmdLen.toNat a ∨ inOut s.cmdLen.toNat a
    (∀ a, near a → readByte m a = readByte s.mem a) →
    (∀ f, exec i s = .fault f → exec i { s with mem := m } = .fault f) ∧
    ∀ t, exec i s = .next t → ∃ u, exec i { s with mem := m } = .next u ∧ u = { t with mem := u.mem } ∧
      ∀ a, near a → readByte u.mem a = readByte t.mem a
end

