-- ==== Sys2Proof/Laws/Memory.lean ====
section
/-! SUPPORT. What the memory operations do: a read after a write, the bytes a write leaves alone, and that
each keeps the canonical form. -/

namespace Sys2Proof.Machine

/-! ### Bytes -/

theorem readByte_writeByte (m : Memory) (a b : Nat) (v : BitVec 8) :
    readByte (writeByte m a v) b = if a = b then some v else readByte m b := by
  induction m with
  | nil => simp [writeByte, readByte]
  | cons c rest ih =>
    obtain ⟨k, w⟩ := c
    simp only [writeByte]
    split
    · simp only [readByte]
    · split
      · subst_vars; simp only [readByte]; split <;> rfl
      · simp only [readByte, ih]
        by_cases h : k = b
        · subst h; simp [*]
        · simp [h]

@[simp] theorem readByte_writeByte_same (m : Memory) (a : Nat) (v : BitVec 8) :
    readByte (writeByte m a v) a = some v := by simp [readByte_writeByte]

theorem readByte_writeByte_other (m : Memory) {a b : Nat} (v : BitVec 8) (h : a ≠ b) :
    readByte (writeByte m a v) b = readByte m b := by simp [readByte_writeByte, h]

theorem mem_writeByte {m : Memory} {a : Nat} {v : BitVec 8} {c : Host.Cell} (h : c ∈ writeByte m a v) :
    c = (a, v) ∨ c ∈ m := by
  induction m with
  | nil => simpa [writeByte] using h
  | cons d rest ih =>
    obtain ⟨k, w⟩ := d
    simp only [writeByte] at h
    split at h
    · simpa using h
    · split at h
      · rcases List.mem_cons.1 h with h | h
        · exact .inl h
        · exact .inr (List.mem_cons_of_mem _ h)
      · rcases List.mem_cons.1 h with h | h
        · exact .inr (h ▸ List.mem_cons_self)
        · exact (ih h).imp id (List.mem_cons_of_mem _)

theorem writeByte_wf {m : Memory} (h : m.wf) (a : Nat) (v : BitVec 8) : Memory.wf (writeByte m a v) := by
  induction m with
  | nil => simp [writeByte, Memory.wf]
  | cons d rest ih =>
    obtain ⟨k, w⟩ := d
    obtain ⟨hk, hr⟩ := List.pairwise_cons.1 h
    simp only [writeByte]
    split
    · rename_i hlt
      refine List.pairwise_cons.2 ⟨?_, h⟩
      intro c hc
      rcases List.mem_cons.1 hc with rfl | hc
      · exact hlt
      · exact Nat.lt_trans hlt (hk c hc)
    · split
      · subst_vars
        exact List.pairwise_cons.2 ⟨hk, hr⟩
      · refine List.pairwise_cons.2 ⟨?_, ih hr⟩
        intro c hc
        rcases mem_writeByte hc with rfl | hc
        · simp only; omega
        · exact hk c hc

theorem readByte_isSome_iff (m : Memory) (a : Nat) : (readByte m a).isSome ↔ ∃ c ∈ m, c.1 = a := by
  induction m with
  | nil => simp [readByte]
  | cons d rest ih =>
    obtain ⟨k, w⟩ := d
    by_cases h : k = a <;> simp [readByte, h, ih]

/-- Canonical memories that read alike are equal data. -/
theorem Memory.ext_of_wf {m n : Memory} (hm : m.wf) (hn : n.wf) (h : ∀ a, readByte m a = readByte n a) :
    m = n := by
  induction m generalizing n with
  | nil =>
    cases n with
    | nil => rfl
    | cons d rest => have := h d.1; simp [readByte] at this
  | cons c cs ih =>
    obtain ⟨k, v⟩ := c
    cases n with
    | nil => have := h k; simp [readByte] at this
    | cons d ds =>
      obtain ⟨l, w⟩ := d
      obtain ⟨hc, hcs⟩ := List.pairwise_cons.1 hm
      obtain ⟨hd, hds⟩ := List.pairwise_cons.1 hn
      have hkl : k = l := by
        by_contra hne
        have h1 : (readByte ds k).isSome := by have := h k; simp [readByte, Ne.symm hne] at this; simp [← this]
        have h2 : (readByte cs l).isSome := by have := h l; simp [readByte, hne] at this; simp [this]
        obtain ⟨x, hx, hxk⟩ := (readByte_isSome_iff _ _).1 h1
        obtain ⟨y, hy, hyl⟩ := (readByte_isSome_iff _ _).1 h2
        have := hd x hx; have := hc y hy
        simp only at *; omega
      subst hkl
      have hv : v = w := by have := h k; simpa [readByte] using this
      subst hv
      congr 1
      refine ih hcs hds fun a => ?_
      by_cases ha : k = a
      · subst ha
        have hn1 : ∀ (e : Memory), (∀ c' ∈ e, k < c'.1) → readByte e k = none := by
          intro e he
          rw [← Option.not_isSome_iff_eq_none, readByte_isSome_iff]
          rintro ⟨c', hc', rfl⟩
          exact absurd (he c' hc') (Nat.lt_irrefl _)
        rw [hn1 cs hc, hn1 ds hd]
      · have := h a; simpa [readByte, ha] using this

/-! ### Little-endian numbers -/

theorem readByte_writeLE_other (n : Nat) : ∀ (m : Memory) (a v b : Nat), b < a ∨ a + n ≤ b →
    readByte (writeLE m a v n) b = readByte m b := by
  induction n with
  | zero => intros; rfl
  | succ n ih =>
    intro m a v b h
    rw [writeLE, ih _ _ _ _ (by omega), readByte_writeByte_other _ _ (by omega)]

theorem readByte_writeLE_isSome (n : Nat) : ∀ (m : Memory) (a v b : Nat), a ≤ b → b < a + n →
    (readByte (writeLE m a v n) b).isSome := by
  induction n with
  | zero => intros; omega
  | succ n ih =>
    intro m a v b h1 h2
    rw [writeLE]
    rcases Nat.eq_or_lt_of_le h1 with rfl | h
    · rw [readByte_writeLE_other _ _ _ _ _ (by omega)]; simp
    · exact ih _ _ _ _ (by omega) (by omega)

theorem readLE_congr (n : Nat) : ∀ (m m' : Memory) (a : Nat),
    (∀ b, a ≤ b → b < a + n → readByte m b = readByte m' b) → readLE m a n = readLE m' a n := by
  induction n with
  | zero => intros; rfl
  | succ n ih =>
    intro m m' a h
    rw [readLE, readLE, h a (by omega) (by omega), ih m m' (a + 1) fun b h1 h2 => h b (by omega) (by omega)]

theorem readLE_writeLE_same (n : Nat) : ∀ (m : Memory) (a v : Nat),
    readLE (writeLE m a v n) a n = some (v % 256 ^ n) := by
  induction n with
  | zero => intros; simp [readLE, Nat.mod_one]
  | succ n ih =>
    intro m a v
    rw [readLE, writeLE, readByte_writeLE_other _ _ _ _ _ (by omega), ih]
    have h : v % 256 + 256 * (v / 256 % 256 ^ n) = v % 256 ^ (n + 1) := by rw [pow_succ', Nat.mod_mul]
    have hb : (BitVec.ofNat 8 v).toNat = v % 256 := BitVec.toNat_ofNat v 8
    simp only [readByte_writeByte_same, hb, h]

theorem writeLE_wf (n : Nat) : ∀ {m : Memory} (_ : m.wf) (a v : Nat), Memory.wf (writeLE m a v n) := by
  induction n with
  | zero => intro m h _ _; exact h
  | succ n ih => intro m h a v; exact ih (writeByte_wf h _ _) _ _

/-- Whether a number can be read is whether all its bytes are written. -/
theorem readLE_isSome_iff (n : Nat) : ∀ (m : Memory) (a : Nat),
    (readLE m a n).isSome ↔ ∀ k < n, (readByte m (a + k)).isSome := by
  induction n with
  | zero => intros; simp [readLE]
  | succ n ih =>
    intro m a
    rw [readLE]
    have h := ih m (a + 1)
    constructor
    · intro hs k hk
      rcases hb : readByte m a with _ | b
      · simp [hb] at hs
      · rcases hr : readLE m (a + 1) n with _ | r
        · simp [hb, hr] at hs
        · rcases k with _ | k
          · simp [hb]
          · have := h.1 (by simp [hr]) k (by omega)
            rwa [show a + (k + 1) = a + 1 + k by omega]
    · intro hall
      have hb := hall 0 (by omega)
      have hr := h.2 fun k hk => by
        have := hall (k + 1) (by omega)
        rwa [show a + (k + 1) = a + 1 + k by omega] at this
      obtain ⟨b, hb⟩ := Option.isSome_iff_exists.1 hb
      obtain ⟨r, hr⟩ := Option.isSome_iff_exists.1 hr
      simp at hb
      simp [hb, hr]

/-! ### Elements -/

@[simp] theorem readElem_writeElem_same (m : Memory) (a : Nat) (v : F64) :
    readElem (writeElem m a v) a = some v := by
  have h : v.toNat % 256 ^ 8 = v.toNat := Nat.mod_eq_of_lt v.isLt
  simp only [readElem, writeElem, readLE_writeLE_same, h, BitVec.ofNat_toNat, BitVec.setWidth_eq]

theorem readByte_writeElem_other (m : Memory) (a : Nat) (v : F64) (b : Nat) (h : b < a ∨ a + 8 ≤ b) :
    readByte (writeElem m a v) b = readByte m b := readByte_writeLE_other 8 m a _ b h

theorem readElem_congr {m m' : Memory} {a : Nat}
    (h : ∀ b, a ≤ b → b < a + 8 → readByte m b = readByte m' b) : readElem m a = readElem m' a := by
  simp only [readElem, readLE_congr 8 m m' a h]

theorem readElem_writeElem_other (m : Memory) (a : Nat) (v : F64) (b : Nat) (h : b + 8 ≤ a ∨ a + 8 ≤ b) :
    readElem (writeElem m a v) b = readElem m b :=
  readElem_congr fun c _ _ => readByte_writeElem_other m a v c (by omega)

theorem writeElem_wf {m : Memory} (h : m.wf) (a : Nat) (v : F64) : Memory.wf (writeElem m a v) :=
  writeLE_wf 8 h _ _

theorem readElem_isSome_iff (m : Memory) (a : Nat) :
    (readElem m a).isSome ↔ ∀ k < 8, (readByte m (a + k)).isSome := by
  rw [← readLE_isSome_iff, readElem]
  cases readLE m a 8 <;> simp

/-! ### Sequences of elements -/

theorem readByte_writeF64s_other (xs : List F64) : ∀ (m : Memory) (a b : Nat), b < a ∨ a + 8 * xs.length ≤ b →
    readByte (writeF64s m a xs) b = readByte m b := by
  induction xs with
  | nil => intros; rfl
  | cons x xs ih =>
    intro m a b h
    simp only [List.length_cons] at h
    rw [writeF64s, ih _ _ _ (by omega), readByte_writeElem_other _ _ _ _ (by omega)]

theorem readByte_writeC64s_other (zs : List C64) : ∀ (m : Memory) (a b : Nat), b < a ∨ a + 16 * zs.length ≤ b →
    readByte (writeC64s m a zs) b = readByte m b := by
  induction zs with
  | nil => intros; rfl
  | cons z zs ih =>
    intro m a b h
    simp only [List.length_cons] at h
    rw [writeC64s, ih _ _ _ (by omega), readByte_writeElem_other _ _ _ _ (by omega),
      readByte_writeElem_other _ _ _ _ (by omega)]

/-- Element `k` of a written f64 sequence reads as written. -/
theorem readElem_writeF64s (xs : List F64) : ∀ (m : Memory) (a k : Nat), k < xs.length →
    readElem (writeF64s m a xs) (a + 8 * k) = xs[k]? := by
  induction xs with
  | nil => intro m a k h; simp at h
  | cons x xs ih =>
    intro m a k h
    rw [writeF64s]
    rcases k with _ | k
    · rw [readElem_congr (m' := writeElem m a x) fun b _ _ => readByte_writeF64s_other xs _ _ _ (by omega)]
      simp
    · have := ih (writeElem m a x) (a + 8) k (by simpa using h)
      rw [show a + 8 * (k + 1) = a + 8 + 8 * k by omega, this]; simp

/-- Element `k` of a written c64 sequence reads as written. -/
theorem readC64_writeC64s (zs : List C64) : ∀ (m : Memory) (a k : Nat), k < zs.length →
    readC64 (writeC64s m a zs) (a + 16 * k) = zs[k]? := by
  induction zs with
  | nil => intro m a k h; simp at h
  | cons z zs ih =>
    intro m a k h
    rw [writeC64s]
    rcases k with _ | k
    · have h1 : ∀ c, c + 8 ≤ a + 16 → readElem (writeC64s (writeElem (writeElem m a z.re) (a + 8) z.im) (a + 16) zs) c
          = readElem (writeElem (writeElem m a z.re) (a + 8) z.im) c := fun c hc =>
        readElem_congr fun b _ _ => readByte_writeC64s_other zs _ _ _ (by omega)
      simp only [readC64, Nat.mul_zero, Nat.add_zero, h1 a (by omega), h1 (a + 8) (by omega)]
      rw [readElem_writeElem_other _ _ _ _ (by omega)]; simp
    · have := ih (writeElem (writeElem m a z.re) (a + 8) z.im) (a + 16) k (by simpa using h)
      rw [show a + 16 * (k + 1) = a + 16 + 16 * k by omega, this]; simp

theorem writeF64s_wf (xs : List F64) : ∀ {m : Memory} (_ : m.wf) (a : Nat), Memory.wf (writeF64s m a xs) := by
  induction xs with
  | nil => intro m h _; exact h
  | cons x xs ih => intro m h a; exact ih (writeElem_wf h _ _) _

theorem writeC64s_wf (zs : List C64) : ∀ {m : Memory} (_ : m.wf) (a : Nat), Memory.wf (writeC64s m a zs) := by
  induction zs with
  | nil => intro m h _; exact h
  | cons z zs ih => intro m h a; exact ih (writeElem_wf (writeElem_wf h _ _) _ _) _

/-- Reading `n` c64 elements answers a list exactly when every one of them reads as its entry. -/
theorem readC64s_eq_some_iff (n : Nat) : ∀ (m : Memory) (a : Nat) (zs : List C64),
    readC64s m a n = some zs ↔ zs.length = n ∧ ∀ k < n, readC64 m (a + 16 * k) = zs[k]? := by
  induction n with
  | zero => intro m a zs; cases zs <;> simp [readC64s]
  | succ n ih =>
    intro m a zs
    rw [readC64s]
    constructor
    · intro h
      rcases h0 : readC64 m a with _ | z
      · simp [h0] at h
      · rcases h1 : readC64s m (a + 16) n with _ | ys
        · simp [h0, h1] at h
        · simp only [h0, h1, Option.some.injEq] at h
          subst h
          obtain ⟨hl, hk⟩ := (ih _ _ _).1 h1
          refine ⟨by simp [hl], fun k hkn => ?_⟩
          rcases k with _ | k
          · simpa using h0
          · have := hk k (by omega)
            rw [show a + 16 * (k + 1) = a + 16 + 16 * k by omega, this]; simp
    · rintro ⟨hl, hk⟩
      rcases zs with _ | ⟨z, ys⟩
      · simp at hl
      · have h0 := hk 0 (by omega)
        have h1 := (ih m (a + 16) ys).2 ⟨by simpa using hl, fun k hkn => by
          have := hk (k + 1) (by omega)
          rw [show a + 16 * (k + 1) = a + 16 + 16 * k by omega] at this
          simpa using this⟩
        simp at h0
        simp [h0, h1]

/-- Reading `n` elements answers a list exactly when every one of them reads as its entry. -/
theorem readF64s_eq_some_iff (n stride : Nat) : ∀ (m : Memory) (a : Nat) (xs : List F64),
    readF64s m stride a n = some xs ↔ xs.length = n ∧ ∀ k < n, readElem m (a + stride * k) = xs[k]? := by
  induction n with
  | zero => intro m a xs; cases xs <;> simp [readF64s]
  | succ n ih =>
    intro m a xs
    rw [readF64s]
    constructor
    · intro h
      rcases h0 : readElem m a with _ | x
      · simp [h0] at h
      · rcases h1 : readF64s m stride (a + stride) n with _ | ys
        · simp [h0, h1] at h
        · simp only [h0, h1, Option.some.injEq] at h
          subst h
          obtain ⟨hl, hk⟩ := (ih _ _ _).1 h1
          refine ⟨by simp [hl], fun k hkn => ?_⟩
          rcases k with _ | k
          · simpa using h0
          · have := hk k (by omega)
            rw [show a + stride * (k + 1) = a + stride + stride * k by ring, this]; simp
    · rintro ⟨hl, hk⟩
      rcases xs with _ | ⟨x, ys⟩
      · simp at hl
      · have h0 := hk 0 (by omega)
        have h1 := (ih m (a + stride) ys).2 ⟨by simpa using hl, fun k hkn => by
          have := hk (k + 1) (by omega)
          rw [show a + stride * (k + 1) = a + stride + stride * k by ring] at this
          simpa using this⟩
        simp at h0
        simp [h0, h1]

theorem readC64_eq_none_iff (m : Memory) (a : Nat) :
    readC64 m a = none ↔ readElem m a = none ∨ readElem m (a + 8) = none := by
  unfold readC64
  cases readElem m a <;> cases readElem m (a + 8) <;> simp

/-- Reading `n` c64 elements answers nothing exactly when one of them is unwritten. -/
theorem readC64s_eq_none_iff (n : Nat) : ∀ (m : Memory) (a : Nat),
    readC64s m a n = none ↔ ∃ k, k < n ∧ readC64 m (a + 16 * k) = none := by
  induction n with
  | zero => intros; simp [readC64s]
  | succ n ih =>
    intro m a
    have e : readC64s m a (n + 1) = none ↔ readC64 m a = none ∨ readC64s m (a + 16) n = none := by
      rw [readC64s]; cases readC64 m a <;> cases readC64s m (a + 16) n <;> simp
    have shift : ∀ k, a + 16 + 16 * k = a + 16 * (k + 1) := fun k => by omega
    rw [e, ih, Nat.exists_lt_succ_left]
    simp [shift]

/-- Reading `n` elements answers nothing exactly when one of them is unwritten. -/
theorem readF64s_eq_none_iff (n stride : Nat) : ∀ (m : Memory) (a : Nat),
    readF64s m stride a n = none ↔ ∃ k, k < n ∧ readElem m (a + stride * k) = none := by
  induction n with
  | zero => intros; simp [readF64s]
  | succ n ih =>
    intro m a
    have e : readF64s m stride a (n + 1) = none ↔ readElem m a = none ∨ readF64s m stride (a + stride) n = none := by
      rw [readF64s]; cases readElem m a <;> cases readF64s m stride (a + stride) n <;> simp
    have shift : ∀ k, a + stride + stride * k = a + stride * (k + 1) := fun k => by ring
    rw [e, ih, Nat.exists_lt_succ_left]
    simp [shift]

/-! ### Erasing a range -/

theorem readByte_eraseRange (m : Memory) (lo len a : Nat) :
    readByte (eraseRange m lo len) a = if lo ≤ a ∧ a < lo + len then none else readByte m a := by
  induction m with
  | nil => simp [eraseRange, readByte]
  | cons c rest ih =>
    obtain ⟨k, v⟩ := c
    simp only [eraseRange] at ih
    by_cases hk : lo ≤ k ∧ k < lo + len
    · rw [eraseRange, List.filter_cons_of_neg (by simp [hk]), ih]
      by_cases ha : k = a
      · subst ha; simp [hk]
      · simp [readByte, ha]
    · rw [eraseRange, List.filter_cons_of_pos (by simp; omega), readByte, ih, readByte]
      by_cases ha : k = a
      · subst ha; simp [hk]
      · simp [ha]

theorem eraseRange_wf {m : Memory} (h : m.wf) (lo len : Nat) : Memory.wf (eraseRange m lo len) :=
  List.Pairwise.filter _ h

theorem eraseDestinations_wf {m : Memory} (h : m.wf) (i : Instr) (n : Nat) :
    Memory.wf (eraseDestinations m i n) := by
  cases i <;> simp only [eraseDestinations] <;> first | exact h | exact eraseRange_wf h _ _ | skip
  all_goals exact eraseRange_wf (eraseRange_wf h _ _) _ _

end Sys2Proof.Machine
end

