-- ==== Sys2Proof/Laws/Sequence.lean ====
section
/-! SUPPORT. The sequence functions keep lengths, and the twiddle list is the twiddle chain. -/

namespace Sys2Proof

theorem twList_getElem? (w : C64) (n : Nat) : ∀ (k j : Nat), j < n →
    (twList w (twChain w k) n)[j]? = some (twChain w (k + j)) := by
  induction n with
  | zero => intros; omega
  | succ n ih =>
    intro k j h
    rw [twList]
    rcases j with _ | j
    · simp
    · have := ih (k + 1) j (by omega)
      rw [twChain] at this
      rw [List.getElem?_cons_succ, this, show k + 1 + j = k + (j + 1) by omega]

@[simp] theorem twList_length (w acc : C64) (n : Nat) : (twList w acc n).length = n := by
  induction n generalizing acc with
  | zero => rfl
  | succ n ih => simp [twList, ih]

theorem butterflies_length (ws es os : List C64) :
    (butterflies ws es os).length = min ws.length (min es.length os.length) := by
  induction ws generalizing es os with
  | nil => cases es <;> cases os <;> simp [butterflies]
  | cons w ws ih => cases es <;> cases os <;> simp [butterflies, ih]

theorem butterflies_getElem? (ws es os : List C64) (j : Nat) (w e o : C64) (hw : ws[j]? = some w)
    (he : es[j]? = some e) (ho : os[j]? = some o) : (butterflies ws es os)[j]? = some (butterflyWith w e o) := by
  induction ws generalizing es os j with
  | nil => simp at hw
  | cons w' ws ih =>
    rcases es with _ | ⟨e', es⟩
    · simp at he
    · rcases os with _ | ⟨o', os⟩
      · simp at ho
      · rcases j with _ | j
        · simp_all [butterflies]
        · simp only [List.getElem?_cons_succ] at hw he ho
          simpa [butterflies] using ih es os j hw he ho

theorem evens_length (x : List C64) : (evens x).length = (x.length + 1) / 2 := by
  fun_induction evens x <;> simp_all; omega

theorem odds_length (x : List C64) : (odds x).length = x.length / 2 := by
  fun_induction odds x <;> simp_all; omega

/-- The even-indexed elements by position. -/
theorem evens_getElem? (x : List C64) : ∀ j, (evens x)[j]? = x[2 * j]? := by
  fun_induction evens x with
  | case1 => simp
  | case2 a => intro j; rcases j with _ | j <;> simp
  | case3 a b r ih =>
    intro j
    rcases j with _ | j
    · simp
    · simp [ih, show 2 * (j + 1) = 2 * j + 1 + 1 by omega]

/-- The odd-indexed elements by position. -/
theorem odds_getElem? (x : List C64) : ∀ j, (odds x)[j]? = x[2 * j + 1]? := by
  fun_induction odds x with
  | case1 => simp
  | case2 a => simp
  | case3 a b r ih =>
    intro j
    rcases j with _ | j
    · simp
    · simp [ih, show 2 * (j + 1) = 2 * j + 1 + 1 by omega]

theorem combine_length (rom : Nat → C64) (l : Nat) (ev od : List C64) :
    (combine rom l ev od).length = 2 * min ev.length od.length := by
  simp [combine, butterflies_length]; omega

theorem fftStage_length (rom : Nat → C64) (l : Nat) : ∀ x : List C64, (fftStage rom l x).length ≤ x.length := by
  induction l with
  | zero => intro x; rfl
  | succ l ih =>
    intro x
    have h1 := ih (evens x)
    have h2 := ih (odds x)
    rw [fftStage, combine_length]
    rw [evens_length] at h1
    rw [odds_length] at h2
    omega

/-- On a sequence of length `2^l` the transform keeps the length. -/
theorem fftStage_length_pow (rom : Nat → C64) (l : Nat) : ∀ x : List C64, x.length = 2 ^ l →
    (fftStage rom l x).length = 2 ^ l := by
  induction l with
  | zero => intro x h; simpa [fftStage] using h
  | succ l ih =>
    intro x h
    rw [fftStage, combine_length, ih _ (by rw [evens_length, h, pow_succ]; omega),
      ih _ (by rw [odds_length, h, pow_succ]; omega), Nat.min_self, pow_succ]; omega

theorem fft_length_le (rom : Nat → C64) (x : List C64) : (fft rom x).length ≤ x.length := fftStage_length _ _ _

theorem fft_length (rom : Nat → C64) (l : Nat) (x : List C64) (h : x.length = 2 ^ l) :
    (fft rom x).length = x.length := by
  rw [fft, h, Nat.log2_two_pow, fftStage_length_pow rom l x h]

@[simp] theorem fft_nil (rom : Nat → C64) : fft rom [] = [] := by simp [fft, fftStage]

@[simp] theorem maskFrom_length (lo hi : F64) (n i : Nat) (x : List C64) : (maskFrom lo hi n i x).length = x.length := by
  induction x generalizing i with
  | nil => rfl
  | cons z zs ih => simp [maskFrom, ih]

@[simp] theorem maskBins_length (lo hi : F64) (x : List C64) : (maskBins lo hi x).length = x.length :=
  maskFrom_length _ _ _ _ _

/-- A masked sequence by position (R242). -/
theorem maskFrom_getElem? (lo hi : F64) (n : Nat) (x : List C64) : ∀ i j,
    (maskFrom lo hi n i x)[j]? = x[j]?.map fun z => if keepBin lo hi n (i + j) then z else C64.zero := by
  induction x with
  | nil => intros; simp [maskFrom]
  | cons z zs ih =>
    intro i j
    rw [maskFrom]
    rcases j with _ | j
    · simp
    · simp [ih, show i + 1 + j = i + (j + 1) by omega]

theorem ifft_length_le (rom : Nat → C64) (c : Bool) (x : List C64) : (ifft rom c x).length ≤ x.length := by
  have := fft_length_le rom (x.map cconj)
  simpa [ifft] using this

theorem filterPass_length_le (rom : Nat → C64) (lo hi : F64) (c : Bool) (x : List C64) :
    (filterPass rom lo hi c x).length ≤ x.length :=
  (ifft_length_le _ _ _).trans (by simpa using fft_length_le rom x)

theorem pushSample_length (w : List F64) (s : F64) : (pushSample w s).length = w.length := by
  cases w <;> simp [pushSample]

@[simp] theorem realToComplex_length (w : List F64) : (realToComplex w).length = w.length := by simp [realToComplex]

@[simp] theorem realParts_length (x : List C64) : (realParts x).length = x.length := by simp [realParts]

end Sys2Proof
end

