-- ==== Sys2Proof/Laws/State.lean ====
section
/-! SUPPORT. Every field after every update of the state, one lemma each, true by rfl. -/

namespace Sys2Proof.Machine

variable (s : State)

@[simp] theorem State.setCR_params (z : C64) : (s.setCR z).params = s.params := rfl
@[simp] theorem State.setCR_ie (z : C64) : (s.setCR z).ie = s.ie := rfl
@[simp] theorem State.setCR_done (z : C64) : (s.setCR z).done = s.done := rfl
@[simp] theorem State.setCR_err (z : C64) : (s.setCR z).err = s.err := rfl
@[simp] theorem State.setCR_ecode (z : C64) : (s.setCR z).ecode = s.ecode := rfl
@[simp] theorem State.setCR_lastop (z : C64) : (s.setCR z).lastop = s.lastop := rfl
@[simp] theorem State.setCR_cmdword (z : C64) : (s.setCR z).cmdword = s.cmdword := rfl
@[simp] theorem State.setCR_nlen (z : C64) : (s.setCR z).nlen = s.nlen := rfl
@[simp] theorem State.setCR_bandLo (z : C64) : (s.setCR z).bandLo = s.bandLo := rfl
@[simp] theorem State.setCR_bandHi (z : C64) : (s.setCR z).bandHi = s.bandHi := rfl
@[simp] theorem State.setCR_sample (z : C64) : (s.setCR z).sample = s.sample := rfl
@[simp] theorem State.setCR_scalar (z : C64) : (s.setCR z).scalar = s.scalar := rfl
@[simp] theorem State.setCR_ca (z : C64) : (s.setCR z).ca = s.ca := rfl
@[simp] theorem State.setCR_cb (z : C64) : (s.setCR z).cb = s.cb := rfl
@[simp] theorem State.setCR_cr (z : C64) : (s.setCR z).cr = z := rfl
@[simp] theorem State.setCR_cs (z : C64) : (s.setCR z).cs = s.cs := rfl
@[simp] theorem State.setCR_twrom (z : C64) : (s.setCR z).twrom = s.twrom := rfl
@[simp] theorem State.setCR_mem (z : C64) : (s.setCR z).mem = s.mem := rfl
@[simp] theorem State.setCR_engine (z : C64) : (s.setCR z).engine = s.engine := rfl
@[simp] theorem State.setCR_rstN (z : C64) : (s.setCR z).rstN = s.rstN := rfl
@[simp] theorem State.setCR_inputs (z : C64) : (s.setCR z).inputs = s.inputs := rfl
@[simp] theorem State.setCR_resp (z : C64) : (s.setCR z).resp = s.resp := rfl
@[simp] theorem State.setCR_draws (z : C64) : (s.setCR z).draws = s.draws := rfl

@[simp] theorem State.setCS_params (z : C64) : (s.setCS z).params = s.params := rfl
@[simp] theorem State.setCS_ie (z : C64) : (s.setCS z).ie = s.ie := rfl
@[simp] theorem State.setCS_done (z : C64) : (s.setCS z).done = s.done := rfl
@[simp] theorem State.setCS_err (z : C64) : (s.setCS z).err = s.err := rfl
@[simp] theorem State.setCS_ecode (z : C64) : (s.setCS z).ecode = s.ecode := rfl
@[simp] theorem State.setCS_lastop (z : C64) : (s.setCS z).lastop = s.lastop := rfl
@[simp] theorem State.setCS_cmdword (z : C64) : (s.setCS z).cmdword = s.cmdword := rfl
@[simp] theorem State.setCS_nlen (z : C64) : (s.setCS z).nlen = s.nlen := rfl
@[simp] theorem State.setCS_bandLo (z : C64) : (s.setCS z).bandLo = s.bandLo := rfl
@[simp] theorem State.setCS_bandHi (z : C64) : (s.setCS z).bandHi = s.bandHi := rfl
@[simp] theorem State.setCS_sample (z : C64) : (s.setCS z).sample = s.sample := rfl
@[simp] theorem State.setCS_scalar (z : C64) : (s.setCS z).scalar = s.scalar := rfl
@[simp] theorem State.setCS_ca (z : C64) : (s.setCS z).ca = s.ca := rfl
@[simp] theorem State.setCS_cb (z : C64) : (s.setCS z).cb = s.cb := rfl
@[simp] theorem State.setCS_cr (z : C64) : (s.setCS z).cr = s.cr := rfl
@[simp] theorem State.setCS_cs (z : C64) : (s.setCS z).cs = z := rfl
@[simp] theorem State.setCS_twrom (z : C64) : (s.setCS z).twrom = s.twrom := rfl
@[simp] theorem State.setCS_mem (z : C64) : (s.setCS z).mem = s.mem := rfl
@[simp] theorem State.setCS_engine (z : C64) : (s.setCS z).engine = s.engine := rfl
@[simp] theorem State.setCS_rstN (z : C64) : (s.setCS z).rstN = s.rstN := rfl
@[simp] theorem State.setCS_inputs (z : C64) : (s.setCS z).inputs = s.inputs := rfl
@[simp] theorem State.setCS_resp (z : C64) : (s.setCS z).resp = s.resp := rfl
@[simp] theorem State.setCS_draws (z : C64) : (s.setCS z).draws = s.draws := rfl

@[simp] theorem State.setMem_params (m : Memory) : (s.setMem m).params = s.params := rfl
@[simp] theorem State.setMem_ie (m : Memory) : (s.setMem m).ie = s.ie := rfl
@[simp] theorem State.setMem_done (m : Memory) : (s.setMem m).done = s.done := rfl
@[simp] theorem State.setMem_err (m : Memory) : (s.setMem m).err = s.err := rfl
@[simp] theorem State.setMem_ecode (m : Memory) : (s.setMem m).ecode = s.ecode := rfl
@[simp] theorem State.setMem_lastop (m : Memory) : (s.setMem m).lastop = s.lastop := rfl
@[simp] theorem State.setMem_cmdword (m : Memory) : (s.setMem m).cmdword = s.cmdword := rfl
@[simp] theorem State.setMem_nlen (m : Memory) : (s.setMem m).nlen = s.nlen := rfl
@[simp] theorem State.setMem_bandLo (m : Memory) : (s.setMem m).bandLo = s.bandLo := rfl
@[simp] theorem State.setMem_bandHi (m : Memory) : (s.setMem m).bandHi = s.bandHi := rfl
@[simp] theorem State.setMem_sample (m : Memory) : (s.setMem m).sample = s.sample := rfl
@[simp] theorem State.setMem_scalar (m : Memory) : (s.setMem m).scalar = s.scalar := rfl
@[simp] theorem State.setMem_ca (m : Memory) : (s.setMem m).ca = s.ca := rfl
@[simp] theorem State.setMem_cb (m : Memory) : (s.setMem m).cb = s.cb := rfl
@[simp] theorem State.setMem_cr (m : Memory) : (s.setMem m).cr = s.cr := rfl
@[simp] theorem State.setMem_cs (m : Memory) : (s.setMem m).cs = s.cs := rfl
@[simp] theorem State.setMem_twrom (m : Memory) : (s.setMem m).twrom = s.twrom := rfl
@[simp] theorem State.setMem_mem (m : Memory) : (s.setMem m).mem = m := rfl
@[simp] theorem State.setMem_engine (m : Memory) : (s.setMem m).engine = s.engine := rfl
@[simp] theorem State.setMem_rstN (m : Memory) : (s.setMem m).rstN = s.rstN := rfl
@[simp] theorem State.setMem_inputs (m : Memory) : (s.setMem m).inputs = s.inputs := rfl
@[simp] theorem State.setMem_resp (m : Memory) : (s.setMem m).resp = s.resp := rfl
@[simp] theorem State.setMem_draws (m : Memory) : (s.setMem m).draws = s.draws := rfl

@[simp] theorem State.respond_params (r : BusResponse) : (s.respond r).params = s.params := rfl
@[simp] theorem State.respond_ie (r : BusResponse) : (s.respond r).ie = s.ie := rfl
@[simp] theorem State.respond_done (r : BusResponse) : (s.respond r).done = s.done := rfl
@[simp] theorem State.respond_err (r : BusResponse) : (s.respond r).err = s.err := rfl
@[simp] theorem State.respond_ecode (r : BusResponse) : (s.respond r).ecode = s.ecode := rfl
@[simp] theorem State.respond_lastop (r : BusResponse) : (s.respond r).lastop = s.lastop := rfl
@[simp] theorem State.respond_cmdword (r : BusResponse) : (s.respond r).cmdword = s.cmdword := rfl
@[simp] theorem State.respond_nlen (r : BusResponse) : (s.respond r).nlen = s.nlen := rfl
@[simp] theorem State.respond_bandLo (r : BusResponse) : (s.respond r).bandLo = s.bandLo := rfl
@[simp] theorem State.respond_bandHi (r : BusResponse) : (s.respond r).bandHi = s.bandHi := rfl
@[simp] theorem State.respond_sample (r : BusResponse) : (s.respond r).sample = s.sample := rfl
@[simp] theorem State.respond_scalar (r : BusResponse) : (s.respond r).scalar = s.scalar := rfl
@[simp] theorem State.respond_ca (r : BusResponse) : (s.respond r).ca = s.ca := rfl
@[simp] theorem State.respond_cb (r : BusResponse) : (s.respond r).cb = s.cb := rfl
@[simp] theorem State.respond_cr (r : BusResponse) : (s.respond r).cr = s.cr := rfl
@[simp] theorem State.respond_cs (r : BusResponse) : (s.respond r).cs = s.cs := rfl
@[simp] theorem State.respond_twrom (r : BusResponse) : (s.respond r).twrom = s.twrom := rfl
@[simp] theorem State.respond_mem (r : BusResponse) : (s.respond r).mem = s.mem := rfl
@[simp] theorem State.respond_engine (r : BusResponse) : (s.respond r).engine = s.engine := rfl
@[simp] theorem State.respond_rstN (r : BusResponse) : (s.respond r).rstN = s.rstN := rfl
@[simp] theorem State.respond_inputs (r : BusResponse) : (s.respond r).inputs = s.inputs := rfl
@[simp] theorem State.respond_resp (r : BusResponse) : (s.respond r).resp = some r := rfl
@[simp] theorem State.respond_draws (r : BusResponse) : (s.respond r).draws = s.draws := rfl

@[simp] theorem State.raiseError_params (e : ErrorCause) : (s.raiseError e).params = s.params := rfl
@[simp] theorem State.raiseError_ie (e : ErrorCause) : (s.raiseError e).ie = s.ie := rfl
@[simp] theorem State.raiseError_done (e : ErrorCause) : (s.raiseError e).done = s.done := rfl
@[simp] theorem State.raiseError_err (e : ErrorCause) : (s.raiseError e).err = true := rfl
@[simp] theorem State.raiseError_ecode (e : ErrorCause) : (s.raiseError e).ecode = if s.err then s.ecode else e.code := rfl
@[simp] theorem State.raiseError_lastop (e : ErrorCause) : (s.raiseError e).lastop = s.lastop := rfl
@[simp] theorem State.raiseError_cmdword (e : ErrorCause) : (s.raiseError e).cmdword = s.cmdword := rfl
@[simp] theorem State.raiseError_nlen (e : ErrorCause) : (s.raiseError e).nlen = s.nlen := rfl
@[simp] theorem State.raiseError_bandLo (e : ErrorCause) : (s.raiseError e).bandLo = s.bandLo := rfl
@[simp] theorem State.raiseError_bandHi (e : ErrorCause) : (s.raiseError e).bandHi = s.bandHi := rfl
@[simp] theorem State.raiseError_sample (e : ErrorCause) : (s.raiseError e).sample = s.sample := rfl
@[simp] theorem State.raiseError_scalar (e : ErrorCause) : (s.raiseError e).scalar = s.scalar := rfl
@[simp] theorem State.raiseError_ca (e : ErrorCause) : (s.raiseError e).ca = s.ca := rfl
@[simp] theorem State.raiseError_cb (e : ErrorCause) : (s.raiseError e).cb = s.cb := rfl
@[simp] theorem State.raiseError_cr (e : ErrorCause) : (s.raiseError e).cr = s.cr := rfl
@[simp] theorem State.raiseError_cs (e : ErrorCause) : (s.raiseError e).cs = s.cs := rfl
@[simp] theorem State.raiseError_twrom (e : ErrorCause) : (s.raiseError e).twrom = s.twrom := rfl
@[simp] theorem State.raiseError_mem (e : ErrorCause) : (s.raiseError e).mem = s.mem := rfl
@[simp] theorem State.raiseError_engine (e : ErrorCause) : (s.raiseError e).engine = s.engine := rfl
@[simp] theorem State.raiseError_rstN (e : ErrorCause) : (s.raiseError e).rstN = s.rstN := rfl
@[simp] theorem State.raiseError_inputs (e : ErrorCause) : (s.raiseError e).inputs = s.inputs := rfl
@[simp] theorem State.raiseError_resp (e : ErrorCause) : (s.raiseError e).resp = s.resp := rfl
@[simp] theorem State.raiseError_draws (e : ErrorCause) : (s.raiseError e).draws = s.draws := rfl

@[simp] theorem State.clearError_params : (s.clearError).params = s.params := rfl
@[simp] theorem State.clearError_ie : (s.clearError).ie = s.ie := rfl
@[simp] theorem State.clearError_done : (s.clearError).done = s.done := rfl
@[simp] theorem State.clearError_err : (s.clearError).err = false := rfl
@[simp] theorem State.clearError_ecode : (s.clearError).ecode = 0x00#8 := rfl
@[simp] theorem State.clearError_lastop : (s.clearError).lastop = s.lastop := rfl
@[simp] theorem State.clearError_cmdword : (s.clearError).cmdword = s.cmdword := rfl
@[simp] theorem State.clearError_nlen : (s.clearError).nlen = s.nlen := rfl
@[simp] theorem State.clearError_bandLo : (s.clearError).bandLo = s.bandLo := rfl
@[simp] theorem State.clearError_bandHi : (s.clearError).bandHi = s.bandHi := rfl
@[simp] theorem State.clearError_sample : (s.clearError).sample = s.sample := rfl
@[simp] theorem State.clearError_scalar : (s.clearError).scalar = s.scalar := rfl
@[simp] theorem State.clearError_ca : (s.clearError).ca = s.ca := rfl
@[simp] theorem State.clearError_cb : (s.clearError).cb = s.cb := rfl
@[simp] theorem State.clearError_cr : (s.clearError).cr = s.cr := rfl
@[simp] theorem State.clearError_cs : (s.clearError).cs = s.cs := rfl
@[simp] theorem State.clearError_twrom : (s.clearError).twrom = s.twrom := rfl
@[simp] theorem State.clearError_mem : (s.clearError).mem = s.mem := rfl
@[simp] theorem State.clearError_engine : (s.clearError).engine = s.engine := rfl
@[simp] theorem State.clearError_rstN : (s.clearError).rstN = s.rstN := rfl
@[simp] theorem State.clearError_inputs : (s.clearError).inputs = s.inputs := rfl
@[simp] theorem State.clearError_resp : (s.clearError).resp = s.resp := rfl
@[simp] theorem State.clearError_draws : (s.clearError).draws = s.draws := rfl

@[simp] theorem State.clearDone_params : (s.clearDone).params = s.params := rfl
@[simp] theorem State.clearDone_ie : (s.clearDone).ie = s.ie := rfl
@[simp] theorem State.clearDone_done : (s.clearDone).done = false := rfl
@[simp] theorem State.clearDone_err : (s.clearDone).err = s.err := rfl
@[simp] theorem State.clearDone_ecode : (s.clearDone).ecode = s.ecode := rfl
@[simp] theorem State.clearDone_lastop : (s.clearDone).lastop = s.lastop := rfl
@[simp] theorem State.clearDone_cmdword : (s.clearDone).cmdword = s.cmdword := rfl
@[simp] theorem State.clearDone_nlen : (s.clearDone).nlen = s.nlen := rfl
@[simp] theorem State.clearDone_bandLo : (s.clearDone).bandLo = s.bandLo := rfl
@[simp] theorem State.clearDone_bandHi : (s.clearDone).bandHi = s.bandHi := rfl
@[simp] theorem State.clearDone_sample : (s.clearDone).sample = s.sample := rfl
@[simp] theorem State.clearDone_scalar : (s.clearDone).scalar = s.scalar := rfl
@[simp] theorem State.clearDone_ca : (s.clearDone).ca = s.ca := rfl
@[simp] theorem State.clearDone_cb : (s.clearDone).cb = s.cb := rfl
@[simp] theorem State.clearDone_cr : (s.clearDone).cr = s.cr := rfl
@[simp] theorem State.clearDone_cs : (s.clearDone).cs = s.cs := rfl
@[simp] theorem State.clearDone_twrom : (s.clearDone).twrom = s.twrom := rfl
@[simp] theorem State.clearDone_mem : (s.clearDone).mem = s.mem := rfl
@[simp] theorem State.clearDone_engine : (s.clearDone).engine = s.engine := rfl
@[simp] theorem State.clearDone_rstN : (s.clearDone).rstN = s.rstN := rfl
@[simp] theorem State.clearDone_inputs : (s.clearDone).inputs = s.inputs := rfl
@[simp] theorem State.clearDone_resp : (s.clearDone).resp = s.resp := rfl
@[simp] theorem State.clearDone_draws : (s.clearDone).draws = s.draws := rfl

@[simp] theorem State.accept_params (w : BitVec 32) : (s.accept w).params = s.params := rfl
@[simp] theorem State.accept_ie (w : BitVec 32) : (s.accept w).ie = s.ie := rfl
@[simp] theorem State.accept_done (w : BitVec 32) : (s.accept w).done = false := rfl
@[simp] theorem State.accept_err (w : BitVec 32) : (s.accept w).err = s.err := rfl
@[simp] theorem State.accept_ecode (w : BitVec 32) : (s.accept w).ecode = s.ecode := rfl
@[simp] theorem State.accept_lastop (w : BitVec 32) : (s.accept w).lastop = w.extractLsb' 0 8 := rfl
@[simp] theorem State.accept_cmdword (w : BitVec 32) : (s.accept w).cmdword = s.cmdword := rfl
@[simp] theorem State.accept_nlen (w : BitVec 32) : (s.accept w).nlen = s.nlen := rfl
@[simp] theorem State.accept_bandLo (w : BitVec 32) : (s.accept w).bandLo = s.bandLo := rfl
@[simp] theorem State.accept_bandHi (w : BitVec 32) : (s.accept w).bandHi = s.bandHi := rfl
@[simp] theorem State.accept_sample (w : BitVec 32) : (s.accept w).sample = s.sample := rfl
@[simp] theorem State.accept_scalar (w : BitVec 32) : (s.accept w).scalar = s.scalar := rfl
@[simp] theorem State.accept_ca (w : BitVec 32) : (s.accept w).ca = s.ca := rfl
@[simp] theorem State.accept_cb (w : BitVec 32) : (s.accept w).cb = s.cb := rfl
@[simp] theorem State.accept_cr (w : BitVec 32) : (s.accept w).cr = s.cr := rfl
@[simp] theorem State.accept_cs (w : BitVec 32) : (s.accept w).cs = s.cs := rfl
@[simp] theorem State.accept_twrom (w : BitVec 32) : (s.accept w).twrom = s.twrom := rfl
@[simp] theorem State.accept_mem (w : BitVec 32) : (s.accept w).mem = s.mem := rfl
@[simp] theorem State.accept_engine (w : BitVec 32) : (s.accept w).engine = some ⟨w, s.nlen⟩ := rfl
@[simp] theorem State.accept_rstN (w : BitVec 32) : (s.accept w).rstN = s.rstN := rfl
@[simp] theorem State.accept_inputs (w : BitVec 32) : (s.accept w).inputs = s.inputs := rfl
@[simp] theorem State.accept_resp (w : BitVec 32) : (s.accept w).resp = s.resp := rfl
@[simp] theorem State.accept_draws (w : BitVec 32) : (s.accept w).draws = s.draws := rfl

@[simp] theorem State.finish_params : (s.finish).params = s.params := rfl
@[simp] theorem State.finish_ie : (s.finish).ie = s.ie := rfl
@[simp] theorem State.finish_done : (s.finish).done = true := rfl
@[simp] theorem State.finish_err : (s.finish).err = s.err := rfl
@[simp] theorem State.finish_ecode : (s.finish).ecode = s.ecode := rfl
@[simp] theorem State.finish_lastop : (s.finish).lastop = s.lastop := rfl
@[simp] theorem State.finish_cmdword : (s.finish).cmdword = s.cmdword := rfl
@[simp] theorem State.finish_nlen : (s.finish).nlen = s.nlen := rfl
@[simp] theorem State.finish_bandLo : (s.finish).bandLo = s.bandLo := rfl
@[simp] theorem State.finish_bandHi : (s.finish).bandHi = s.bandHi := rfl
@[simp] theorem State.finish_sample : (s.finish).sample = s.sample := rfl
@[simp] theorem State.finish_scalar : (s.finish).scalar = s.scalar := rfl
@[simp] theorem State.finish_ca : (s.finish).ca = s.ca := rfl
@[simp] theorem State.finish_cb : (s.finish).cb = s.cb := rfl
@[simp] theorem State.finish_cr : (s.finish).cr = s.cr := rfl
@[simp] theorem State.finish_cs : (s.finish).cs = s.cs := rfl
@[simp] theorem State.finish_twrom : (s.finish).twrom = s.twrom := rfl
@[simp] theorem State.finish_mem : (s.finish).mem = s.mem := rfl
@[simp] theorem State.finish_engine : (s.finish).engine = none := rfl
@[simp] theorem State.finish_rstN : (s.finish).rstN = s.rstN := rfl
@[simp] theorem State.finish_inputs : (s.finish).inputs = s.inputs := rfl
@[simp] theorem State.finish_resp : (s.finish).resp = s.resp := rfl
@[simp] theorem State.finish_draws : (s.finish).draws = s.draws := rfl

@[simp] theorem State.turnAway_params (e : ErrorCause) : (s.turnAway e).params = s.params := rfl
@[simp] theorem State.turnAway_ie (e : ErrorCause) : (s.turnAway e).ie = s.ie := rfl
@[simp] theorem State.turnAway_done (e : ErrorCause) : (s.turnAway e).done = s.done := rfl
@[simp] theorem State.turnAway_err (e : ErrorCause) : (s.turnAway e).err = true := rfl
@[simp] theorem State.turnAway_ecode (e : ErrorCause) : (s.turnAway e).ecode = if s.err then s.ecode else e.code := rfl
@[simp] theorem State.turnAway_lastop (e : ErrorCause) : (s.turnAway e).lastop = s.lastop := rfl
@[simp] theorem State.turnAway_cmdword (e : ErrorCause) : (s.turnAway e).cmdword = s.cmdword := rfl
@[simp] theorem State.turnAway_nlen (e : ErrorCause) : (s.turnAway e).nlen = s.nlen := rfl
@[simp] theorem State.turnAway_bandLo (e : ErrorCause) : (s.turnAway e).bandLo = s.bandLo := rfl
@[simp] theorem State.turnAway_bandHi (e : ErrorCause) : (s.turnAway e).bandHi = s.bandHi := rfl
@[simp] theorem State.turnAway_sample (e : ErrorCause) : (s.turnAway e).sample = s.sample := rfl
@[simp] theorem State.turnAway_scalar (e : ErrorCause) : (s.turnAway e).scalar = s.scalar := rfl
@[simp] theorem State.turnAway_ca (e : ErrorCause) : (s.turnAway e).ca = s.ca := rfl
@[simp] theorem State.turnAway_cb (e : ErrorCause) : (s.turnAway e).cb = s.cb := rfl
@[simp] theorem State.turnAway_cr (e : ErrorCause) : (s.turnAway e).cr = s.cr := rfl
@[simp] theorem State.turnAway_cs (e : ErrorCause) : (s.turnAway e).cs = s.cs := rfl
@[simp] theorem State.turnAway_twrom (e : ErrorCause) : (s.turnAway e).twrom = s.twrom := rfl
@[simp] theorem State.turnAway_mem (e : ErrorCause) : (s.turnAway e).mem = s.mem := rfl
@[simp] theorem State.turnAway_engine (e : ErrorCause) : (s.turnAway e).engine = none := rfl
@[simp] theorem State.turnAway_rstN (e : ErrorCause) : (s.turnAway e).rstN = s.rstN := rfl
@[simp] theorem State.turnAway_inputs (e : ErrorCause) : (s.turnAway e).inputs = s.inputs := rfl
@[simp] theorem State.turnAway_resp (e : ErrorCause) : (s.turnAway e).resp = s.resp := rfl
@[simp] theorem State.turnAway_draws (e : ErrorCause) : (s.turnAway e).draws = s.draws := rfl

@[simp] theorem State.softReset_params : (s.softReset).params = s.params := rfl
@[simp] theorem State.softReset_ie : (s.softReset).ie = false := rfl
@[simp] theorem State.softReset_done : (s.softReset).done = false := rfl
@[simp] theorem State.softReset_err : (s.softReset).err = false := rfl
@[simp] theorem State.softReset_ecode : (s.softReset).ecode = 0x00#8 := rfl
@[simp] theorem State.softReset_lastop : (s.softReset).lastop = 0x00#8 := rfl
@[simp] theorem State.softReset_cmdword : (s.softReset).cmdword = 0x00000000#32 := rfl
@[simp] theorem State.softReset_nlen : (s.softReset).nlen = 0#16 := rfl
@[simp] theorem State.softReset_bandLo : (s.softReset).bandLo = F64.zero := rfl
@[simp] theorem State.softReset_bandHi : (s.softReset).bandHi = F64.zero := rfl
@[simp] theorem State.softReset_sample : (s.softReset).sample = F64.zero := rfl
@[simp] theorem State.softReset_scalar : (s.softReset).scalar = F64.zero := rfl
@[simp] theorem State.softReset_ca : (s.softReset).ca = C64.zero := rfl
@[simp] theorem State.softReset_cb : (s.softReset).cb = C64.zero := rfl
@[simp] theorem State.softReset_cr : (s.softReset).cr = C64.zero := rfl
@[simp] theorem State.softReset_cs : (s.softReset).cs = C64.zero := rfl
@[simp] theorem State.softReset_twrom : (s.softReset).twrom = s.twrom := rfl
@[simp] theorem State.softReset_mem : (s.softReset).mem = s.abandonedMem := rfl
@[simp] theorem State.softReset_engine : (s.softReset).engine = none := rfl
@[simp] theorem State.softReset_rstN : (s.softReset).rstN = s.rstN := rfl
@[simp] theorem State.softReset_inputs : (s.softReset).inputs = s.inputs := rfl
@[simp] theorem State.softReset_resp : (s.softReset).resp = s.resp := rfl
@[simp] theorem State.softReset_draws : (s.softReset).draws = s.draws := rfl

@[simp] theorem State.powerDown_params : (s.powerDown).params = s.params := rfl
@[simp] theorem State.powerDown_ie : (s.powerDown).ie = false := rfl
@[simp] theorem State.powerDown_done : (s.powerDown).done = false := rfl
@[simp] theorem State.powerDown_err : (s.powerDown).err = false := rfl
@[simp] theorem State.powerDown_ecode : (s.powerDown).ecode = 0x00#8 := rfl
@[simp] theorem State.powerDown_lastop : (s.powerDown).lastop = 0x00#8 := rfl
@[simp] theorem State.powerDown_cmdword : (s.powerDown).cmdword = 0x00000000#32 := rfl
@[simp] theorem State.powerDown_nlen : (s.powerDown).nlen = 0#16 := rfl
@[simp] theorem State.powerDown_bandLo : (s.powerDown).bandLo = F64.zero := rfl
@[simp] theorem State.powerDown_bandHi : (s.powerDown).bandHi = F64.zero := rfl
@[simp] theorem State.powerDown_sample : (s.powerDown).sample = F64.zero := rfl
@[simp] theorem State.powerDown_scalar : (s.powerDown).scalar = F64.zero := rfl
@[simp] theorem State.powerDown_ca : (s.powerDown).ca = C64.zero := rfl
@[simp] theorem State.powerDown_cb : (s.powerDown).cb = C64.zero := rfl
@[simp] theorem State.powerDown_cr : (s.powerDown).cr = C64.zero := rfl
@[simp] theorem State.powerDown_cs : (s.powerDown).cs = C64.zero := rfl
@[simp] theorem State.powerDown_twrom : (s.powerDown).twrom = s.twrom := rfl
@[simp] theorem State.powerDown_mem : (s.powerDown).mem = [] := rfl
@[simp] theorem State.powerDown_engine : (s.powerDown).engine = none := rfl
@[simp] theorem State.powerDown_rstN : (s.powerDown).rstN = false := rfl
@[simp] theorem State.powerDown_inputs : (s.powerDown).inputs = s.inputs := rfl
@[simp] theorem State.powerDown_resp : (s.powerDown).resp = s.resp := rfl
@[simp] theorem State.powerDown_draws : (s.powerDown).draws = s.draws := rfl

@[simp] theorem State.powerUp_params : (s.powerUp).params = s.params := rfl
@[simp] theorem State.powerUp_ie : (s.powerUp).ie = s.ie := rfl
@[simp] theorem State.powerUp_done : (s.powerUp).done = s.done := rfl
@[simp] theorem State.powerUp_err : (s.powerUp).err = s.err := rfl
@[simp] theorem State.powerUp_ecode : (s.powerUp).ecode = s.ecode := rfl
@[simp] theorem State.powerUp_lastop : (s.powerUp).lastop = s.lastop := rfl
@[simp] theorem State.powerUp_cmdword : (s.powerUp).cmdword = s.cmdword := rfl
@[simp] theorem State.powerUp_nlen : (s.powerUp).nlen = s.nlen := rfl
@[simp] theorem State.powerUp_bandLo : (s.powerUp).bandLo = s.bandLo := rfl
@[simp] theorem State.powerUp_bandHi : (s.powerUp).bandHi = s.bandHi := rfl
@[simp] theorem State.powerUp_sample : (s.powerUp).sample = s.sample := rfl
@[simp] theorem State.powerUp_scalar : (s.powerUp).scalar = s.scalar := rfl
@[simp] theorem State.powerUp_ca : (s.powerUp).ca = s.ca := rfl
@[simp] theorem State.powerUp_cb : (s.powerUp).cb = s.cb := rfl
@[simp] theorem State.powerUp_cr : (s.powerUp).cr = s.cr := rfl
@[simp] theorem State.powerUp_cs : (s.powerUp).cs = s.cs := rfl
@[simp] theorem State.powerUp_twrom : (s.powerUp).twrom = s.twrom := rfl
@[simp] theorem State.powerUp_mem : (s.powerUp).mem = s.mem := rfl
@[simp] theorem State.powerUp_engine : (s.powerUp).engine = s.engine := rfl
@[simp] theorem State.powerUp_rstN : (s.powerUp).rstN = true := rfl
@[simp] theorem State.powerUp_inputs : (s.powerUp).inputs = s.inputs := rfl
@[simp] theorem State.powerUp_resp : (s.powerUp).resp = s.resp := rfl
@[simp] theorem State.powerUp_draws : (s.powerUp).draws = s.draws := rfl

@[simp] theorem State.putX_params (x : List C64) : (s.putX x).params = s.params := rfl
@[simp] theorem State.putX_ie (x : List C64) : (s.putX x).ie = s.ie := rfl
@[simp] theorem State.putX_done (x : List C64) : (s.putX x).done = s.done := rfl
@[simp] theorem State.putX_err (x : List C64) : (s.putX x).err = s.err := rfl
@[simp] theorem State.putX_ecode (x : List C64) : (s.putX x).ecode = s.ecode := rfl
@[simp] theorem State.putX_lastop (x : List C64) : (s.putX x).lastop = s.lastop := rfl
@[simp] theorem State.putX_cmdword (x : List C64) : (s.putX x).cmdword = s.cmdword := rfl
@[simp] theorem State.putX_nlen (x : List C64) : (s.putX x).nlen = s.nlen := rfl
@[simp] theorem State.putX_bandLo (x : List C64) : (s.putX x).bandLo = s.bandLo := rfl
@[simp] theorem State.putX_bandHi (x : List C64) : (s.putX x).bandHi = s.bandHi := rfl
@[simp] theorem State.putX_sample (x : List C64) : (s.putX x).sample = s.sample := rfl
@[simp] theorem State.putX_scalar (x : List C64) : (s.putX x).scalar = s.scalar := rfl
@[simp] theorem State.putX_ca (x : List C64) : (s.putX x).ca = s.ca := rfl
@[simp] theorem State.putX_cb (x : List C64) : (s.putX x).cb = s.cb := rfl
@[simp] theorem State.putX_cr (x : List C64) : (s.putX x).cr = s.cr := rfl
@[simp] theorem State.putX_cs (x : List C64) : (s.putX x).cs = s.cs := rfl
@[simp] theorem State.putX_twrom (x : List C64) : (s.putX x).twrom = s.twrom := rfl
@[simp] theorem State.putX_mem (x : List C64) : (s.putX x).mem = writeC64s s.mem xBase x := rfl
@[simp] theorem State.putX_engine (x : List C64) : (s.putX x).engine = s.engine := rfl
@[simp] theorem State.putX_rstN (x : List C64) : (s.putX x).rstN = s.rstN := rfl
@[simp] theorem State.putX_inputs (x : List C64) : (s.putX x).inputs = s.inputs := rfl
@[simp] theorem State.putX_resp (x : List C64) : (s.putX x).resp = s.resp := rfl
@[simp] theorem State.putX_draws (x : List C64) : (s.putX x).draws = s.draws := rfl

@[simp] theorem State.putOut_params (x : List F64) : (s.putOut x).params = s.params := rfl
@[simp] theorem State.putOut_ie (x : List F64) : (s.putOut x).ie = s.ie := rfl
@[simp] theorem State.putOut_done (x : List F64) : (s.putOut x).done = s.done := rfl
@[simp] theorem State.putOut_err (x : List F64) : (s.putOut x).err = s.err := rfl
@[simp] theorem State.putOut_ecode (x : List F64) : (s.putOut x).ecode = s.ecode := rfl
@[simp] theorem State.putOut_lastop (x : List F64) : (s.putOut x).lastop = s.lastop := rfl
@[simp] theorem State.putOut_cmdword (x : List F64) : (s.putOut x).cmdword = s.cmdword := rfl
@[simp] theorem State.putOut_nlen (x : List F64) : (s.putOut x).nlen = s.nlen := rfl
@[simp] theorem State.putOut_bandLo (x : List F64) : (s.putOut x).bandLo = s.bandLo := rfl
@[simp] theorem State.putOut_bandHi (x : List F64) : (s.putOut x).bandHi = s.bandHi := rfl
@[simp] theorem State.putOut_sample (x : List F64) : (s.putOut x).sample = s.sample := rfl
@[simp] theorem State.putOut_scalar (x : List F64) : (s.putOut x).scalar = s.scalar := rfl
@[simp] theorem State.putOut_ca (x : List F64) : (s.putOut x).ca = s.ca := rfl
@[simp] theorem State.putOut_cb (x : List F64) : (s.putOut x).cb = s.cb := rfl
@[simp] theorem State.putOut_cr (x : List F64) : (s.putOut x).cr = s.cr := rfl
@[simp] theorem State.putOut_cs (x : List F64) : (s.putOut x).cs = s.cs := rfl
@[simp] theorem State.putOut_twrom (x : List F64) : (s.putOut x).twrom = s.twrom := rfl
@[simp] theorem State.putOut_mem (x : List F64) : (s.putOut x).mem = writeF64s s.mem outBase x := rfl
@[simp] theorem State.putOut_engine (x : List F64) : (s.putOut x).engine = s.engine := rfl
@[simp] theorem State.putOut_rstN (x : List F64) : (s.putOut x).rstN = s.rstN := rfl
@[simp] theorem State.putOut_inputs (x : List F64) : (s.putOut x).inputs = s.inputs := rfl
@[simp] theorem State.putOut_resp (x : List F64) : (s.putOut x).resp = s.resp := rfl
@[simp] theorem State.putOut_draws (x : List F64) : (s.putOut x).draws = s.draws := rfl

@[simp] theorem State.putWin_params (x : List F64) : (s.putWin x).params = s.params := rfl
@[simp] theorem State.putWin_ie (x : List F64) : (s.putWin x).ie = s.ie := rfl
@[simp] theorem State.putWin_done (x : List F64) : (s.putWin x).done = s.done := rfl
@[simp] theorem State.putWin_err (x : List F64) : (s.putWin x).err = s.err := rfl
@[simp] theorem State.putWin_ecode (x : List F64) : (s.putWin x).ecode = s.ecode := rfl
@[simp] theorem State.putWin_lastop (x : List F64) : (s.putWin x).lastop = s.lastop := rfl
@[simp] theorem State.putWin_cmdword (x : List F64) : (s.putWin x).cmdword = s.cmdword := rfl
@[simp] theorem State.putWin_nlen (x : List F64) : (s.putWin x).nlen = s.nlen := rfl
@[simp] theorem State.putWin_bandLo (x : List F64) : (s.putWin x).bandLo = s.bandLo := rfl
@[simp] theorem State.putWin_bandHi (x : List F64) : (s.putWin x).bandHi = s.bandHi := rfl
@[simp] theorem State.putWin_sample (x : List F64) : (s.putWin x).sample = s.sample := rfl
@[simp] theorem State.putWin_scalar (x : List F64) : (s.putWin x).scalar = s.scalar := rfl
@[simp] theorem State.putWin_ca (x : List F64) : (s.putWin x).ca = s.ca := rfl
@[simp] theorem State.putWin_cb (x : List F64) : (s.putWin x).cb = s.cb := rfl
@[simp] theorem State.putWin_cr (x : List F64) : (s.putWin x).cr = s.cr := rfl
@[simp] theorem State.putWin_cs (x : List F64) : (s.putWin x).cs = s.cs := rfl
@[simp] theorem State.putWin_twrom (x : List F64) : (s.putWin x).twrom = s.twrom := rfl
@[simp] theorem State.putWin_mem (x : List F64) : (s.putWin x).mem = writeF64s s.mem winBase x := rfl
@[simp] theorem State.putWin_engine (x : List F64) : (s.putWin x).engine = s.engine := rfl
@[simp] theorem State.putWin_rstN (x : List F64) : (s.putWin x).rstN = s.rstN := rfl
@[simp] theorem State.putWin_inputs (x : List F64) : (s.putWin x).inputs = s.inputs := rfl
@[simp] theorem State.putWin_resp (x : List F64) : (s.putWin x).resp = s.resp := rfl
@[simp] theorem State.putWin_draws (x : List F64) : (s.putWin x).draws = s.draws := rfl

end Sys2Proof.Machine
end

