-- ==== Sys2Proof/Laws/Exec.lean ====
section
/-! SUPPORT. What the completion steps can do: the shape of the state they answer, and for each shared
operation the one thing it does when it does not stop. -/

namespace Sys2Proof.Machine

/-- `seqCommand` turns the command away or runs it with its length. -/
theorem seqCommand_eq (s : State) (k : Nat → Result) :
    (invalidN s.params s.cmdLen = true ∧ s.seqCommand k = .next (s.turnAway .badLength)) ∨
    (invalidN s.params s.cmdLen = false ∧ s.seqCommand k = k s.cmdLen.toNat) := by
  unfold State.seqCommand
  cases invalidN s.params s.cmdLen <;> simp

/-- `twCommand` turns the command away or runs it with its twiddle. -/
theorem twCommand_eq (s : State) (l : BitVec 4) (j : BitVec 16) (k : C64 → Result) :
    (invalidTW s.params l j = true ∧ s.twCommand l j k = .next (s.turnAway .badTwiddle)) ∨
    (invalidTW s.params l j = false ∧ s.twCommand l j k = k (twAcc s.rom l.toNat j.toNat)) := by
  unfold State.twCommand
  cases invalidTW s.params l j <;> simp

/-- `withX` runs on the elements read, and otherwise faults. -/
theorem withX_eq (s : State) (n : Nat) (k : List C64 → Result) :
    (∃ x, readC64s s.mem xBase n = some x ∧ s.withX n k = k x) ∨
    (readC64s s.mem xBase n = none ∧ s.withX n k = .fault .unwrittenOperand) := by
  unfold State.withX
  cases readC64s s.mem xBase n <;> simp

/-- `withXRe` runs on the real parts read, and otherwise faults. -/
theorem withXRe_eq (s : State) (n : Nat) (k : List F64 → Result) :
    (∃ x, readF64s s.mem 16 xBase n = some x ∧ s.withXRe n k = k x) ∨
    (readF64s s.mem 16 xBase n = none ∧ s.withXRe n k = .fault .unwrittenOperand) := by
  unfold State.withXRe
  cases readF64s s.mem 16 xBase n <;> simp

/-- `withWin` runs on the samples read, and otherwise faults. -/
theorem withWin_eq (s : State) (n : Nat) (k : List F64 → Result) :
    (∃ w, readF64s s.mem 8 winBase n = some w ∧ s.withWin n k = k w) ∨
    (readF64s s.mem 8 winBase n = none ∧ s.withWin n k = .fault .unwrittenOperand) := by
  unfold State.withWin
  cases readF64s s.mem 8 winBase n <;> simp

/-- What makes each buffer operand, and so each sequence command that has passed its check, fault. -/
theorem withX_fault_iff (s : State) (n : Nat) (k : List C64 → Result) (f : Fault) (hk : ∀ x, k x ≠ .fault f) :
    s.withX n k = .fault f ↔ f = .unwrittenOperand ∧ readC64s s.mem xBase n = none := by
  rcases withX_eq s n k with ⟨x, hx, e⟩ | ⟨hx, e⟩ <;> rw [e]
  · simp [hk, hx]
  · simp [hx, eq_comm]

theorem withXRe_fault_iff (s : State) (n : Nat) (k : List F64 → Result) (f : Fault) (hk : ∀ x, k x ≠ .fault f) :
    s.withXRe n k = .fault f ↔ f = .unwrittenOperand ∧ readF64s s.mem 16 xBase n = none := by
  rcases withXRe_eq s n k with ⟨x, hx, e⟩ | ⟨hx, e⟩ <;> rw [e]
  · simp [hk, hx]
  · simp [hx, eq_comm]

theorem withWin_fault_iff (s : State) (n : Nat) (k : List F64 → Result) (f : Fault) (hk : ∀ x, k x ≠ .fault f) :
    s.withWin n k = .fault f ↔ f = .unwrittenOperand ∧ readF64s s.mem 8 winBase n = none := by
  rcases withWin_eq s n k with ⟨x, hx, e⟩ | ⟨hx, e⟩ <;> rw [e]
  · simp [hk, hx]
  · simp [hx, eq_comm]

theorem seqCommand_fault_iff (s : State) (k : Nat → Result) (f : Fault) :
    s.seqCommand k = .fault f ↔ invalidN s.params s.cmdLen = false ∧ k s.cmdLen.toNat = .fault f := by
  rcases seqCommand_eq s k with ⟨hv, e⟩ | ⟨hv, e⟩ <;> simp [hv, e]

theorem twCommand_not_fault (s : State) (l : BitVec 4) (j : BitVec 16) (k : C64 → Result) (f : Fault)
    (hk : ∀ w, k w ≠ .fault f) : s.twCommand l j k ≠ .fault f := by
  rcases twCommand_eq s l j k with ⟨_, e⟩ | ⟨_, e⟩ <;> simp [e, hk]

/-- A sequence command that answers a next state was turned away for its length, or ran. -/
theorem seqCommand_next {s t : State} {k : Nat → Result} (h : s.seqCommand k = .next t) :
    (invalidN s.params s.cmdLen = true ∧ t = s.turnAway .badLength) ∨
    (invalidN s.params s.cmdLen = false ∧ k s.cmdLen.toNat = .next t) := by
  rcases seqCommand_eq s k with ⟨hv, e⟩ | ⟨hv, e⟩
  · exact .inl ⟨hv, by rw [e] at h; exact (Host.Outcome.next.inj h).symm⟩
  · exact .inr ⟨hv, e ▸ h⟩

/-- The same for a twiddle command. -/
theorem twCommand_next {s t : State} {l : BitVec 4} {j : BitVec 16} {k : C64 → Result}
    (h : s.twCommand l j k = .next t) :
    (invalidTW s.params l j = true ∧ t = s.turnAway .badTwiddle) ∨
    (invalidTW s.params l j = false ∧ k (twAcc s.rom l.toNat j.toNat) = .next t) := by
  rcases twCommand_eq s l j k with ⟨hv, e⟩ | ⟨hv, e⟩
  · exact .inl ⟨hv, by rw [e] at h; exact (Host.Outcome.next.inj h).symm⟩
  · exact .inr ⟨hv, e ▸ h⟩

theorem withX_next {s t : State} {n : Nat} {k : List C64 → Result} (h : s.withX n k = .next t) :
    ∃ x, readC64s s.mem xBase n = some x ∧ k x = .next t := by
  rcases withX_eq s n k with ⟨x, hx, e⟩ | ⟨_, e⟩
  · exact ⟨x, hx, e ▸ h⟩
  · rw [e] at h; cases h

theorem withXRe_next {s t : State} {n : Nat} {k : List F64 → Result} (h : s.withXRe n k = .next t) :
    ∃ x, readF64s s.mem 16 xBase n = some x ∧ k x = .next t := by
  rcases withXRe_eq s n k with ⟨x, hx, e⟩ | ⟨_, e⟩
  · exact ⟨x, hx, e ▸ h⟩
  · rw [e] at h; cases h

theorem withWin_next {s t : State} {n : Nat} {k : List F64 → Result} (h : s.withWin n k = .next t) :
    ∃ w, readF64s s.mem 8 winBase n = some w ∧ k w = .next t := by
  rcases withWin_eq s n k with ⟨x, hx, e⟩ | ⟨_, e⟩
  · exact ⟨x, hx, e ▸ h⟩
  · rw [e] at h; cases h

/-- What a completion step can write to the buffers at length `n`, of the command's destinations (R343). -/
inductive BufferWrite (m : Memory) (n : Nat) : Memory → Prop where
  | none : BufferWrite m n m
  | x (z : List C64) (hz : z.length ≤ n) : BufferWrite m n (writeC64s m xBase z)
  | xOut (z : List C64) (r : List F64) (hz : z.length ≤ n) (hr : r.length ≤ n) :
      BufferWrite m n (writeF64s (writeC64s m xBase z) outBase r)
  | out (r : List F64) (hr : r.length ≤ n) : BufferWrite m n (writeF64s m outBase r)
  | win (w : List F64) (hw : w.length ≤ n) : BufferWrite m n (writeF64s m winBase w)

theorem cmdLen_le_nMax {p : Params} {n : BitVec 16} (h : invalidN p n = false) : n.toNat ≤ p.nMax := by
  unfold invalidN at h
  rcases eq_or_ne n 0#16 with rfl | hn
  · simp
  · simp [hn] at h; omega

theorem commandError_seq {p : Params} {n : BitVec 16} {i : Instr} (h : i.format = .seq ∨ i.format = .seqc) :
    commandError p n i = if invalidN p n then some .badLength else none := by
  rcases h with h | h <;> simp [commandError, h]

/-- What a command's completion step can answer: turned away with the error of its 4th or 5th check, or
finished, with CR, CS and its destinations written and nothing else. -/
theorem exec_next {i : Instr} {s t : State} (h : exec i s = .next t) :
    (∃ e, commandError s.params s.cmdLen i = some e ∧ t = s.turnAway e) ∨
    (commandError s.params s.cmdLen i = none ∧ ∃ m cr cs, BufferWrite s.mem s.cmdLen.toNat m ∧
      (m = s.mem ∨ s.cmdLen.toNat ≤ s.params.nMax) ∧
      t = { s with mem := m, cr := cr, cs := cs, engine := none, done := true }) := by
  have op : ∀ {z}, commandError s.params s.cmdLen i = none → s.finishCR z = .next t →
      (∃ e, commandError s.params s.cmdLen i = some e ∧ t = s.turnAway e) ∨
      (commandError s.params s.cmdLen i = none ∧ ∃ m cr cs, BufferWrite s.mem s.cmdLen.toNat m ∧
        (m = s.mem ∨ s.cmdLen.toNat ≤ s.params.nMax) ∧
        t = { s with mem := m, cr := cr, cs := cs, engine := none, done := true }) := by
    intro z hc hz
    cases hz
    exact .inr ⟨hc, s.mem, z, s.cs, .none, .inl rfl, rfl⟩
  have seq : ∀ {k}, i.format = .seq ∨ i.format = .seqc → s.seqCommand k = .next t →
      (invalidN s.params s.cmdLen = false → k s.cmdLen.toNat = .next t →
        ∃ m, BufferWrite s.mem s.cmdLen.toNat m ∧ t = (s.setMem m).finish) →
      (∃ e, commandError s.params s.cmdLen i = some e ∧ t = s.turnAway e) ∨
      (commandError s.params s.cmdLen i = none ∧ ∃ m cr cs, BufferWrite s.mem s.cmdLen.toNat m ∧
        (m = s.mem ∨ s.cmdLen.toNat ≤ s.params.nMax) ∧
        t = { s with mem := m, cr := cr, cs := cs, engine := none, done := true }) := by
    intro k hf hk hm
    rcases seqCommand_next hk with ⟨hv, ht⟩ | ⟨hv, hk⟩
    · exact .inl ⟨.badLength, by rw [commandError_seq hf, hv]; rfl, ht⟩
    · obtain ⟨m, hw, ht⟩ := hm hv hk
      exact .inr ⟨by rw [commandError_seq hf, hv]; rfl, m, s.cr, s.cs, hw, .inr (cmdLen_le_nMax hv), ht⟩
  have tw : ∀ {l j k}, i.format = .tw → i.stage = l → i.index = j → s.twCommand l j k = .next t →
      (∀ w, k w = .next t → ∃ cr cs, t = { s with cr := cr, cs := cs, engine := none, done := true }) →
      (∃ e, commandError s.params s.cmdLen i = some e ∧ t = s.turnAway e) ∨
      (commandError s.params s.cmdLen i = none ∧ ∃ m cr cs, BufferWrite s.mem s.cmdLen.toNat m ∧
        (m = s.mem ∨ s.cmdLen.toNat ≤ s.params.nMax) ∧
        t = { s with mem := m, cr := cr, cs := cs, engine := none, done := true }) := by
    intro l j k hf hl hj hk hm
    rcases twCommand_next hk with ⟨hv, ht⟩ | ⟨hv, hk⟩
    · exact .inl ⟨.badTwiddle, by simp [commandError, hf, hl, hj, hv], ht⟩
    · obtain ⟨cr, cs, ht⟩ := hm _ hk
      exact .inr ⟨by simp [commandError, hf, hl, hj, hv], s.mem, cr, cs, .none, .inl rfl, ht⟩
  have xs : ∀ {x n}, readC64s s.mem xBase n = some x → x.length = n :=
    fun hx => ((readC64s_eq_some_iff _ _ _ _).1 hx).1
  have fs : ∀ {x st a n}, readF64s s.mem st a n = some x → x.length = n :=
    fun hx => ((readF64s_eq_some_iff _ _ _ _ _).1 hx).1
  cases i with
  | nop => cases h; exact .inr ⟨rfl, s.mem, s.cr, s.cs, .none, .inl rfl, rfl⟩
  | cadd | csub | cmul | cdivr | cconj | cmag | cphase => exact op rfl h
  | twgen l j =>
    simp only [exec, execTwgen] at h
    exact tw rfl rfl rfl h fun w hw => by cases hw; exact ⟨_, _, rfl⟩
  | ctwmul l j =>
    simp only [exec, execCtwmul] at h
    exact tw rfl rfl rfl h fun w hw => by cases hw; exact ⟨_, _, rfl⟩
  | bfly l j =>
    simp only [exec, execBfly] at h
    exact tw rfl rfl rfl h fun w hw => by cases hw; exact ⟨_, _, rfl⟩
  | fft =>
    simp only [exec, execFft] at h
    refine seq (.inl rfl) h fun _ hk => ?_
    obtain ⟨x, hx, hk⟩ := withX_next hk
    cases hk
    exact ⟨_, .x _ ((fft_length_le _ _).trans (xs hx).le), rfl⟩
  | ifft c =>
    simp only [exec, execIfft] at h
    refine seq (.inr rfl) h fun _ hk => ?_
    obtain ⟨x, hx, hk⟩ := withX_next hk
    cases hk
    exact ⟨_, .x _ ((ifft_length_le _ _ _).trans (xs hx).le), rfl⟩
  | bpmask =>
    simp only [exec, execBpmask] at h
    refine seq (.inl rfl) h fun _ hk => ?_
    obtain ⟨x, hx, hk⟩ := withX_next hk
    cases hk
    exact ⟨_, .x _ (by simp [xs hx]), rfl⟩
  | filter c =>
    simp only [exec, execFilter] at h
    refine seq (.inr rfl) h fun _ hk => ?_
    obtain ⟨x, hx, hk⟩ := withX_next hk
    cases hk
    have hl := (filterPass_length_le s.rom s.bandLo s.bandHi c x).trans (xs hx).le
    exact ⟨_, .xOut _ _ hl (by simpa using hl), rfl⟩
  | r2c =>
    simp only [exec, execR2c] at h
    refine seq (.inl rfl) h fun _ hk => ?_
    obtain ⟨x, hx, hk⟩ := withWin_next hk
    cases hk
    exact ⟨_, .x _ (by simp [fs hx]), rfl⟩
  | c2r =>
    simp only [exec, execC2r] at h
    refine seq (.inl rfl) h fun _ hk => ?_
    obtain ⟨x, hx, hk⟩ := withXRe_next hk
    cases hk
    exact ⟨_, .out _ (fs hx).le, rfl⟩
  | denoise c =>
    simp only [exec, execDenoise] at h
    refine seq (.inr rfl) h fun _ hk => ?_
    obtain ⟨x, hx, hk⟩ := withWin_next hk
    cases hk
    have hl := filterPass_length_le s.rom s.bandLo s.bandHi c (realToComplex x)
    rw [realToComplex_length, fs hx] at hl
    exact ⟨_, .xOut _ _ hl (by simpa using hl), rfl⟩
  | wpush =>
    simp only [exec, execWpush] at h
    refine seq (.inl rfl) h fun _ hk => ?_
    obtain ⟨x, hx, hk⟩ := withWin_next hk
    cases hk
    exact ⟨_, .win _ (by rw [pushSample_length, fs hx]), rfl⟩

/-- A completion step never refuses. -/
theorem exec_not_refused (i : Instr) (s : State) (r : Refusal) : exec i s ≠ .refused r := by
  have hx : ∀ n k, (∀ x, k x ≠ .refused r) → s.withX n k ≠ .refused r := fun n k hk h => by
    rcases withX_eq s n k with ⟨x, _, e⟩ | ⟨_, e⟩ <;> rw [e] at h
    · exact hk _ h
    · cases h
  have hxr : ∀ n k, (∀ x, k x ≠ .refused r) → s.withXRe n k ≠ .refused r := fun n k hk h => by
    rcases withXRe_eq s n k with ⟨x, _, e⟩ | ⟨_, e⟩ <;> rw [e] at h
    · exact hk _ h
    · cases h
  have hw : ∀ n k, (∀ x, k x ≠ .refused r) → s.withWin n k ≠ .refused r := fun n k hk h => by
    rcases withWin_eq s n k with ⟨x, _, e⟩ | ⟨_, e⟩ <;> rw [e] at h
    · exact hk _ h
    · cases h
  have hs : ∀ k, (∀ n, k n ≠ .refused r) → s.seqCommand k ≠ .refused r := fun k hk h => by
    rcases seqCommand_eq s k with ⟨_, e⟩ | ⟨_, e⟩ <;> rw [e] at h
    · cases h
    · exact hk _ h
  have ht : ∀ l j k, (∀ w, k w ≠ .refused r) → s.twCommand l j k ≠ .refused r := fun l j k hk h => by
    rcases twCommand_eq s l j k with ⟨_, e⟩ | ⟨_, e⟩ <;> rw [e] at h
    · cases h
    · exact hk _ h
  cases i with
  | nop | cadd | csub | cmul | cdivr | cconj | cmag | cphase => intro h; cases h
  | twgen l j =>
    simp only [exec, execTwgen]
    exact ht _ _ _ fun w h => by cases h
  | ctwmul l j =>
    simp only [exec, execCtwmul]
    exact ht _ _ _ fun w h => by cases h
  | bfly l j =>
    simp only [exec, execBfly]
    exact ht _ _ _ fun w h => by cases h
  | fft =>
    simp only [exec, execFft]
    exact hs _ fun n => hx _ _ fun x h => by cases h
  | ifft c =>
    simp only [exec, execIfft]
    exact hs _ fun n => hx _ _ fun x h => by cases h
  | bpmask =>
    simp only [exec, execBpmask]
    exact hs _ fun n => hx _ _ fun x h => by cases h
  | filter c =>
    simp only [exec, execFilter]
    exact hs _ fun n => hx _ _ fun x h => by cases h
  | r2c =>
    simp only [exec, execR2c]
    exact hs _ fun n => hw _ _ fun x h => by cases h
  | c2r =>
    simp only [exec, execC2r]
    exact hs _ fun n => hxr _ _ fun x h => by cases h
  | denoise c =>
    simp only [exec, execDenoise]
    exact hs _ fun n => hw _ _ fun x h => by cases h
  | wpush =>
    simp only [exec, execWpush]
    exact hs _ fun n => hw _ _ fun x h => by cases h

end Sys2Proof.Machine
end

