-- ==== Sys2Proof/Laws/Step.lean ====
section
/-! SUPPORT. What a step can do: one inversion lemma for presenting a command, for each host access, for the
engine's turn and for the step itself. -/

namespace Sys2Proof.Machine

/-- A presented word is refused while the engine is busy, refused by its checks, or accepted. -/
theorem present_cases (s : State) (w : BitVec 32) :
    (s.busy = true ∧ s.present w = s.raiseError .cmdWhileBusy) ∨
    (s.busy = false ∧ ∃ e, s.present w = State.raiseError { s with cmdword := w } e) ∨
    (s.busy = false ∧ ∃ i, decode w = .ok i ∧ commandError s.params s.nlen i = none ∧
      s.present w = State.accept { s with cmdword := w } w) := by
  unfold State.present
  cases hb : s.busy
  · simp only [Bool.false_eq_true, if_false]
    cases hd : decode w with
    | error e => exact .inr (.inl ⟨trivial, e, rfl⟩)
    | ok i =>
      dsimp only
      cases hc : commandError s.params s.nlen i with
      | some e => exact .inr (.inl ⟨trivial, e, rfl⟩)
      | none => exact .inr (.inr ⟨trivial, i, rfl, hc, rfl⟩)
  · exact .inl ⟨rfl, by simp⟩

/-- A host read that answers: BUS_ERROR, a guarded read refused with ACCESS_WHILE_BUSY, or a value. -/
theorem hostRead_next {s t : State} {o : BitVec 18} {width : Nat} (h : hostRead o width s = .next t) :
    (∃ r, t = s.respond r) ∨
    (s.busy = true ∧ ∃ r, t = { (s.raiseError .accessWhileBusy).respond r with draws := s.draws + 1 }) := by
  unfold hostRead at h
  split at h
  · cases h; exact .inl ⟨_, rfl⟩
  · split at h
    · cases h; exact .inl ⟨_, rfl⟩
    · split at h
      · rename_i hb
        cases h
        exact .inr ⟨(Bool.and_eq_true_iff.1 hb).2, _, rfl⟩
      · split at h
        · cases h; exact .inl ⟨_, rfl⟩
        · cases h

/-- A host read answers a next state or faults on an unwritten element. -/
theorem hostRead_total (s : State) (o : BitVec 18) (width : Nat) :
    (∃ t, hostRead o width s = .next t) ∨ hostRead o width s = .fault .unwrittenRead := by
  unfold hostRead
  split
  · exact .inl ⟨_, rfl⟩
  · split
    · exact .inl ⟨_, rfl⟩
    · split
      · exact .inl ⟨_, rfl⟩
      · split
        · exact .inl ⟨_, rfl⟩
        · exact .inr rfl

/-- What a host write does: BUS_ERROR, refused with ACCESS_WHILE_BUSY, or applied at the location. -/
theorem hostWrite_cases (s : State) (o : BitVec 18) (width : Nat) (d : BitVec 64) :
    hostWrite o width d s = .next (s.respond .writeError) ∨
    (s.busy = true ∧ hostWrite o width d s = .next ((s.raiseError .accessWhileBusy).respond .writeOk)) ∨
    (s.rstN = true ∧ ∃ l, target s.params o width = some l ∧ (busyGuarded l = true → s.busy = false) ∧
      hostWrite o width d s =
        .next ((s.writeLoc l (writeMask o width) (writeLane o width d)).respond .writeOk)) := by
  unfold hostWrite
  cases hr : s.rstN
  · exact .inl (by simp)
  · simp only [Bool.not_true, Bool.false_eq_true, if_false]
    cases ht : target s.params o width with
    | none => exact .inl rfl
    | some l =>
      dsimp only
      cases hg : busyGuarded l <;> cases hb : s.busy
      · exact .inr (.inr ⟨trivial, l, rfl, by simp, by simp⟩)
      · exact .inr (.inr ⟨trivial, l, rfl, by simp [hg], by simp⟩)
      · exact .inr (.inr ⟨trivial, l, rfl, by simp, by simp⟩)
      · exact .inr (.inl ⟨rfl, by simp⟩)

theorem hostWrite_next {s t : State} {o : BitVec 18} {width : Nat} {d : BitVec 64}
    (h : hostWrite o width d s = .next t) :
    t = s.respond .writeError ∨
    (s.busy = true ∧ t = (s.raiseError .accessWhileBusy).respond .writeOk) ∨
    (s.rstN = true ∧ ∃ l, target s.params o width = some l ∧ (busyGuarded l = true → s.busy = false) ∧
      t = (s.writeLoc l (writeMask o width) (writeLane o width d)).respond .writeOk) := by
  rcases hostWrite_cases s o width d with e | ⟨hb, e⟩ | ⟨hr, l, hl, hg, e⟩ <;> rw [e] at h <;> cases h
  · exact .inl rfl
  · exact .inr (.inl ⟨hb, rfl⟩)
  · exact .inr (.inr ⟨hr, l, hl, hg, rfl⟩)

/-- What a write at a location can do: nothing, a soft reset, IE, STATUS, a presented word, a data register of
an idle core, or an element of WIN or X of an idle core. -/
inductive LocWrite (s : State) : State → Prop where
  | nothing : LocWrite s s
  | soft : LocWrite s s.softReset
  | ie (b : Bool) : LocWrite s { s with ie := b }
  | status (d e : Bool) : LocWrite s (s.writeStatus d e)
  | present (w : BitVec 32) : LocWrite s (s.present w)
  | data (hb : s.busy = false) (n : BitVec 16) (lo hi sample scalar : F64) (ca cb : C64) :
      LocWrite s { s with nlen := n, bandLo := lo, bandHi := hi, sample := sample, scalar := scalar, ca := ca, cb := cb }
  | elem (hb : s.busy = false) (a : Nat) (v : F64) (k : Nat) (ha : a % 8 = 0) (hin : inBuffer s.params a) :
      LocWrite s { s with mem := writeElem s.mem a v, draws := k }

theorem writeBuffer_locWrite {s : State} {a : Nat} (mask data : BitVec 64) (hb : s.busy = false) (ha : a % 8 = 0)
    (hin : inBuffer s.params a) : LocWrite s (s.writeBuffer a mask data) := by
  unfold State.writeBuffer
  split
  · exact .elem hb a _ s.draws ha hin
  · split
    · exact .elem hb a _ s.draws ha hin
    · exact .elem hb a _ _ ha hin

/-- A location the part has: a register, a stage's ROM entry, or an element below N_MAX (R83). -/
def Loc.inRange (p : Params) : Loc → Prop
  | .reg _ => True
  | .rom k _ => k < 16
  | .win i | .xRe i | .xIm i | .out i => i < p.nMax

/-- What an offset reaches is a register, a stage's entry, or an element below N_MAX. -/
theorem locate_bound {p : Params} {o : Nat} {l : Loc} (h : locate p o = some l) :
    l.inRange p := by
  unfold locate at h
  split at h
  · cases hr : regAt (o / 8) with
    | none => rw [hr] at h; cases h
    | some r => rw [hr] at h; cases h; exact True.intro
  · split at h
    · cases h; simp only [Loc.inRange]; omega
    · split at h
      · cases h
      · split at h
        · split at h
          · cases h; assumption
          · cases h
        · split at h
          · split at h
            · split at h <;> (cases h; assumption)
            · cases h
          · split at h
            · cases h; assumption
            · cases h

theorem target_bound {p : Params} {o : BitVec 18} {width : Nat} {l : Loc} (h : target p o width = some l) :
    l.inRange p := by
  unfold target at h
  split at h
  · exact locate_bound h
  · cases h

theorem writeLoc_locWrite {s : State} {o : BitVec 18} {width : Nat} {l : Loc} (mask data : BitVec 64)
    (hl : target s.params o width = some l) (hg : busyGuarded l = true → s.busy = false) :
    LocWrite s (s.writeLoc l mask data) := by
  have hbound := target_bound hl
  have hn : s.params.nMax ≤ 4096 := by
    have h := s.params.log2nMax.property.2
    calc s.params.nMax = 2 ^ s.params.log2nMax.val := rfl
      _ ≤ 2 ^ 12 := Nat.pow_le_pow_right (by norm_num) h
  cases l with
  | rom _ _ | out _ => exact .nothing
  | win i =>
    exact writeBuffer_locWrite _ _ (hg rfl) (by simp only [Loc.addr, winBase]; omega)
      (.inl (by simp only [Loc.addr, Loc.inRange] at *; omega))
  | xRe i =>
    exact writeBuffer_locWrite _ _ (hg rfl) (by simp only [Loc.addr, xBase]; omega)
      (.inr (.inl (by simp only [Loc.addr, Loc.inRange] at *; omega)))
  | xIm i =>
    exact writeBuffer_locWrite _ _ (hg rfl) (by simp only [Loc.addr, xBase]; omega)
      (.inr (.inl (by simp only [Loc.addr, Loc.inRange] at *; omega)))
  | reg r =>
    cases r with
    | id | crRe | crIm | csRe | csIm => exact .nothing
    | ctrl =>
      simp only [State.writeLoc, State.writeReg, State.writeCtrl]
      split
      · exact .soft
      · split
        · exact .ie _
        · exact .nothing
    | status => exact .status _ _
    | cmd =>
      simp only [State.writeLoc, State.writeReg, State.writeCmd]
      split
      · exact .present _
      · exact .nothing
    | nlen => exact .data (hg rfl) _ s.bandLo s.bandHi s.sample s.scalar s.ca s.cb
    | bandLo => exact .data (hg rfl) s.nlen _ s.bandHi s.sample s.scalar s.ca s.cb
    | bandHi => exact .data (hg rfl) s.nlen s.bandLo _ s.sample s.scalar s.ca s.cb
    | sample => exact .data (hg rfl) s.nlen s.bandLo s.bandHi _ s.scalar s.ca s.cb
    | scalar => exact .data (hg rfl) s.nlen s.bandLo s.bandHi s.sample _ s.ca s.cb
    | caRe | caIm => exact .data (hg rfl) s.nlen s.bandLo s.bandHi s.sample s.scalar _ s.cb
    | cbRe | cbIm => exact .data (hg rfl) s.nlen s.bandLo s.bandHi s.sample s.scalar s.ca _

/-- An engine's turn that answers: nothing to do, a latched word turned away, or a completion step. -/
theorem engineTurn_next {s t : State} (h : engineTurn s = .next t) :
    t = s ∨ (s.rstN = true ∧ ∃ l, s.engine = some l ∧
      ((∃ e, decode l.cmd = .error e ∧ t = s.turnAway e) ∨ ∃ i, decode l.cmd = .ok i ∧ exec i s = .next t)) := by
  unfold engineTurn at h
  split at h
  · cases h; exact .inl rfl
  · rename_i hr
    split at h
    · cases h; exact .inl rfl
    · rename_i l hl
      refine .inr ⟨by simpa using hr, l, hl, ?_⟩
      split at h
      · rename_i i hd; exact .inr ⟨i, hd, h⟩
      · rename_i e hd; cases h; exact .inl ⟨e, hd, rfl⟩

/-- What a step that answers did: a host read, a host write, the engine's turn, or a change of `rst_n`, on the
state with the event taken off the list. -/
theorem step_next {s t : State} (h : step s = .next t) :
    ∃ rest, (∃ o width, hostRead o width { s with inputs := rest } = .next t) ∨
      (∃ o width d, hostWrite o width d { s with inputs := rest } = .next t) ∨
      engineTurn { s with inputs := rest } = .next t ∨
      t = State.powerDown { s with inputs := rest } ∨ t = State.powerUp { s with inputs := rest } := by
  unfold step at h
  split at h
  · rename_i hi
    exact ⟨[], .inr (.inr (.inl (by rw [← hi]; exact h)))⟩
  · rename_i e rest hi
    refine ⟨rest, ?_⟩
    cases e with
    | read o w => exact .inl ⟨o, w, h⟩
    | write o w d => exact .inr (.inl ⟨o, w, d, h⟩)
    | engine => exact .inr (.inr (.inl h))
    | resetLow => exact .inr (.inr (.inr (.inl (Host.Outcome.next.inj h).symm)))
    | resetHigh => exact .inr (.inr (.inr (.inr (Host.Outcome.next.inj h).symm)))

/-- The effects a step that answers can have on the core, `s` with the event taken off the list: an answer to
the host, a refused access, a write at a location, a completion step, a command turned away, a reset. -/
inductive StepEffect (s : State) : State → Prop where
  | idle : StepEffect s s
  | answer (r : BusResponse) : StepEffect s (s.respond r)
  | refusedRead (hb : s.busy = true) (r : BusResponse) :
      StepEffect s { (s.raiseError .accessWhileBusy).respond r with draws := s.draws + 1 }
  | refusedWrite (hb : s.busy = true) : StepEffect s ((s.raiseError .accessWhileBusy).respond .writeOk)
  | write (u : State) (hr : s.rstN = true) (hu : LocWrite s u) : StepEffect s (u.respond .writeOk)
  | noCommand (l : Latched) (e : ErrorCause) (hr : s.rstN = true) (hl : s.engine = some l)
      (hd : decode l.cmd = .error e) : StepEffect s (s.turnAway e)
  | complete (l : Latched) (i : Instr) (t : State) (hr : s.rstN = true) (hl : s.engine = some l)
      (hd : decode l.cmd = .ok i) (h : exec i s = .next t) : StepEffect s t
  | down : StepEffect s s.powerDown
  | up : StepEffect s s.powerUp

/-- Every step that answers has one of these effects. -/
theorem step_effect {s t : State} (h : step s = .next t) : ∃ rest, StepEffect { s with inputs := rest } t := by
  obtain ⟨rest, h⟩ := step_next h
  refine ⟨rest, ?_⟩
  rcases h with ⟨o, w, h⟩ | ⟨o, w, d, h⟩ | h | h | h
  · rcases hostRead_next h with ⟨r, ht⟩ | ⟨hb, r, ht⟩ <;> subst ht
    · exact .answer r
    · exact .refusedRead hb r
  · rcases hostWrite_next h with ht | ⟨hb, ht⟩ | ⟨hr, l, hl, hg, ht⟩ <;> subst ht
    · exact .answer _
    · exact .refusedWrite hb
    · exact .write _ hr (writeLoc_locWrite _ _ hl hg)
  · rcases engineTurn_next h with ht | ⟨hr, l, hl, ⟨e, hd, ht⟩ | ⟨i, hd, ht⟩⟩
    · subst ht; exact .idle
    · subst ht; exact .noCommand l e hr hl hd
    · exact .complete l i t hr hl hd ht
  · subst h; exact .down
  · subst h; exact .up

end Sys2Proof.Machine
end

