-- ==== Sys2Proof/Laws/Bus.lean ====
section
/-! SUPPORT. The map of the register space (20_memory.md R81, R83): which location an offset reaches, and what an
access of a location does where the busy guard lets it through. -/

namespace Sys2Proof.Machine

theorem Params.nMax_le (p : Params) : p.nMax ≤ 4096 :=
  (Nat.pow_le_pow_right (by norm_num) p.log2nMax.property.2 : p.nMax ≤ 2 ^ 12)

/-! ### Offsets and locations -/

theorem regAt_slot (r : Reg) : regAt r.slot = some r := by cases r <;> rfl

theorem slot_of_regAt {k : Nat} {r : Reg} (hk : k < 32) (h : regAt k = some r) : r.slot = k := by
  interval_cases k <;> simp [regAt] at h <;> subst h <;> rfl

theorem Reg.slot_le (r : Reg) : r.slot ≤ 16 := by cases r <;> decide

/-- The addresses of the locations a part has: 8-byte slots of the space. -/
theorem Loc.addr_bounds {p : Params} {l : Loc} (h : l.inRange p) : l.addr % 8 = 0 ∧ l.addr < 2 ^ 18 := by
  have hn := Params.nMax_le p
  cases l with
  | reg r => have := r.slot_le; simp only [Loc.addr]; omega
  | rom k im => simp only [Loc.inRange] at h; simp only [Loc.addr]; split <;> omega
  | win i | xRe i | xIm i | out i => simp only [Loc.inRange] at h; simp only [Loc.addr, winBase, xBase, outBase]; omega

/-- Every byte of a location's 8 is reached as that location. -/
theorem locate_addr {p : Params} {l : Loc} (h : l.inRange p) {k : Nat} (hk : k < 8) : locate p (l.addr + k) = some l := by
  have hn := Params.nMax_le p
  cases l with
  | reg r =>
    have := r.slot_le
    have e : (8 * r.slot + k) / 8 = r.slot := by omega
    show locate p (8 * r.slot + k) = _
    rw [locate, if_pos (by omega), e, regAt_slot]; rfl
  | rom j im =>
    have h : j < 16 := h
    cases im
    · have e1 : (0x100 + 16 * j + k - 0x100) / 16 = j := by omega
      have e2 : (0x100 + 16 * j + k) / 8 % 2 = 0 := by omega
      show locate p (0x100 + 16 * j + k) = _
      rw [locate, if_neg (by omega), if_pos (by omega), e1, e2]; rfl
    · have e1 : (0x100 + 16 * j + 8 + k - 0x100) / 16 = j := by omega
      have e2 : (0x100 + 16 * j + 8 + k) / 8 % 2 = 1 := by omega
      show locate p (0x100 + 16 * j + 8 + k) = _
      rw [locate, if_neg (by omega), if_pos (by omega), e1, e2]; rfl
  | win i =>
    have h : i < p.nMax := h
    have e : (winBase + 8 * i + k - winBase) / 8 = i := by unfold winBase; omega
    show locate p (winBase + 8 * i + k) = _
    rw [locate, if_neg (by unfold winBase; omega), if_neg (by unfold winBase; omega), if_neg (by omega),
      if_pos (by unfold winBase xBase; omega), e, if_pos h]
  | xRe i =>
    have h : i < p.nMax := h
    have e : (xBase + 16 * i + k - xBase) / 16 = i := by unfold xBase; omega
    show locate p (xBase + 16 * i + k) = _
    rw [locate, if_neg (by unfold xBase; omega), if_neg (by unfold xBase; omega), if_neg (by unfold winBase xBase; omega),
      if_neg (by omega), if_pos (by unfold xBase outBase; omega), e, if_pos h, if_pos (by unfold xBase; omega)]
  | xIm i =>
    have h : i < p.nMax := h
    have e : (xBase + 16 * i + 8 + k - xBase) / 16 = i := by unfold xBase; omega
    show locate p (xBase + 16 * i + 8 + k) = _
    rw [locate, if_neg (by unfold xBase; omega), if_neg (by unfold xBase; omega), if_neg (by unfold winBase xBase; omega),
      if_neg (by omega), if_pos (by unfold xBase outBase; omega), e, if_pos h, if_neg (by unfold xBase; omega)]
  | out i =>
    have h : i < p.nMax := h
    have e : (outBase + 8 * i + k - outBase) / 8 = i := by unfold outBase; omega
    show locate p (outBase + 8 * i + k) = _
    rw [locate, if_neg (by unfold outBase; omega), if_neg (by unfold outBase; omega),
      if_neg (by unfold winBase outBase; omega), if_neg (by unfold xBase outBase; omega), if_neg (by omega), e, if_pos h]

/-- What an offset reaches lies in the 8 bytes around it. -/
theorem addr_of_locate {p : Params} {o : Nat} {l : Loc} (h : locate p o = some l) : l.addr = 8 * (o / 8) := by
  unfold locate winBase xBase outBase at h
  split at h
  · simp only [Option.map_eq_some_iff] at h
    obtain ⟨r, hr, rfl⟩ := h
    have := slot_of_regAt (by omega) hr
    simp only [Loc.addr]; omega
  · split at h
    · cases h
      simp only [Loc.addr]
      by_cases hh : o / 8 % 2 = 1 <;> simp [hh] <;> omega
    · split at h
      · cases h
      · split at h
        · split at h
          · cases h; simp only [Loc.addr, winBase]; omega
          · cases h
        · split at h
          · split at h
            · split at h <;> (cases h; simp only [Loc.addr, xBase]; omega)
            · cases h
          · split at h
            · cases h; simp only [Loc.addr, outBase]; omega
            · cases h

/-! ### Accesses -/

/-- An 8-byte access of a location. -/
theorem target_addr {p : Params} {l : Loc} (h : l.inRange p) : target p (BitVec.ofNat 18 l.addr) 8 = some l := by
  obtain ⟨h8, hlt⟩ := Loc.addr_bounds h
  have e : (BitVec.ofNat 18 l.addr).toNat = l.addr := by rw [BitVec.toNat_ofNat, Nat.mod_eq_of_lt hlt]
  rw [target, if_pos (by rw [e]; omega), e]
  exact locate_addr h (k := 0) (by omega)

/-- A 4-byte access of a location: its lower half at its offset, its upper half 4 above. -/
theorem target_half {p : Params} {l : Loc} (h : l.inRange p) (up : Bool) :
    target p (BitVec.ofNat 18 (l.addr + (if up then 4 else 0))) 4 = some l := by
  obtain ⟨h8, hlt⟩ := Loc.addr_bounds h
  have e : (BitVec.ofNat 18 (l.addr + (if up then 4 else 0))).toNat = l.addr + (if up then 4 else 0) := by
    rw [BitVec.toNat_ofNat]; cases up <;> simp <;> omega
  rw [target, if_pos (by rw [e]; cases up <;> simp <;> omega), e]
  exact locate_addr h (by cases up <;> simp)

/-- What an access that reaches a location is. -/
theorem target_some {p : Params} {o : BitVec 18} {width : Nat} {l : Loc} (h : target p o width = some l) :
    (width = 4 ∨ width = 8) ∧ o.toNat % width = 0 ∧ locate p o.toNat = some l ∧ l.inRange p ∧
      l.addr = 8 * (o.toNat / 8) := by
  have hb := target_bound h
  unfold target at h
  split at h
  · rename_i hh; exact ⟨hh.1, hh.2, h, hb, addr_of_locate h⟩
  · cases h

/-- The guarded locations (R306) by their addresses. -/
theorem busyGuarded_iff {p : Params} {l : Loc} (h : l.inRange p) :
    busyGuarded l = true ↔ 0x020 ≤ l.addr ∧ (l.addr < 0x100 ∨ 0x200 ≤ l.addr) := by
  cases l with
  | reg r => cases r <;> simp [busyGuarded, Loc.addr, Reg.slot]
  | rom k im => cases im <;> simp [busyGuarded, Loc.addr, Loc.inRange] at * <;> omega
  | win i | xRe i | xIm i | out i => simp [busyGuarded, Loc.addr, winBase, xBase, outBase]; omega

/-- A location without a value is an unwritten element of a buffer (R346). -/
theorem readLoc_eq_none_iff {s : State} {l : Loc} (h : l.inRange s.params) :
    s.readLoc l = none ↔ 0x10000 ≤ l.addr ∧ readElem s.mem l.addr = none := by
  cases l with
  | reg r => have := r.slot_le; simp [State.readLoc, Loc.addr]; omega
  | rom k im => cases im <;> simp [State.readLoc, Loc.addr, Loc.inRange] at * <;> omega
  | win i | xRe i | xIm i | out i => simp [State.readLoc, Loc.addr, winBase, xBase, outBase] <;> omega

/-- A read where the guard lets it through answers the value, or faults where there is none. -/
theorem hostRead_of_target {s : State} {o : BitVec 18} {width : Nat} {l : Loc} (hr : s.rstN = true)
    (ht : target s.params o width = some l) (hg : ¬ (busyGuarded l = true ∧ s.busy = true)) :
    hostRead o width s = match s.readLoc l with
      | some v => .next (s.respond (.readOk (readLane o width v)))
      | none => .fault .unwrittenRead := by
  have : (busyGuarded l && s.busy) = false := by rw [← Bool.not_eq_true, Bool.and_eq_true]; exact hg
  cases hv : s.readLoc l <;> simp [hostRead, hr, ht, this, hv]

/-- A write where the guard lets it through. -/
theorem hostWrite_of_target {s : State} {o : BitVec 18} {width : Nat} {l : Loc} (d : BitVec 64) (hr : s.rstN = true)
    (ht : target s.params o width = some l) (hg : ¬ (busyGuarded l = true ∧ s.busy = true)) :
    hostWrite o width d s = .next ((s.writeLoc l (writeMask o width) (writeLane o width d)).respond .writeOk) := by
  have : (busyGuarded l && s.busy) = false := by rw [← Bool.not_eq_true, Bool.and_eq_true]; exact hg
  simp [hostWrite, hr, ht, this]

/-! ### Halves (R84) -/

theorem merge_whole (old d : BitVec 64) : merge old 0xFFFFFFFFFFFFFFFF#64 d = d := by
  rw [show (0xFFFFFFFFFFFFFFFF#64 : BitVec 64) = BitVec.allOnes 64 by decide, merge, BitVec.not_allOnes,
    BitVec.and_zero, BitVec.zero_or, BitVec.and_allOnes]

theorem merge_lowHalf (old d : BitVec 64) :
    merge old 0x00000000FFFFFFFF#64 (0#32 ++ d.extractLsb' 0 32) = old.extractLsb' 32 32 ++ d.extractLsb' 0 32 := by
  have h : (0x00000000FFFFFFFF#64 : BitVec 64) = 0#32 ++ BitVec.allOnes 32 := by decide
  apply BitVec.eq_of_getLsbD_eq
  intro i hi
  simp only [merge, h, BitVec.getLsbD_or, BitVec.getLsbD_and, BitVec.getLsbD_not, BitVec.getLsbD_append,
    BitVec.getLsbD_extractLsb', BitVec.getLsbD_allOnes]
  by_cases h32 : i < 32
  · simp [h32, hi]
  · simp [h32, hi, show i - 32 < 32 by omega, show 32 + (i - 32) = i by omega]

theorem merge_highHalf (old d : BitVec 64) :
    merge old 0xFFFFFFFF00000000#64 (d.extractLsb' 0 32 ++ 0#32) = d.extractLsb' 0 32 ++ old.extractLsb' 0 32 := by
  have h : (0xFFFFFFFF00000000#64 : BitVec 64) = BitVec.allOnes 32 ++ 0#32 := by decide
  apply BitVec.eq_of_getLsbD_eq
  intro i hi
  simp only [merge, h, BitVec.getLsbD_or, BitVec.getLsbD_and, BitVec.getLsbD_not, BitVec.getLsbD_append,
    BitVec.getLsbD_extractLsb', BitVec.getLsbD_allOnes]
  by_cases h32 : i < 32
  · simp [h32, hi]
  · simp [h32, hi, show i - 32 < 32 by omega]

/-- The low bits of the data, where a write addresses the lower half. -/
theorem getLsbD_writeLane {o : BitVec 18} {width i : Nat} (d : BitVec 64) (hu : upperHalf o width = false) (hi : i < 32) :
    (writeLane o width d).getLsbD i = d.getLsbD i ∧ (writeMask o width).getLsbD i = true := by
  have h1 : (0xFFFFFFFFFFFFFFFF#64).getLsbD i = true := by interval_cases i <;> rfl
  have h2 : (0x00000000FFFFFFFF#64).getLsbD i = true := by interval_cases i <;> rfl
  have h3 : (0#32 ++ d.extractLsb' 0 32).getLsbD i = d.getLsbD i := by simp only [BitVec.getLsbD_append]; simp [hi]
  unfold writeLane writeMask
  simp only [hu, Bool.false_eq_true, if_false]
  split
  · exact ⟨rfl, h1⟩
  · exact ⟨h3, h2⟩

/-- What a write of an element leaves: some earlier value, the stored one if the element was written, merged with
the data, and every byte outside it as it was. -/
theorem writeBuffer_spec (s : State) (a : Nat) (mask d : BitVec 64) : ∃ old k,
    (∀ v, readElem s.mem a = some v → old = v ∧ k = s.draws) ∧ (mask = 0xFFFFFFFFFFFFFFFF#64 → k = s.draws) ∧
    (readElem s.mem a = none → old = Config.freeBits s.draws) ∧
    s.writeBuffer a mask d = { s with mem := writeElem s.mem a (merge old mask d), draws := k } := by
  unfold State.writeBuffer
  cases h : readElem s.mem a with
  | some v => exact ⟨v, s.draws, by simp, by simp, by simp, rfl⟩
  | none =>
    by_cases hm : mask = 0xFFFFFFFFFFFFFFFF#64
    · subst hm; exact ⟨_, s.draws, by simp, by simp, fun _ => rfl, by simp [merge_whole, State.setMem]⟩
    · exact ⟨Config.freeBits s.draws, s.draws + 1, by simp, by simp [hm], by simp, by simp [hm]⟩

end Sys2Proof.Machine
end

