-- ==== Sys2Proof/Laws/Checks.lean ====
section
/-! SUPPORT. The computed checks of a presented command say what the spec says: a legal length (R8, R302) and
legal twiddle fields (R112, R304). -/

namespace Sys2Proof.Machine

theorem and_pred_twoPow (k : Nat) (hk : k < 16) :
    BitVec.ofNat 16 (2 ^ k) &&& (BitVec.ofNat 16 (2 ^ k) - 1#16) = 0#16 := by
  interval_cases k <;> decide

/-- A number with no bit in common with its predecessor is a power of two. -/
theorem toNat_eq_two_pow {n : BitVec 16} (hn : n ≠ 0#16) (h : n &&& (n - 1#16) = 0#16) :
    n.toNat = 2 ^ Nat.log2 n.toNat := by
  have hn0 : n.toNat ≠ 0 := fun h => hn (BitVec.eq_of_toNat_eq h)
  have hlt := n.isLt
  have h1 : n - 1#16 = BitVec.ofNat 16 (n.toNat - 1) := by
    apply BitVec.eq_of_toNat_eq
    simp only [BitVec.toNat_sub, BitVec.toNat_ofNat]
    omega
  have h2 : n.toNat &&& (n.toNat - 1) = 0 := by
    have := congrArg BitVec.toNat h
    rw [h1, BitVec.toNat_and, BitVec.toNat_ofNat, Nat.mod_eq_of_lt (by omega)] at this
    simpa using this
  obtain ⟨k, hk⟩ := (Nat.and_sub_one_eq_zero_iff_isPowerOfTwo hn0).1 h2
  rw [hk, Nat.log2_two_pow]

/-- `invalidN` (R302) refuses exactly the lengths that are not legal (R8). -/
theorem invalidN_iff (p : Params) (n : BitVec 16) : invalidN p n = false ↔ lengthOk p n := by
  have hp : p.log2nMax.val ≤ 12 := p.log2nMax.property.2
  constructor
  · intro h
    by_cases hn : n = 0#16
    · exact .inl hn
    · simp [invalidN, hn] at h
      have e := toNat_eq_two_pow hn h.1
      refine .inr ⟨Nat.log2 n.toNat, ?_, e⟩
      have h2 : n.toNat ≤ 2 ^ p.log2nMax.val := h.2
      rw [e] at h2
      exact (Nat.pow_le_pow_iff_right (by norm_num : 1 < 2)).1 h2
  · rintro (rfl | ⟨k, hk, hn⟩)
    · simp [invalidN]
    · have e : n = BitVec.ofNat 16 (2 ^ k) := by rw [← hn]; simp
      have h2 : 2 ^ k < 65536 :=
        lt_of_le_of_lt (Nat.pow_le_pow_right (by norm_num) (by omega : k ≤ 12)) (by norm_num)
      simp only [invalidN, e, and_pred_twoPow k (by omega)]
      simp [Params.nMax, Nat.mod_eq_of_lt h2, Nat.pow_le_pow_right (by norm_num : 0 < 2) hk]

/-- `invalidTW` (R304) refuses exactly the fields out of range (R112). -/
theorem invalidTW_iff (p : Params) (l : BitVec 4) (j : BitVec 16) : invalidTW p l j = false ↔ twiddleOk p l j := by
  have : l = 0#4 ↔ l.toNat = 0 := ⟨fun h => by rw [h]; rfl, fun h => BitVec.eq_of_toNat_eq h⟩
  simp only [invalidTW, Bool.or_eq_false_iff, beq_eq_false_iff_ne, decide_eq_false_iff_not, twiddleOk, ne_eq, this]
  omega

/-- The 4th check of a sequence command. -/
theorem commandError_sequence {p : Params} {n : BitVec 16} {i : Instr} (h : Instr.isSequence i) :
    (lengthOk p n ∧ commandError p n i = none) ∨ (¬ lengthOk p n ∧ commandError p n i = some .badLength) := by
  have e : commandError p n i = if invalidN p n then some .badLength else none := by
    rcases h with h | h <;> simp [commandError, h]
  rw [e, ← invalidN_iff]
  cases invalidN p n <;> simp

/-- The 5th check of a twiddle command. -/
theorem commandError_twiddle {p : Params} {n : BitVec 16} {i : Instr} (h : i.format = .tw) :
    (twiddleOk p i.stage i.index ∧ commandError p n i = none) ∨
    (¬ twiddleOk p i.stage i.index ∧ commandError p n i = some .badTwiddle) := by
  rw [← invalidTW_iff]
  simp only [commandError, h]
  cases invalidTW p i.stage i.index <;> simp

end Sys2Proof.Machine
end

