-- ==== Sys2Proof/Laws/Float.lean ====
section
/-! SUPPORT. What the binary64 operations do: the fields of a packed pattern, that `roundRat` is the nearest
value with ties to the even fraction, and that a delivered NaN is quiet. -/

namespace Sys2Proof

/-! ### Fields -/

/-- The magnitude, in units of 2^-1074, that 63 low bits stand for. -/
def unitsOf (b : Nat) : Nat :=
  if b / 2 ^ 52 = 0 then b % 2 ^ 52 else (2 ^ 52 + b % 2 ^ 52) * 2 ^ (b / 2 ^ 52 - 1)

theorem f64Exp_eq (a : F64) : f64Exp a = a.toNat / 2 ^ 52 % 2 ^ 11 := by
  simp [f64Exp, BitVec.extractLsb'_toNat, Nat.shiftRight_eq_div_pow]

theorem f64Frac_eq (a : F64) : f64Frac a = a.toNat % 2 ^ 52 := by
  simp [f64Frac, BitVec.extractLsb'_toNat]

theorem f64Sign_eq (a : F64) : f64Sign a = decide (2 ^ 63 ≤ a.toNat) := by
  have h : f64Sign a = a.msb := by simp [f64Sign, BitVec.msb_eq_getLsbD_last]
  rw [h, BitVec.msb_eq_decide]

theorem withSign_toNat (s : Bool) (m : BitVec 63) : (withSign s m).toNat = (if s then 2 ^ 63 else 0) + m.toNat := by
  have h : (withSign s m).toNat = (BitVec.ofBool s).toNat <<< 63 ||| m.toNat := BitVec.toNat_append _ _
  rw [h, ← Nat.shiftLeft_add_eq_or_of_lt m.isLt, Nat.shiftLeft_eq]
  cases s <;> simp

@[simp] theorem f64Sign_withSign (s : Bool) (m : BitVec 63) : f64Sign (withSign s m) = s := by
  have := m.isLt
  rw [f64Sign_eq, withSign_toNat]
  cases s
  · simpa using this
  · simp

theorem f64Exp_withSign (s : Bool) (m : BitVec 63) : f64Exp (withSign s m) = m.toNat / 2 ^ 52 := by
  have := m.isLt
  rw [f64Exp_eq, withSign_toNat]
  cases s <;> simp <;> omega

theorem f64Frac_withSign (s : Bool) (m : BitVec 63) : f64Frac (withSign s m) = m.toNat % 2 ^ 52 := by
  have := m.isLt
  rw [f64Frac_eq, withSign_toNat]
  cases s <;> simp
  omega

theorem magUnits_withSign (s : Bool) (m : BitVec 63) : magUnits (withSign s m) = unitsOf m.toNat := by
  simp only [magUnits, unitsOf, f64Exp_withSign, f64Frac_withSign]

/-- Every pattern is its sign and its low bits. -/
theorem eq_withSign (a : F64) : a = withSign (f64Sign a) (a.extractLsb' 0 63) := by
  apply BitVec.eq_of_toNat_eq
  have := a.isLt
  rw [withSign_toNat, f64Sign_eq, BitVec.extractLsb'_toNat]
  simp only [decide_eq_true_eq, Nat.shiftRight_zero]
  split <;> omega

theorem lowBits_eq (a : F64) : (a.extractLsb' 0 63).toNat = a.toNat % 2 ^ 63 := by
  simp [BitVec.extractLsb'_toNat]

theorem magUnits_eq (a : F64) : magUnits a = unitsOf (a.toNat % 2 ^ 63) := by
  conv_lhs => rw [eq_withSign a, magUnits_withSign, lowBits_eq]

theorem isFinite_iff (a : F64) : isFinite a = true ↔ a.toNat % 2 ^ 63 < 0x7FF0000000000000 := by
  have := a.isLt
  simp only [isFinite, f64Exp_eq, bne_iff_ne, ne_eq]
  omega

@[simp] theorem isFinite_signedInf (s : Bool) : isFinite (signedInf s) = false := by cases s <;> decide

@[simp] theorem f64Sign_signedInf (s : Bool) : f64Sign (signedInf s) = s := f64Sign_withSign _ _

/-- A delivered NaN is quiet (R143). -/
theorem isQuietNaN_quietNaN (v : BitVec 52) : isQuietNaN (quietNaN v) = true := by
  have h : quietNaN v = withSign (v.getLsbD 51) (0xFFF#12 ++ v.extractLsb' 0 51) := by
    have h1 : v.extractLsb' 51 1 = BitVec.ofBool (v.getLsbD 51) := by
      apply BitVec.eq_of_getLsbD_eq
      intro i hi
      have : i = 0 := by omega
      subst this; simp
    rw [quietNaN, withSign, h1]
    exact BitVec.append_assoc
  have ht : (0xFFF#12 ++ v.extractLsb' 0 51).toNat = 0xFFF * 2 ^ 51 + v.toNat % 2 ^ 51 := by
    rw [BitVec.toNat_append, BitVec.extractLsb'_toNat, ← Nat.shiftLeft_add_eq_or_of_lt (by
      exact Nat.mod_lt _ (by norm_num))]
    simp [Nat.shiftLeft_eq]
  have hl : v.toNat % 2 ^ 51 < 2 ^ 51 := Nat.mod_lt _ (by norm_num)
  have h51 : (quietNaN v).getLsbD 51 = true := by
    simp only [quietNaN, BitVec.getLsbD_append]; simp
  rw [isQuietNaN, h51, h, f64Exp_withSign, ht]
  simp; omega

theorem isNaN_of_isQuietNaN {a : F64} (h : isQuietNaN a = true) : isNaN a = true := by
  simp only [isQuietNaN, Bool.and_eq_true, beq_iff_eq] at h
  simp only [isNaN, Bool.and_eq_true, beq_iff_eq, bne_iff_ne, h.1, true_and]
  intro h0
  have e : a.extractLsb' 0 52 = 0#52 := BitVec.eq_of_toNat_eq (by simpa [f64Frac] using h0)
  have h51 : (a.extractLsb' 0 52).getLsbD 51 = a.getLsbD 51 := by simp
  rw [h.2, e] at h51
  simp at h51

theorem isQuietNaN_nanResult (op : FOp) (a b : F64) : isQuietNaN (nanResult op a b) = true := isQuietNaN_quietNaN _

theorem isNaN_nanResult (op : FOp) (a b : F64) : isNaN (nanResult op a b) = true :=
  isNaN_of_isQuietNaN (isQuietNaN_nanResult op a b)

/-! ### Rounding -/

/-- `roundNearestEven` is a nearest integer, and at equal distance from another one it is even. -/
theorem roundNearestEven_spec (num den j : Nat) (hd : 0 < den) :
    ((roundNearestEven num den * den : Int) - num).natAbs ≤ ((j * den : Int) - num).natAbs ∧
    (((roundNearestEven num den * den : Int) - num).natAbs = ((j * den : Int) - num).natAbs →
      j = roundNearestEven num den ∨ roundNearestEven num den % 2 = 0) := by
  have hdm := Nat.div_add_mod num den
  have hr : num % den < den := Nat.mod_lt _ hd
  unfold roundNearestEven
  set q := num / den
  set r := num % den
  have hj : ∀ a b : Nat, a < b → a * den + den ≤ b * den := fun a b h => by
    have := Nat.mul_le_mul_right den h; rw [Nat.succ_mul] at this; exact this
  have hqd : den * q = q * den := Nat.mul_comm _ _
  have e1 : (q + 1) * den = q * den + den := Nat.succ_mul _ _
  have cast : ∀ a : Nat, ((a : Int) * den) = ((a * den : Nat) : Int) := fun a => by push_cast; rfl
  rcases Nat.lt_trichotomy j q with h | h | h
  · have := hj j q h
    simp only [cast]
    split <;> rename_i hc <;> (constructor <;> [skip; intro he]) <;> omega
  · subst h
    simp only [cast]
    split <;> rename_i hc <;> (constructor <;> [skip; intro he]) <;> omega
  · have := hj q j h
    rcases Nat.eq_or_lt_of_le h with h2 | h2
    · have h3 : j * den = q * den + den := by rw [← h2, Nat.succ_eq_add_one, e1]
      simp only [cast]
      split <;> rename_i hc <;> (constructor <;> [skip; intro he]) <;> omega
    · have := hj (q + 1) j h2
      simp only [cast]
      split <;> rename_i hc <;> (constructor <;> [skip; intro he]) <;> omega

theorem roundNearestEven_le (num den m : Nat) (hd : 0 < den) (h : num < (m + 1) * den) :
    roundNearestEven num den ≤ m + 1 := by
  have : num / den < m + 1 := (Nat.div_lt_iff_lt_mul hd).2 h
  unfold roundNearestEven; dsimp only; split <;> omega

theorem le_roundNearestEven (num den m : Nat) (hd : 0 < den) (h : m * den ≤ num) : m ≤ roundNearestEven num den := by
  have : m ≤ num / den := (Nat.le_div_iff_mul_le hd).2 h
  unfold roundNearestEven; dsimp only; split <;> omega

/-- The packing of a significand and the exponent of its last place. -/
theorem unitsOf_pack (k q : Nat) (hq : q ≤ 2 ^ 53) (hk : k = 0 ∨ 2 ^ 52 ≤ q) :
    unitsOf (k * 2 ^ 52 + q) = q * 2 ^ k := by
  unfold unitsOf
  rcases Nat.lt_or_ge q (2 ^ 52) with h1 | h1
  · have hk0 : k = 0 := by omega
    subst hk0
    have : (0 * 2 ^ 52 + q) / 2 ^ 52 = 0 := by omega
    rw [if_pos this]; simp; omega
  · rcases Nat.eq_or_lt_of_le hq with h2 | h2
    · have e : (k * 2 ^ 52 + q) / 2 ^ 52 = k + 2 := by omega
      have e2 : (k * 2 ^ 52 + q) % 2 ^ 52 = 0 := by omega
      rw [e, e2, if_neg (by omega), h2, show k + 2 - 1 = k + 1 by omega, pow_succ]; ring
    · have e : (k * 2 ^ 52 + q) / 2 ^ 52 = k + 1 := by omega
      have e2 : (k * 2 ^ 52 + q) % 2 ^ 52 = q - 2 ^ 52 := by omega
      rw [e, e2, if_neg (by omega), show k + 1 - 1 = k by omega, Nat.add_sub_cancel' h1]

/-- Every magnitude is a significand below 2^53 times a power of two. -/
theorem unitsOf_form (b : Nat) : ∃ m e, unitsOf b = m * 2 ^ e ∧ m < 2 ^ 53 := by
  have : b % 2 ^ 52 < 2 ^ 52 := Nat.mod_lt _ (by norm_num)
  unfold unitsOf
  split
  · exact ⟨b % 2 ^ 52, 0, by simp, by omega⟩
  · exact ⟨_, _, rfl, by omega⟩

theorem ulpShift_spec (t : Nat) : t < 2 ^ 53 * 2 ^ ulpShift t ∧ (ulpShift t = 0 ∨ 2 ^ 52 * 2 ^ ulpShift t ≤ t) := by
  unfold ulpShift
  split
  · exact ⟨by simpa using ‹_›, .inl rfl⟩
  · rename_i h
    have h0 : t ≠ 0 := by rintro rfl; simp at h
    have hl : 53 ≤ Nat.log2 t := (Nat.le_log2 h0).2 (by omega)
    have h1 := Nat.lt_log2_self (n := t)
    have h2 := Nat.log2_self_le h0
    refine ⟨?_, .inr ?_⟩
    · rw [← pow_add, show 53 + (t.log2 - 52) = t.log2 + 1 by omega]; exact h1
    · rw [← pow_add, show 52 + (t.log2 - 52) = t.log2 by omega]; exact h2

/-- The significand `roundRat` packs, and its bounds. -/
theorem roundRat_significand (num den : Nat) (hd : 0 < den) :
    roundNearestEven num (den * 2 ^ ulpShift (num / den)) ≤ 2 ^ 53 ∧
    (ulpShift (num / den) = 0 ∨ 2 ^ 52 ≤ roundNearestEven num (den * 2 ^ ulpShift (num / den))) := by
  obtain ⟨h1, h2⟩ := ulpShift_spec (num / den)
  set k := ulpShift (num / den)
  have hp : 0 < den * 2 ^ k := by positivity
  constructor
  · refine roundNearestEven_le num _ (2 ^ 53 - 1) hp ?_
    have := (Nat.div_lt_iff_lt_mul hd).1 h1
    calc num < 2 ^ 53 * 2 ^ k * den := this
      _ = (2 ^ 53 - 1 + 1) * (den * 2 ^ k) := by norm_num; ring
  · refine h2.imp id fun h => le_roundNearestEven num _ _ hp ?_
    have := (Nat.le_div_iff_mul_le hd).1 h
    calc 2 ^ 52 * (den * 2 ^ k) = 2 ^ 52 * 2 ^ k * den := by ring
      _ ≤ num := this

/-- A finite result of `roundRat`: its magnitude is the rounded significand at its place, its fraction has the
parity of the significand, and its sign is the given one. -/
theorem roundRat_finite (s : Bool) (num den : Nat) (hd : 0 < den) (hf : isFinite (roundRat s num den) = true) :
    magUnits (roundRat s num den)
      = roundNearestEven num (den * 2 ^ ulpShift (num / den)) * 2 ^ ulpShift (num / den) ∧
    f64Frac (roundRat s num den) % 2 = roundNearestEven num (den * 2 ^ ulpShift (num / den)) % 2 ∧
    f64Sign (roundRat s num den) = s := by
  obtain ⟨h1, h2⟩ := roundRat_significand num den hd
  unfold roundRat at hf ⊢
  dsimp only at hf ⊢
  set k := ulpShift (num / den)
  set q := roundNearestEven num (den * 2 ^ k)
  split
  · rename_i hb
    have e : (BitVec.ofNat 63 (k * 2 ^ 52 + q)).toNat = k * 2 ^ 52 + q := by
      rw [BitVec.toNat_ofNat]; exact Nat.mod_eq_of_lt (by omega)
    refine ⟨?_, ?_, f64Sign_withSign _ _⟩
    · rw [magUnits_withSign, e, unitsOf_pack k q h1 h2]
    · rw [f64Frac_withSign, e]; omega
  · rename_i hb
    rw [if_neg hb] at hf
    simp at hf

/-- `roundNearestEven` stays at or below an odd `m` exactly below the midpoint above it. -/
theorem roundNearestEven_le_iff (num den m : Nat) (hd : 0 < den) (hm : m % 2 = 1) :
    roundNearestEven num den ≤ m ↔ 2 * num < (2 * m + 1) * den := by
  have hdm := Nat.div_add_mod num den
  have hr : num % den < den := Nat.mod_lt _ hd
  unfold roundNearestEven
  set q := num / den
  set r := num % den
  have e : (2 * m + 1) * den = 2 * (m * den) + den := by ring
  have hqd : den * q = q * den := Nat.mul_comm _ _
  rcases Nat.lt_trichotomy q m with h | h | h
  · have h1 : (q + 1) * den ≤ m * den := Nat.mul_le_mul_right _ h
    have h2 : (q + 1) * den = q * den + den := Nat.succ_mul _ _
    constructor
    · intro _; omega
    · intro _; dsimp only; split <;> omega
  · rw [h] at hdm hqd ⊢
    dsimp only; split <;> omega
  · have h1 : (m + 1) * den ≤ q * den := Nat.mul_le_mul_right _ h
    have h2 : (m + 1) * den = m * den + den := Nat.succ_mul _ _
    constructor
    · intro h3; dsimp only at h3; split at h3 <;> omega
    · intro _; omega

/-- `roundRat` is finite exactly below the overflow threshold, half a last place above the greatest finite magnitude
(R144). -/
theorem isFinite_roundRat_iff (s : Bool) (num den : Nat) (hd : 0 < den) :
    isFinite (roundRat s num den) = true ↔ num < Machine.overflowUnits * den := by
  unfold Machine.overflowUnits
  obtain ⟨h1, h2⟩ := roundRat_significand num den hd
  obtain ⟨hu1, hu2⟩ := ulpShift_spec (num / den)
  have hfin : isFinite (roundRat s num den) = true ↔ ulpShift (num / den) * 2 ^ 52
      + roundNearestEven num (den * 2 ^ ulpShift (num / den)) < 0x7FF0000000000000 := by
    unfold roundRat
    dsimp only
    split
    · rename_i hb
      rw [isFinite_iff, withSign_toNat, BitVec.toNat_ofNat]
      cases s <;> simp <;> omega
    · rename_i hb; simpa using hb
  rw [hfin]
  set k := ulpShift (num / den)
  have hlt := (Nat.div_lt_iff_lt_mul hd).1 hu1
  have mono : ∀ a b : Nat, a ≤ b → (2 : Nat) ^ a ≤ 2 ^ b := fun a b h => Nat.pow_le_pow_right (by norm_num) h
  rcases Nat.lt_trichotomy k 2045 with hk | hk | hk
  · refine iff_of_true (by omega) (lt_of_lt_of_le hlt (Nat.mul_le_mul_right _ ?_))
    exact Nat.mul_le_mul (by norm_num) (mono _ _ (by omega))
  · have hi := roundNearestEven_le_iff num (den * 2 ^ k) (2 ^ 53 - 1) (by positivity) (by norm_num)
    have e : (2 * (2 ^ 53 - 1) + 1) * (den * 2 ^ k) = 2 * ((2 ^ 54 - 1) * 2 ^ 2044 * den) := by
      have h : (2 : Nat) ^ k = 2 * 2 ^ (k - 1) := by rw [← Nat.pow_succ', Nat.succ_eq_add_one, Nat.sub_add_cancel (by omega)]
      rw [h, show k - 1 = 2044 by omega]; generalize 2 ^ 2044 = P; norm_num; ring
    rw [e] at hi
    constructor
    · intro h; have := hi.1 (by omega); omega
    · intro h; have := hi.2 (by omega); omega
  · have hge := (Nat.le_div_iff_mul_le hd).1 (hu2.resolve_left (by omega))
    have h3 := h2.resolve_left (by omega)
    refine iff_of_false (by omega) (Nat.not_lt.2 (le_trans (Nat.mul_le_mul_right _ ?_) hge))
    calc (2 ^ 54 - 1) * 2 ^ 2044 ≤ 2 ^ 52 * 2 ^ 2 * 2 ^ 2044 := Nat.mul_le_mul_right _ (by norm_num)
      _ = 2 ^ 52 * 2 ^ 2046 := by rw [mul_assoc, ← Nat.pow_add]
      _ ≤ 2 ^ 52 * 2 ^ k := Nat.mul_le_mul_left _ (mono _ _ (by omega))

/-- Where `roundRat` is not finite it is the infinity of its sign (R144). -/
theorem roundRat_overflow {s : Bool} {num den : Nat} (h : isFinite (roundRat s num den) = false) (hd : 0 < den) :
    roundRat s num den = signedInf s := by
  obtain ⟨h1, h2⟩ := roundRat_significand num den hd
  unfold roundRat at h ⊢
  dsimp only at h ⊢
  split
  · rename_i hb
    rw [if_pos hb, ← Bool.not_eq_true, isFinite_iff, withSign_toNat, BitVec.toNat_ofNat] at h
    cases s <;> simp at h <;> omega
  · rfl

theorem roundNearestEven_exact (q den : Nat) (hd : 0 < den) : roundNearestEven (q * den) den = q := by
  simp [roundNearestEven, Nat.mul_div_cancel _ hd]
  omega

/-- A significand of at most 53 bits at a place the format has is rounded to itself (R140). -/
theorem roundRat_exact (s : Bool) {m e : Nat} (hm : m < 2 ^ 53) (he : e ≤ 2045) :
    isFinite (roundRat s (m * 2 ^ e) 1) = true ∧ magUnits (roundRat s (m * 2 ^ e) 1) = m * 2 ^ e := by
  have hlt : m * 2 ^ e < 2 ^ 53 * 2 ^ e := Nat.mul_lt_mul_of_pos_right hm (Nat.pow_pos (by norm_num))
  have hk : ulpShift (m * 2 ^ e) ≤ e := by
    rcases (ulpShift_spec (m * 2 ^ e)).2 with h | h
    · omega
    · by_contra hc
      have : 2 ^ 53 * 2 ^ e ≤ 2 ^ 52 * 2 ^ ulpShift (m * 2 ^ e) := by
        rw [← Nat.pow_add, ← Nat.pow_add]; exact Nat.pow_le_pow_right (by norm_num) (by omega)
      omega
  have hq : roundNearestEven (m * 2 ^ e) (1 * 2 ^ ulpShift (m * 2 ^ e)) = m * 2 ^ (e - ulpShift (m * 2 ^ e)) := by
    rw [Nat.one_mul]
    generalize ulpShift (m * 2 ^ e) = k at *
    have h : m * 2 ^ e = m * 2 ^ (e - k) * 2 ^ k := by rw [mul_assoc, ← Nat.pow_add, Nat.sub_add_cancel hk]
    rw [h, roundNearestEven_exact _ _ (Nat.pow_pos (by norm_num))]
  have hf : isFinite (roundRat s (m * 2 ^ e) 1) = true := by
    rw [isFinite_roundRat_iff _ _ _ (by norm_num), Nat.mul_one, Machine.overflowUnits]
    obtain ⟨k, hk⟩ : ∃ k, k = 2044 := ⟨_, rfl⟩
    rw [← hk]
    have h1 : 2 ^ e ≤ 2 ^ k * 2 := by rw [← Nat.pow_succ]; exact Nat.pow_le_pow_right (by norm_num) (by omega)
    have h2 : m * 2 ^ e ≤ (2 ^ 53 - 1) * 2 ^ e := Nat.mul_le_mul_right _ (by omega)
    have h3 : 0 < 2 ^ k := Nat.pow_pos (by norm_num)
    omega
  refine ⟨hf, ?_⟩
  rw [(roundRat_finite s _ 1 (by norm_num) hf).1, Nat.div_one, hq, mul_assoc, ← Nat.pow_add, Nat.sub_add_cancel hk]

/-- `roundRat` has the sign it is given. -/
theorem f64Sign_roundRat (s : Bool) (num den : Nat) : f64Sign (roundRat s num den) = s := by
  unfold roundRat
  dsimp only
  split <;> simp [signedInf]

/-- `roundRat` is the nearest magnitude, with ties to the even fraction (R140). -/
theorem roundRat_nearest (s : Bool) (num den : Nat) (hd : 0 < den) (hf : isFinite (roundRat s num den) = true)
    (c : F64) :
    ((magUnits (roundRat s num den) * den : Int) - num).natAbs ≤ ((magUnits c * den : Int) - num).natAbs ∧
    (((magUnits (roundRat s num den) * den : Int) - num).natAbs = ((magUnits c * den : Int) - num).natAbs →
      magUnits c = magUnits (roundRat s num den) ∨ f64Frac (roundRat s num den) % 2 = 0) := by
  obtain ⟨e1, e2, -⟩ := roundRat_finite s num den hd hf
  obtain ⟨hu1, hu2⟩ := ulpShift_spec (num / den)
  rw [e1, e2]
  set k := ulpShift (num / den)
  have hp : 0 < den * 2 ^ k := by positivity
  have scale : ∀ j : Nat, (((j * 2 ^ k : Nat) : Int) * den - num) = (j : Int) * ((den * 2 ^ k : Nat) : Int) - num := by
    intro j; push_cast; ring
  obtain ⟨m, e, hm, hlt⟩ := unitsOf_form (c.toNat % 2 ^ 63)
  rw [magUnits_eq c, hm]
  rcases Nat.lt_or_ge e k with he | he
  · -- a magnitude off the grid lies below the grid point 2^52 * 2^k, which lies below the exact value
    have hk0 : k ≠ 0 := by omega
    have hge : 2 ^ 52 * 2 ^ k ≤ num / den := hu2.resolve_left hk0
    have hge' : 2 ^ 52 * 2 ^ k * den ≤ num := (Nat.le_div_iff_mul_le hd).1 hge
    have hM : m * 2 ^ e < 2 ^ 52 * 2 ^ k := by
      calc m * 2 ^ e < 2 ^ 53 * 2 ^ e := Nat.mul_lt_mul_of_pos_right hlt (by positivity)
        _ ≤ 2 ^ 53 * 2 ^ (k - 1) := Nat.mul_le_mul_left _ (Nat.pow_le_pow_right (by norm_num) (by omega))
        _ = 2 ^ 52 * 2 ^ k := by rw [show k = k - 1 + 1 by omega, pow_succ]; simp; ring
    have hMd : m * 2 ^ e * den < 2 ^ 52 * 2 ^ k * den := Nat.mul_lt_mul_of_pos_right hM hd
    obtain ⟨hn, -⟩ := roundNearestEven_spec num (den * 2 ^ k) (2 ^ 52) hp
    rw [← scale, ← scale] at hn
    have c1 : (((2 ^ 52 * 2 ^ k : Nat) : Int) * den) = ((2 ^ 52 * 2 ^ k * den : Nat) : Int) := by push_cast; ring
    have c2 : (((m * 2 ^ e : Nat) : Int) * den) = ((m * 2 ^ e * den : Nat) : Int) := by push_cast; ring
    rw [c1] at hn
    rw [c2]
    constructor
    · omega
    · intro h; omega
  · have hg : m * 2 ^ e = m * 2 ^ (e - k) * 2 ^ k := by
      rw [mul_assoc, ← pow_add, Nat.sub_add_cancel he]
    rw [hg, scale, scale]
    obtain ⟨h1, h2⟩ := roundNearestEven_spec num (den * 2 ^ k) (m * 2 ^ (e - k)) hp
    exact ⟨h1, fun h => (h2 h).imp (fun h => by rw [h]) id⟩

/-- From a magnitude nearest to `|v|` to a signed value nearest to `v`: distances in a common denominator. -/
theorem nearest_signed (s sc : Bool) (v : Int) (r c : Nat) (P : Prop) (hneg : v < 0 → s = true)
    (hpos : 0 < v → s = false)
    (h0 : ((r : Int) - v.natAbs).natAbs ≤ v.natAbs ∧ (((r : Int) - v.natAbs).natAbs = v.natAbs → r = 0 ∨ P))
    (hc : ((r : Int) - v.natAbs).natAbs ≤ ((c : Int) - v.natAbs).natAbs ∧
      (((r : Int) - v.natAbs).natAbs = ((c : Int) - v.natAbs).natAbs → c = r ∨ P)) :
    ((if s then -(r : Int) else r) - v).natAbs ≤ ((if sc then -(c : Int) else c) - v).natAbs ∧
    (((if s then -(r : Int) else r) - v).natAbs = ((if sc then -(c : Int) else c) - v).natAbs →
      (if sc then -(c : Int) else c) = (if s then -(r : Int) else r) ∨ P) := by
  rcases lt_trichotomy v 0 with hv | hv | hv
  · rw [hneg hv]
    cases sc
    · simp only [Bool.false_eq_true, if_false, if_true]
      refine ⟨by omega, fun h => ?_⟩
      rcases h0.2 (by omega) with h1 | h1
      · exact .inl (by omega)
      · exact .inr h1
    · simp only [if_true]
      exact ⟨by omega, fun h => (hc.2 (by omega)).imp (fun h => by rw [h]) id⟩
  · subst hv
    have hr : r = 0 := by simpa using h0.1
    subst hr
    refine ⟨by simp, fun h => .inl ?_⟩
    have : (if sc then -(c : Int) else c) = 0 := by simpa [eq_comm] using h
    rw [this]; simp
  · rw [hpos hv]
    cases sc
    · simp only [Bool.false_eq_true, if_false]
      exact ⟨by omega, fun h => (hc.2 (by omega)).imp (fun h => by rw [h]) id⟩
    · simp only [Bool.false_eq_true, if_false, if_true]
      refine ⟨by omega, fun h => ?_⟩
      rcases h0.2 (by omega) with h1 | h1
      · exact .inl (by omega)
      · exact .inr h1

/-- The signed form: the value of a rounded signed rational is nearest among all patterns' values. -/
theorem roundRat_nearest_signed (s : Bool) (v : Int) (den : Nat) (hd : 0 < den) (hneg : v < 0 → s = true)
    (hpos : 0 < v → s = false) (hf : isFinite (roundRat s v.natAbs den) = true) (c : F64) :
    (valUnits (roundRat s v.natAbs den) * den - v).natAbs ≤ (valUnits c * den - v).natAbs ∧
    ((valUnits (roundRat s v.natAbs den) * den - v).natAbs = (valUnits c * den - v).natAbs →
      valUnits c = valUnits (roundRat s v.natAbs den) ∨ f64Frac (roundRat s v.natAbs den) % 2 = 0) := by
  have hs := (roundRat_finite s v.natAbs den hd hf).2.2
  have h0 := roundRat_nearest s v.natAbs den hd hf 0#64
  have hc := roundRat_nearest s v.natAbs den hd hf c
  have hz : magUnits 0#64 = 0 := by decide
  rw [hz] at h0
  have key : ∀ (b : Bool) (m : Nat), (if b then -(m : Int) else m) * den = if b then -((m * den : Nat) : Int) else (m * den : Nat) := by
    intro b m; cases b <;> push_cast <;> simp
  have inj : ∀ m n : Nat, m * den = n * den → m = n := fun m n h => Nat.eq_of_mul_eq_mul_right hd h
  obtain ⟨P, hP⟩ : ∃ P, P = (f64Frac (roundRat s v.natAbs den) % 2 = 0) := ⟨_, rfl⟩
  simp only [valUnits, hs, key]
  rw [← hP] at h0 hc ⊢
  generalize magUnits (roundRat s v.natAbs den) = R at *
  generalize magUnits c = C at *
  have z : ((((0 : Nat) : Int) * (den : Int) - (v.natAbs : Int)).natAbs) = v.natAbs := by
    rw [Nat.cast_zero, zero_mul, zero_sub, Int.natAbs_neg, Int.natAbs_natCast]
  rw [z] at h0
  simp only [← Nat.cast_mul] at h0 hc
  have h0' := nearest_signed s (f64Sign c) v (R * den) (C * den) P hneg hpos
    ⟨h0.1, fun h => (h0.2 h).imp (fun h => by rw [← h, zero_mul]) id⟩
    ⟨hc.1, fun h => (hc.2 h).imp (fun h => by rw [h]) id⟩
  refine ⟨h0'.1, fun h => (h0'.2 h).imp (fun h => ?_) id⟩
  rw [← key, ← key] at h
  exact mul_right_cancel₀ (by exact_mod_cast hd.ne') h

/-! ### The square root -/

theorem isqrtDigits_spec (n : Nat) : ∀ k r, r * r ≤ n → n < (r + 2 ^ k) * (r + 2 ^ k) →
    isqrtDigits n k r * isqrtDigits n k r ≤ n ∧ n < (isqrtDigits n k r + 1) * (isqrtDigits n k r + 1) := by
  intro k
  induction k with
  | zero => intro r h1 h2; exact ⟨h1, by simpa [isqrtDigits] using h2⟩
  | succ k ih =>
    intro r h1 h2
    rw [isqrtDigits]
    split
    · rename_i h
      exact ih _ h (by rw [pow_succ, Nat.mul_two] at h2; simpa [Nat.add_assoc] using h2)
    · exact ih _ h1 (by omega)

/-- `isqrt` is the integer part of the root. -/
theorem isqrt_spec (n : Nat) : isqrt n * isqrt n ≤ n ∧ n < (isqrt n + 1) * (isqrt n + 1) := by
  refine isqrtDigits_spec n _ 0 (by simp) ?_
  rw [Nat.zero_add, ← pow_add]
  exact lt_of_lt_of_le Nat.lt_log2_self (Nat.pow_le_pow_right (by norm_num) (by omega))

/-- `roundSqrt` is finite exactly where the root lies below the overflow threshold (R144). -/
theorem isFinite_roundSqrt_iff (n : Nat) : isFinite (roundSqrt n) = true ↔ n < Machine.overflowUnits ^ 2 := by
  unfold roundSqrt
  dsimp only
  rw [isFinite_roundRat_iff _ _ _ (by norm_num)]
  obtain ⟨h1, h2⟩ := isqrt_spec (16 * n)
  generalize isqrt (16 * n) = r at *
  generalize Machine.overflowUnits = T
  have e : 4 * T * (4 * T) = 16 * T ^ 2 := by ring
  have key : r < 4 * T ↔ n < T ^ 2 := by
    constructor
    · intro h
      have : (r + 1) * (r + 1) ≤ 4 * T * (4 * T) := Nat.mul_self_le_mul_self h
      omega
    · intro h
      by_contra hc
      have : 4 * T * (4 * T) ≤ r * r := Nat.mul_self_le_mul_self (by omega)
      omega
  rw [← key]
  split <;> omega

end Sys2Proof
end

