-- ==== Sys2Proof/Laws/PerInstr.lean ====
section
/-! SUPPORT. Statements about every command as syntax, one lemma per constructor. -/

/-- The encoding of a command has the bits that its row of the opcode table fixes (R114, R115). -/
def Sys2Proof.Laws.TableMatch.Statement (i : Sys2Proof.Instr) : Prop :=
  Sys2Proof.encode i &&& i.tableMask = i.tableMatch

namespace Sys2Proof.Laws.TableMatch

theorem append_toNat {n m : Nat} (x : BitVec n) (y : BitVec m) : (x ++ y).toNat = x.toNat * 2 ^ m + y.toNat := by
  have h : (x ++ y).toNat = x.toNat <<< m ||| y.toNat := BitVec.toNat_append _ _
  rw [h, ← Nat.shiftLeft_add_eq_or_of_lt y.isLt, Nat.shiftLeft_eq]

/-- The twiddle commands share one layout: their low 12 bits are the opcode and the reserved bits. -/
theorem low_bits (l : BitVec 4) (j : BitVec 16) (opc : BitVec 8) :
    ((j ++ l ++ 0#3 ++ BitVec.ofBool false ++ opc) &&& 0x00000FFF#32).toNat = opc.toNat := by
  have := opc.isLt
  rw [BitVec.toNat_and]
  simp only [append_toNat, BitVec.toNat_ofNat, BitVec.toNat_ofBool]
  rw [show 0x00000FFF % 2 ^ 32 = 2 ^ 12 - 1 from rfl, Nat.and_two_pow_sub_one_eq_mod]
  simp
  omega

theorem nop : Statement .nop := rfl
theorem fft : Statement .fft := rfl
theorem ifft (cjo : Bool) : Statement (.ifft cjo) := by cases cjo <;> rfl
theorem bpmask : Statement .bpmask := rfl
theorem filter (cjo : Bool) : Statement (.filter cjo) := by cases cjo <;> rfl
theorem r2c : Statement .r2c := rfl
theorem c2r : Statement .c2r := rfl
theorem denoise (cjo : Bool) : Statement (.denoise cjo) := by cases cjo <;> rfl
theorem wpush : Statement .wpush := rfl
theorem cadd : Statement .cadd := rfl
theorem csub : Statement .csub := rfl
theorem cmul : Statement .cmul := rfl
theorem cdivr : Statement .cdivr := rfl
theorem cconj : Statement .cconj := rfl
theorem cmag : Statement .cmag := rfl
theorem cphase : Statement .cphase := rfl
theorem twgen (l : BitVec 4) (j : BitVec 16) : Statement (.twgen l j) := BitVec.eq_of_toNat_eq (low_bits l j _)
theorem ctwmul (l : BitVec 4) (j : BitVec 16) : Statement (.ctwmul l j) := BitVec.eq_of_toNat_eq (low_bits l j _)
theorem bfly (l : BitVec 4) (j : BitVec 16) : Statement (.bfly l j) := BitVec.eq_of_toNat_eq (low_bits l j _)

end Sys2Proof.Laws.TableMatch
end

