-- ==== Sys2Proof/Machine/HostProgram.lean ====
section
/-! DEFINITION. The lines of a host program (30_encoding.md R118) and the pseudo-instructions (R119), each
with the accesses it stands for. -/

namespace Sys2Proof.Machine

/-- A line of a host program (R118, R119). A `poll` carries how many of its reads find BUSY = 1 before the
engine's turn comes (log entry 26). `wait` is the model's own line: the host does nothing until the engine has
completed, as a host does that takes the interrupt (20_memory.md R94). DESIGN CHOICE (log entry 27). -/
inductive HostLine where
  | wr (l : Loc) (v : BitVec 64)
  | wr32 (l : Loc) (upper : Bool) (v : BitVec 32)
  | rd (l : Loc)
  | command (i : Instr)
  | poll (busyReads : Nat)
  | wait
  | run (i : Instr) (busyReads : Nat)
  | setn (n : BitVec 64)
  | setband (lo hi : F64)
  | ldx (i : Nat) (re im : F64)
  | lda (re im : F64)
  | ldb (re im : F64)
  | push (s : F64) (busyReads : Nat)
  | clrst
  | srst
  | ifftCanon
  deriving DecidableEq, Repr

/-- An 8-byte write of a location. -/
def writeEvent (l : Loc) (v : BitVec 64) : HostEvent := .write (BitVec.ofNat 18 l.addr) 8 v

/-- An 8-byte read of a location. -/
def readEvent (l : Loc) : HostEvent := .read (BitVec.ofNat 18 l.addr) 8

/-- A command: a 4-byte write of its word to CMD (R118). -/
def commandEvent (i : Instr) : HostEvent :=
  .write (BitVec.ofNat 18 (Loc.reg .cmd).addr) 4 ((encode i).setWidth 64)

/-- `poll` (R119): reads of STATUS until one finds BUSY = 0 (log entry 26). -/
def pollEvents (busyReads : Nat) : List HostEvent :=
  List.replicate busyReads (readEvent (.reg .status)) ++ [.engine, readEvent (.reg .status)]

/-- The events a line stands for (R118, R119). -/
def HostLine.events : HostLine → List HostEvent
  | .wr l v => [writeEvent l v]
  | .wr32 l upper v => [.write (BitVec.ofNat 18 (l.addr + (if upper then 4 else 0))) 4 (v.setWidth 64)]
  | .rd l => [readEvent l]
  | .command i => [commandEvent i]
  | .poll k => pollEvents k
  | .wait => [.engine]
  | .run i k => commandEvent i :: pollEvents k
  | .setn n => [writeEvent (.reg .nlen) n]
  | .setband lo hi => [writeEvent (.reg .bandLo) lo, writeEvent (.reg .bandHi) hi]
  | .ldx i re im => [writeEvent (.xRe i) re, writeEvent (.xIm i) im]
  | .lda re im => [writeEvent (.reg .caRe) re, writeEvent (.reg .caIm) im]
  | .ldb re im => [writeEvent (.reg .cbRe) re, writeEvent (.reg .cbIm) im]
  | .push s k => writeEvent (.reg .sample) s :: commandEvent .wpush :: pollEvents k
  | .clrst => [writeEvent (.reg .status) 0x6#64]
  | .srst => [writeEvent (.reg .ctrl) 0x2#64]
  | .ifftCanon => [commandEvent (.ifft true)]

/-- The machine with a host program as what happens next. R24 leaves open when a command completes that no
`poll` follows. DESIGN CHOICE (log entry 27): it completes where the program's next `poll` or `wait` puts the
engine's turn, or after the last line (`step`); the lines between find BUSY = 1. -/
def State.withProgram (s : State) (p : List HostLine) : State := { s with inputs := p.flatMap HostLine.events }

end Sys2Proof.Machine
end

