-- ==== Sys2Proof/WellFormed.lean ====
section
/-! DEFINITION. When a command's fields are in range (30_encoding.md R112): what a part with a given
LOG2N_MAX can accept. The types of the fields already bound L to 0..15 and J to 0..65535. -/

namespace Sys2Proof

/-- The stage of a twiddle command is at least 1 (R112). -/
def Instr.stagePositive (i : Instr) : Bool :=
  i.format != .tw || i.stage != 0#4

/-- The stage of a twiddle command is at most LOG2N_MAX (R112). -/
def Instr.stageInRange (p : Params) (i : Instr) : Bool :=
  i.format != .tw || i.stage.toNat ≤ p.log2nMax.val

/-- The index of a twiddle command is below half its stage size, `J < 2^(L-1)` (R112). -/
def Instr.indexInRange (i : Instr) : Bool :=
  i.format != .tw || i.index.toNat < 2 ^ (i.stage.toNat - 1)

/-- A command whose fields are in range for a part (R112). -/
def Instr.wellFormed (p : Params) (i : Instr) : Bool :=
  i.stagePositive && i.stageInRange p && i.indexInRange

end Sys2Proof
end

