-- ==== Sys2Proof/Tests/Slice0.lean ====
section
/-! SUPPORT. Tests of the model: expected values come from the tables and examples of spec/ (named at each
test), or from the bit layout of 30_encoding.md worked by hand; and for each statement with hypotheses a state
that meets them. -/

namespace Sys2Proof.Tests

-- One test after another: each kernel evaluation would otherwise take a thread of its own.
set_option Elab.async false

open Sys2Proof Sys2Proof.Machine

/-! ### Well-formedness (R112): each check refuses an ill-formed term -/

theorem test_wellFormed_accepts :
    Instr.wellFormed Params.standard (.twgen 10#4 511#16) = true ∧ Instr.wellFormed Params.standard .fft = true := by
  decide

theorem test_stagePositive_refuses : Instr.stagePositive (.bfly 0#4 0#16) = false := by decide

theorem test_stageInRange_refuses : Instr.stageInRange Params.standard (.twgen 11#4 0#16) = false := by decide

theorem test_indexInRange_refuses : Instr.indexInRange (.ctwmul 2#4 2#16) = false := by decide

/-! ### Decoding: words written out from R111 (J, L, RSV, CJO, OPC) and R114 -/

theorem test_decode_nop : decode 0b0000000000000000_0000_000_0_00000000#32 = .ok .nop := by rfl
theorem test_decode_fft : decode 0b0000000000000000_0000_000_0_00000001#32 = .ok .fft := by rfl
theorem test_decode_ifft : decode 0b0000000000000000_0000_000_0_00000010#32 = .ok (.ifft false) := by rfl
theorem test_decode_ifft_cj : decode 0b0000000000000000_0000_000_1_00000010#32 = .ok (.ifft true) := by rfl
theorem test_decode_bpmask : decode 0b0000000000000000_0000_000_0_00000011#32 = .ok .bpmask := by rfl
theorem test_decode_filter : decode 0b0000000000000000_0000_000_1_00000100#32 = .ok (.filter true) := by rfl
theorem test_decode_r2c : decode 0b0000000000000000_0000_000_0_00000101#32 = .ok .r2c := by rfl
theorem test_decode_c2r : decode 0b0000000000000000_0000_000_0_00000110#32 = .ok .c2r := by rfl
theorem test_decode_denoise : decode 0b0000000000000000_0000_000_1_00000111#32 = .ok (.denoise true) := by rfl
theorem test_decode_wpush : decode 0b0000000000000000_0000_000_0_00001000#32 = .ok .wpush := by rfl
theorem test_decode_cadd : decode 0b0000000000000000_0000_000_0_00010000#32 = .ok .cadd := by rfl
theorem test_decode_csub : decode 0b0000000000000000_0000_000_0_00010001#32 = .ok .csub := by rfl
theorem test_decode_cmul : decode 0b0000000000000000_0000_000_0_00010010#32 = .ok .cmul := by rfl
theorem test_decode_cdivr : decode 0b0000000000000000_0000_000_0_00010011#32 = .ok .cdivr := by rfl
theorem test_decode_cconj : decode 0b0000000000000000_0000_000_0_00010100#32 = .ok .cconj := by rfl
theorem test_decode_cmag : decode 0b0000000000000000_0000_000_0_00010101#32 = .ok .cmag := by rfl
theorem test_decode_cphase : decode 0b0000000000000000_0000_000_0_00010110#32 = .ok .cphase := by rfl
theorem test_decode_twgen : decode 0b0000000111111111_1010_000_0_00011000#32 = .ok (.twgen 10#4 511#16) := by rfl
theorem test_decode_ctwmul : decode 0b1000000000000001_0101_000_0_00011001#32 = .ok (.ctwmul 5#4 0x8001#16) := by rfl
theorem test_decode_bfly : decode 0b0000000000000001_0010_000_0_00011010#32 = .ok (.bfly 2#4 1#16) := by rfl

/-- E8 to E11 and T14 of 95_test_vectors.md: reserved fields, and the opcode check first. -/
theorem test_decode_refuses :
    decode 0x00000101#32 = .error .reservedField ∧ decode 0x00000302#32 = .error .reservedField ∧
    decode 0x0000111A#32 = .error .reservedField ∧ decode 0x00000017#32 = .error .illegalOpcode ∧
    decode 0x0000021B#32 = .error .illegalOpcode := ⟨rfl, rfl, rfl, rfl, rfl⟩

theorem test_decodeTableWord : decodeTableWord 32 0x0001201A = some (.bfly 2#4 1#16) ∧
    decodeTableWord 32 0x00000009 = none := ⟨rfl, rfl⟩

/-! ### Helpers -/

/-- `n.0` for a few `n`, as 95_test_vectors.md gives their patterns. -/
def f2 : F64 := 0x4000000000000000#64
def f3 : F64 := 0x4008000000000000#64
def f4 : F64 := 0x4010000000000000#64
def f5 : F64 := 0x4014000000000000#64
def f6 : F64 := 0x4018000000000000#64
def f7 : F64 := 0x401C000000000000#64
def f8 : F64 := 0x4020000000000000#64
def quarter : F64 := 0x3FD0000000000000#64
def half : F64 := 0x3FE0000000000000#64

/-- A real value as a c64. -/
def real (v : F64) : C64 := ⟨v, F64.zero⟩

/-- An idle core with N = `n` and X written from element 0 on. -/
def xState (n : BitVec 16) (x : List C64) : State :=
  { State.reset with nlen := n, mem := writeC64s [] xBase x }

/-- An idle core with N = `n` and WIN written from element 0 on. -/
def winState (n : BitVec 16) (w : List F64) : State :=
  { State.reset with nlen := n, mem := writeF64s [] winBase w }

/-- A core with the operand registers set. -/
def aluState (ca cb : C64) (scalar : F64) : State := { State.reset with ca := ca, cb := cb, scalar := scalar }

/-- The outcome is a next state with a property. -/
def next (r : Result) (p : State → Bool) : Bool :=
  match r with
  | .next t => p t
  | _ => false

def xIs (t : State) (x : List C64) : Bool := decide (readC64s t.mem xBase x.length = some x)
def winIs (t : State) (w : List F64) : Bool := decide (readF64s t.mem 8 winBase w.length = some w)
def outIs (t : State) (r : List F64) : Bool := decide (readF64s t.mem 8 outBase r.length = some r)
def crIs (t : State) (re im : F64) : Bool := decide (t.cr = ⟨re, im⟩)

/-! ### The commands (95_test_vectors.md section 2) -/

/-- A28. -/
theorem test_nop : next (exec .nop (aluState C64.one C64.one f2)) (fun t => t.done && decide (t.cr = C64.zero)) = true := by
  decide +kernel

/-- F12: all three stages of a transform of length 8. -/
theorem test_fft_stages :
    next (exec .fft (xState 8#16 [real F64.one, real f2, real f3, real f4, real f5, real f6, real f7, real f8]))
      (fun t => xIs t
        [⟨0x4042000000000000#64, 0#64⟩, ⟨0xC010000000000000#64, 0x4023504F333F9DE6#64⟩,
         ⟨0xC010000000000001#64, 0x4010000000000000#64⟩, ⟨0xC010000000000002#64, 0x3FFA827999FCEF30#64⟩,
         ⟨0xC010000000000000#64, 0#64⟩, ⟨0xC00FFFFFFFFFFFFF#64, 0xBFFA827999FCEF30#64⟩,
         ⟨0xC00FFFFFFFFFFFFE#64, 0xC010000000000000#64⟩, ⟨0xC00FFFFFFFFFFFFB#64, 0xC023504F333F9DE6#64⟩]) = true := by
  decide +kernel

/-- F6: the zero signs of `cmul(ONE, ·)`. -/
theorem test_fft_zero_signs :
    next (exec .fft (xState 2#16 [⟨F64.negZero, F64.negZero⟩, ⟨F64.negZero, 0xBFF0000000000000#64⟩]))
      (fun t => xIs t [⟨F64.zero, 0xBFF0000000000000#64⟩, ⟨F64.negZero, F64.one⟩]) = true := by
  decide +kernel

/-- I6: the canonical variant on F3's output. -/
theorem test_ifft_cj :
    next (exec (.ifft true) (xState 4#16 [⟨0x4024000000000000#64, 0#64⟩, ⟨0xC000000000000000#64, f2⟩,
        ⟨0xC000000000000000#64, 0#64⟩, ⟨0xBFFFFFFFFFFFFFFF#64, 0xC000000000000000#64⟩]))
      (fun t => xIs t [⟨F64.one, F64.negZero⟩, ⟨f2, 0x3C5A62633145C070#64⟩, ⟨f3, F64.zero⟩,
        ⟨f4, 0xBC5A62633145C070#64⟩]) = true := by
  decide +kernel

/-- I11: the smallest subnormal halves to a tie and rounds to `+0`. -/
theorem test_ifft_subnormal :
    next (exec (.ifft false) (xState 2#16 [real 1#64, C64.zero]))
      (fun t => xIs t [C64.zero, ⟨F64.zero, F64.negZero⟩]) = true := by
  decide +kernel

/-- M2: both ends of the band are inclusive. -/
theorem test_bpmask_inclusive :
    next (exec .bpmask { xState 4#16 [⟨F64.one, f8⟩, ⟨f2, f7⟩, ⟨f3, f6⟩, ⟨f4, f5⟩] with bandLo := quarter, bandHi := half })
      (fun t => xIs t [C64.zero, ⟨f2, f7⟩, ⟨f3, f6⟩, C64.zero]) = true := by
  decide +kernel

/-- M10: a NaN bin outside the band is replaced. -/
theorem test_bpmask_nan :
    next (exec .bpmask { xState 2#16 [⟨0x7FF8000000000000#64, F64.one⟩, ⟨f2, f2⟩] with bandLo := half, bandHi := F64.one })
      (fun t => xIs t [C64.zero, ⟨f2, f2⟩]) = true := by
  decide +kernel

/-- L3: an asymmetric band. -/
theorem test_filter :
    next (exec (.filter false) { xState 4#16 [real F64.one, real f2, real f3, real f4] with bandHi := quarter })
      (fun t => xIs t [⟨f2, 0xBFE0000000000000#64⟩, ⟨f2, 0x3FDFFFFFFFFFFFFF#64⟩, ⟨f3, half⟩,
        ⟨f3, 0xBFDFFFFFFFFFFFFF#64⟩] && outIs t [f2, f2, f3, f3]) = true := by
  decide +kernel

/-- L12: length 1. -/
theorem test_filter_one :
    next (exec (.filter false) { xState 1#16 [⟨0x4004000000000000#64, f7⟩] with bandHi := F64.one })
      (fun t => xIs t [⟨0x4004000000000000#64, 0xC01C000000000000#64⟩] && outIs t [0x4004000000000000#64]) = true := by
  decide +kernel

/-- R1. -/
theorem test_r2c :
    next (exec .r2c (winState 2#16 [F64.negZero, 0x400C000000000000#64]))
      (fun t => xIs t [⟨F64.negZero, F64.zero⟩, real 0x400C000000000000#64] &&
        winIs t [F64.negZero, 0x400C000000000000#64]) = true := by
  decide +kernel

/-- R3: a signalling NaN is copied as it is. -/
theorem test_c2r :
    next (exec .c2r (xState 2#16 [⟨0x3FF8000000000000#64, 0x7E37E43C8800759C#64⟩, ⟨0x7FF4000000000000#64, f2⟩]))
      (fun t => outIs t [0x3FF8000000000000#64, 0x7FF4000000000000#64]) = true := by
  decide +kernel

/-- R10. -/
theorem test_denoise :
    next (exec (.denoise true) { winState 4#16 [F64.one, f2, f3, f4] with bandHi := F64.one })
      (fun t => outIs t [F64.one, f2, f3, f4] && xIs t [⟨F64.one, F64.negZero⟩, ⟨f2, 0x3C5A62633145C070#64⟩,
        ⟨f3, F64.zero⟩, ⟨f4, 0xBC5A62633145C070#64⟩]) = true := by
  decide +kernel

/-- R9: the reset band passes bin 0 alone. -/
theorem test_denoise_dc :
    next (exec (.denoise false) (winState 4#16 [F64.one, F64.one, F64.one, f5]))
      (fun t => outIs t [f2, f2, f2, f2]) = true := by
  decide +kernel

/-- R7: elements from N on are untouched. -/
theorem test_wpush :
    next (exec .wpush { winState 2#16 [F64.one, f2, f3, f4] with sample := f8 })
      (fun t => winIs t [f2, f8, f3, f4]) = true := by
  decide +kernel

/-- R5. -/
theorem test_wpush_one :
    next (exec .wpush { winState 1#16 [F64.one] with sample := f7 }) (fun t => winIs t [f7]) = true := by
  decide +kernel

/-- A1. -/
theorem test_cadd :
    next (exec .cadd (aluState ⟨F64.one, f2⟩ ⟨f3, 0xC000000000000000#64⟩ 0#64)) (fun t => crIs t f4 F64.zero) = true := by
  decide +kernel

/-- A2. -/
theorem test_cadd_zero_signs :
    next (exec .cadd (aluState ⟨F64.negZero, F64.negZero⟩ ⟨F64.negZero, F64.zero⟩ 0#64))
      (fun t => crIs t F64.negZero F64.zero) = true := by
  decide +kernel

/-- A3. -/
theorem test_csub :
    next (exec .csub (aluState ⟨F64.one, f2⟩ ⟨F64.one, f2⟩ 0#64)) (fun t => crIs t F64.zero F64.zero) = true := by
  decide +kernel

/-- The zero differences of R154. -/
theorem test_csub_zero_signs :
    next (exec .csub (aluState ⟨F64.negZero, F64.zero⟩ ⟨F64.zero, F64.zero⟩ 0#64))
      (fun t => crIs t F64.negZero F64.zero) = true := by
  decide +kernel

/-- A5. -/
theorem test_cmul :
    next (exec .cmul (aluState ⟨F64.one, f2⟩ ⟨f3, f4⟩ 0#64))
      (fun t => crIs t 0xC014000000000000#64 0x4024000000000000#64) = true := by
  decide +kernel

/-- A8: the real part overflows to `+∞` before the sum. -/
theorem test_cmul_overflow :
    next (exec .cmul (aluState ⟨0x6974E718D7D7625A#64, 0x6974E718D7D7625A#64⟩
      ⟨0x6974E718D7D7625A#64, 0xE974E718D7D7625A#64⟩ 0#64)) (fun t => decide (t.cr.re = F64.posInf)) = true := by
  decide +kernel

/-- A12. -/
theorem test_cdivr :
    next (exec .cdivr (aluState (real F64.one) C64.zero f3))
      (fun t => crIs t 0x3FD5555555555555#64 F64.zero) = true := by
  decide +kernel

/-- A13: division by zero. -/
theorem test_cdivr_zero :
    next (exec .cdivr (aluState ⟨F64.one, 0xBFF0000000000000#64⟩ C64.zero F64.zero))
      (fun t => crIs t F64.posInf 0xFFF0000000000000#64) = true := by
  decide +kernel

/-- A17. -/
theorem test_cconj :
    next (exec .cconj (aluState (real F64.one) C64.zero 0#64)) (fun t => crIs t F64.one F64.negZero) = true := by
  decide +kernel

/-- A19. -/
theorem test_cmag :
    next (exec .cmag (aluState ⟨f3, f4⟩ C64.zero 0#64)) (fun t => crIs t f5 F64.zero) = true := by
  decide +kernel

/-- A20: an infinite part beside a NaN. -/
theorem test_cmag_inf :
    next (exec .cmag (aluState ⟨F64.posInf, 0x7FF8000000000000#64⟩ C64.zero 0#64))
      (fun t => crIs t F64.posInf F64.zero) = true := by
  decide +kernel

/-- A22: `(y, x)` order, a quarter turn; and on a part with a MAG_FN of its own, whose PHASE_FN is still the default
(R10). -/
theorem test_cphase :
    next (exec .cphase (aluState ⟨F64.zero, F64.one⟩ C64.zero 0#64))
      (fun t => crIs t 0x3FF921FB54442D18#64 F64.zero) = true ∧
    next (exec .cphase { aluState ⟨F64.zero, F64.one⟩ C64.zero 0#64 with params := { Params.standard with magFn := .part } })
      (fun t => crIs t 0x3FF921FB54442D18#64 F64.zero) = true := by
  decide +kernel

/-- A24: the sign of a zero selects the half turn. -/
theorem test_cphase_neg :
    next (exec .cphase (aluState ⟨0xBFF0000000000000#64, F64.negZero⟩ C64.zero 0#64))
      (fun t => crIs t 0xC00921FB54442D18#64 F64.zero) = true := by
  decide +kernel

/-- T5. -/
theorem test_twgen :
    next (exec (.twgen 4#4 7#16) State.reset)
      (fun t => crIs t 0xBFED906BCF328D47#64 0xBFD87DE2A6AEA960#64) = true := by
  decide +kernel

/-- T12 as a completion step: the fields are checked. -/
theorem test_twgen_out_of_range :
    next (exec (.twgen 2#4 2#16) State.reset) (fun t => t.err && decide (t.ecode = 4#8)) = true := by
  decide +kernel

/-- T6. -/
theorem test_ctwmul :
    next (exec (.ctwmul 3#4 1#16) (aluState (real F64.one) C64.zero 0#64))
      (fun t => crIs t 0x3FE6A09E667F3BCD#64 0xBFE6A09E667F3BCC#64) = true := by
  decide +kernel

/-- T7: ONE times an infinity; the imaginary part. -/
theorem test_ctwmul_inf :
    next (exec (.ctwmul 3#4 0#16) (aluState ⟨F64.one, F64.posInf⟩ C64.zero 0#64))
      (fun t => decide (t.cr.im = F64.posInf)) = true := by
  decide +kernel

/-- T9. -/
theorem test_bfly :
    next (exec (.bfly 2#4 1#16) (aluState (real F64.one) ⟨F64.zero, F64.one⟩ 0#64))
      (fun t => crIs t f2 0x3C91A62633145C07#64 && decide (t.cs = ⟨F64.zero, 0xBC91A62633145C07#64⟩)) = true := by
  decide +kernel

/-- T10. -/
theorem test_bfly_drift :
    next (exec (.bfly 2#4 1#16) (aluState (real 0xC000000000000000#64) (real 0xC000000000000000#64) 0#64))
      (fun t => crIs t 0xC000000000000000#64 f2 &&
        decide (t.cs = ⟨0xBFFFFFFFFFFFFFFF#64, 0xC000000000000000#64⟩)) = true := by
  decide +kernel

/-! ### Host accesses, errors and resets (95_test_vectors.md sections 2.6 and 2.7), one step each -/

/-- E1. -/
theorem test_bad_length :
    next (hostWrite 0x018#18 4 0x1#64 { State.reset with nlen := 3#16 })
      (fun t => decide (t.statusWord = 0x0000000000000304#64)) = true := by
  decide +kernel

/-- E2. -/
theorem test_length_above_max :
    next (hostWrite 0x018#18 8 0x1#64 { State.reset with nlen := 2048#16 })
      (fun t => decide (t.statusWord = 0x0000000000000304#64)) = true := by
  decide +kernel

/-- E6, with ECODE already set as in E13. -/
theorem test_first_error_kept :
    next (hostWrite 0x018#18 4 0x1B#64 { State.reset with err := true, ecode := 3#8 })
      (fun t => decide (t.statusWord = 0x0000000000000304#64)) = true := by
  decide +kernel

/-- A busy core: FILTER accepted with N = 4, as in S5. -/
def busyState : State :=
  { xState 4#16 [real F64.one, real f2, real f3, real f4] with
    engine := some ⟨0x00000004#32, 4#16⟩, cmdword := 0x00000004#32, lastop := 4#8 }

/-- E16. -/
theorem test_cmd_while_busy :
    next (hostWrite 0x018#18 4 0x1#64 busyState)
      (fun t => decide (t.statusWord = 0x0000000000040505#64) && decide (t.cmdword = 4#32)) = true := by
  decide +kernel

/-- E17: the data is unspecified. -/
theorem test_access_while_busy :
    next (hostRead 0x30000#18 8 busyState) (fun t => decide (t.statusWord = 0x0000000000040605#64)) = true := by
  decide +kernel

/-- E20, E21. -/
theorem test_bus_errors :
    hostRead 0x088#18 8 State.reset = .next { State.reset with resp := some (.readError 0#64) } ∧
    hostWrite 0x20004#18 8 1#64 State.reset = .next { State.reset with resp := some .writeError } := ⟨rfl, rfl⟩

/-- S1: ID reads 0x000A00014B525446. -/
theorem test_id :
    hostRead 0x000#18 8 State.reset = .next { State.reset with resp := some (.readOk 0x000A00014B525446#64) } := by rfl

/-- S2. -/
theorem test_unwritten_read : hostRead 0x20000#18 8 State.reset = .fault .unwrittenRead := by rfl

/-- S4: SRST wins over IE. -/
theorem test_soft_reset :
    next (hostWrite 0x008#18 8 0x3#64 busyState)
      (fun t => !t.ie && decide (t.nlen = 0#16) && !t.busy && decide (readElem t.mem xBase = none) &&
        decide (readElem t.mem (xBase + 64) = none)) = true := by
  decide +kernel

/-- R84: the sign bit of an f64 is bit 31 of the access at o + 4. -/
theorem test_half_write :
    next (hostWrite 0x3C#18 4 0x80000000#64 { State.reset with sample := F64.one })
      (fun t => decide (t.sample = 0x8000000000000000#64)) = true := by
  decide +kernel

/-- R118, R119, and the layout of R81: the accesses of `run filter` and of `clrst`, and of P2's `denoise` with the
host's wait for irq before it reads OUT[0]. -/
theorem test_host_lines :
    (HostLine.run (.filter false) 0).events = [.write 0x018#18 4 4#64, .engine, .read 0x010#18 8] ∧
    HostLine.clrst.events = [.write 0x010#18 8 6#64] ∧
    (State.reset.withProgram [.command (.denoise false), .wait, .rd (.out 0)]).inputs =
      [.write 0x018#18 4 7#64, .engine, .read 0x30000#18 8] := ⟨rfl, rfl, rfl⟩

/-- The step that follows `withFetchWord` runs the word: `cadd` after reset. -/
theorem test_fetch_word :
    next (step (State.reset.withFetchWord 32 0x10)) (fun t => t.done && !t.err && !t.busy) = true := by
  decide +kernel

/-! ### Witnesses: for each statement with hypotheses, states and operands that meet them, its clauses apart -/

/-- A next state with a property. -/
theorem exists_of_next {r : Result} {p : State → Bool} (h : next r p = true) : ∃ t, r = .next t ∧ p t = true := by
  cases r with
  | next t => exact ⟨t, rfl, h⟩
  | fault f => cases h
  | refused f => cases h

/-- A host write always answers. -/
theorem write_answers (s : State) (o : BitVec 18) (width : Nat) (d : BitVec 64) : ∃ t, hostWrite o width d s = .next t := by
  rcases hostWrite_cases s o width d with e | ⟨_, e⟩ | ⟨_, _, _, _, e⟩ <;> exact ⟨_, e⟩

/-- The part with N_MAX = 2, so that N = 2 is the greatest legal length. -/
def small : Params := ⟨⟨1, by decide⟩, .default, .default⟩

/-- Legal lengths: 0, and 2 = N_MAX of the small part; N_MAX of the default part. -/
theorem lengthOk_zero (p : Params) : lengthOk p 0#16 := .inl rfl
theorem lengthOk_small : lengthOk small 2#16 := .inr ⟨1, by decide, by decide⟩
theorem lengthOk_max : lengthOk Params.standard 1024#16 := .inr ⟨10, by decide, by decide⟩

theorem not_lengthOk_of {p : Params} {n : BitVec 16} (h0 : n ≠ 0#16) (h : ∀ k < 16, n.toNat ≠ 2 ^ k ∨ p.log2nMax.val < k) :
    ¬ lengthOk p n := by
  rintro (h1 | ⟨k, hk, h1⟩)
  · exact h0 h1
  · have := p.log2nMax.property.2
    rcases h k (by omega) with h | h
    · exact h h1
    · omega

/-- Lengths that are not legal: 3, and 2048 = 2 N_MAX. -/
theorem not_lengthOk_three : ¬ lengthOk Params.standard 3#16 := not_lengthOk_of (by decide) (by decide)
theorem not_lengthOk_above : ¬ lengthOk Params.standard 2048#16 := not_lengthOk_of (by decide) (by decide)

/-- Twiddle fields at both ends of their ranges, and just outside them. -/
theorem twiddleOk_least : twiddleOk Params.standard 1#4 0#16 := by unfold twiddleOk; decide
theorem twiddleOk_greatest : twiddleOk Params.standard 10#4 511#16 := by unfold twiddleOk; decide
theorem not_twiddleOk_stage_zero : ¬ twiddleOk Params.standard 0#4 0#16 := by unfold twiddleOk; decide
theorem not_twiddleOk_stage : ¬ twiddleOk Params.standard 11#4 0#16 := by unfold twiddleOk; decide
theorem not_twiddleOk_index : ¬ twiddleOk Params.standard 10#4 512#16 := by unfold twiddleOk; decide

theorem witness_DecodedWordIsItsEncoding :
    decode 0xFFFFF01A#32 = .ok (.bfly 15#4 0xFFFF#16) ∧ decode 0x00000107#32 = .ok (.denoise true) ∧
    decode 0x00000008#32 = .ok .wpush := ⟨rfl, rfl, rfl⟩

theorem witness_WordsThatAreNoCommand :
    State.reset.busy = false ∧ decode 0x00000009#32 = .error .illegalOpcode ∧
    decode 0x0000000F#32 = .error .illegalOpcode ∧ decode 0x000000FF#32 = .error .illegalOpcode ∧
    decode 0x80000016#32 = .error .reservedField ∧ decode 0x00000202#32 = .error .reservedField ∧
    decode 0x80000107#32 = .error .reservedField ∧ decode 0x00000818#32 = .error .reservedField :=
  ⟨rfl, rfl, rfl, rfl, rfl, rfl, rfl, rfl⟩

/-- An idle core with N = N_MAX; a sequence, a twiddle and an operand command. -/
theorem witness_AcceptanceEffect :
    (xState 1024#16 []).busy = false ∧ decode 0x00000001#32 = .ok .fft ∧ Instr.isSequence .fft ∧
    lengthOk (xState 1024#16 []).params (xState 1024#16 []).nlen ∧
    decode 0x01FFA018#32 = .ok (.twgen 10#4 511#16) ∧ (Instr.twgen 10#4 511#16).format = .tw ∧
    twiddleOk (xState 1024#16 []).params 10#4 511#16 ∧
    decode 0x00000010#32 = .ok .cadd ∧ ¬ Instr.isSequence .cadd ∧ Instr.cadd.format ≠ .tw :=
  ⟨rfl, rfl, .inl rfl, lengthOk_max, rfl, rfl, twiddleOk_greatest, rfl, by simp [Instr.isSequence, Instr.format], by decide⟩

theorem witness_LengthAndTwiddleChecks :
    State.reset.busy = false ∧ Instr.isSequence (.filter true) ∧
    lengthOk State.reset.params State.reset.nlen ∧
    (xState 2048#16 []).busy = false ∧ ¬ lengthOk (xState 2048#16 []).params (xState 2048#16 []).nlen ∧
    (Instr.bfly 10#4 511#16).format = .tw ∧ twiddleOk State.reset.params 10#4 511#16 ∧
    ¬ twiddleOk State.reset.params 10#4 512#16 ∧ ¬ twiddleOk State.reset.params 11#4 0#16 ∧
    ¬ twiddleOk State.reset.params 0#4 0#16 ∧ Instr.nop.format = .op :=
  ⟨rfl, .inr rfl, .inl rfl, rfl, not_lengthOk_above, rfl, twiddleOk_greatest, not_twiddleOk_index, not_twiddleOk_stage,
    not_twiddleOk_stage_zero, rfl⟩

theorem witness_CmdWritePresents : State.reset.rstN = true ∧ busyState.rstN = true ∧ busyState.busy = true :=
  ⟨rfl, rfl, rfl⟩

/-- A latched command, with the engine's turn next by an event and by none; each other event; an idle engine and one
under reset; a latched word that is no command. -/
theorem witness_StepRunsLatchedCommand :
    (busyState.rstN = true ∧ busyState.engine = some ⟨0x00000004#32, 4#16⟩ ∧
      decode 0x00000004#32 = .ok (.filter false) ∧ busyState.inputs = [] ∧
      { busyState with inputs := [.engine] }.inputs = .engine :: []) ∧
    (State.reset.withProgram [.wr (.reg .nlen) 4#64, .rd (.reg .id)]).inputs =
      .write 0x020#18 8 4#64 :: [.read 0x000#18 8] ∧
    (State.reset.withProgram [.rd (.reg .id)]).inputs = .read 0x000#18 8 :: [] ∧
    { busyState with inputs := [.resetLow, .resetHigh] }.inputs = .resetLow :: [.resetHigh] ∧
    { busyState with inputs := [.resetHigh] }.inputs = .resetHigh :: [] ∧
    State.reset.engine = none ∧ State.reset.inputs = [] ∧ busyState.powerDown.rstN = false ∧
    decode 0x00000009#32 = .error .illegalOpcode :=
  ⟨⟨rfl, rfl, rfl, rfl, rfl⟩, rfl, rfl, rfl, rfl, rfl, rfl, rfl, rfl⟩

/-- A host write is the step's effect: NLEN takes the value (R34), and the event is consumed. -/
theorem test_step_host_write :
    next (step (State.reset.withProgram [.wr (.reg .nlen) 4#64, .rd (.reg .id)]))
      (fun t => decide (t.nlen = 4#16) && decide (t.inputs = [.read 0x000#18 8])) = true := by
  decide +kernel

theorem witness_MagnitudeAndPhaseSpecialValues :
    isInf 0xFFF0000000000000#64 = true ∧ isNaN 0x7FF0000000000001#64 = true ∧
    isFinite 0x7FEFFFFFFFFFFFFF#64 = true ∧ isZero F64.negZero = true ∧ isZero F64.zero = true ∧
    isNaN F64.posInf = false ∧ f64Sign F64.negZero = true ∧ f64Sign F64.posInf = false := by
  decide

/-- The greatest finite value, twice, overflows. -/
theorem witness_HypotIsNearest_overflow : isFinite (hypot64 0x7FEFFFFFFFFFFFFF#64 0x7FEFFFFFFFFFFFFF#64) = false := by
  rw [hypot64, if_neg (by decide), if_neg (by decide), ← Bool.not_eq_true, isFinite_roundSqrt_iff]
  decide +kernel

/-- hypot(3, 4) = 5, with a value above and one below; and the least magnitudes. -/
theorem witness_HypotIsNearest :
    isFinite 0x7FEFFFFFFFFFFFFF#64 = true ∧
    isFinite f3 = true ∧ isFinite f4 = true ∧ isFinite f6 = true ∧ isFinite (hypot64 f3 f4) = true ∧
    magUnits (hypot64 f3 f4) < magUnits f6 ∧ magUnits f4 < magUnits (hypot64 f3 f4) ∧
    isFinite (hypot64 1#64 1#64) = true ∧ magUnits (hypot64 1#64 1#64) < magUnits 2#64 := by
  decide +kernel

/-- The chain of R183 itself, for the ROM of the state, at both ends of the fields. -/
theorem witness_TwiddleCommandsComplete :
    twiddleOk State.reset.params 1#4 0#16 ∧ twiddleOk State.reset.params 10#4 511#16 ∧
    (twChain (State.reset.twrom[(10#4).toNat]'(10#4).isLt) 0 = ⟨0x3FF0000000000000#64, 0#64⟩) ∧
    (∀ k, twChain (State.reset.twrom[(10#4).toNat]'(10#4).isLt) (k + 1) =
      cmul (twChain (State.reset.twrom[(10#4).toNat]'(10#4).isLt) k) (State.reset.twrom[(10#4).toNat]'(10#4).isLt)) :=
  ⟨twiddleOk_least, twiddleOk_greatest, rfl, fun _ => rfl⟩

theorem witness_FftRecursion :
    ([] : List C64).length ≤ 1 ∧ [C64.one].length ≤ 1 ∧ [C64.one, real f2].length = 2 ^ (0 + 1) ∧
    (fft (fun _ => C64.zero) [C64.one])[0]? = some C64.one ∧
    (fft (fun _ => C64.zero) [real f2])[0]? = some (real f2) := ⟨by decide, by decide, rfl, rfl, rfl⟩

/-- Two elements of X on the part with N_MAX = 2. -/
def fullX : State := { xState 2#16 [C64.one, ⟨f2, f3⟩] with params := small }

/-- Two samples of WIN on that part. -/
def fullWin : State := { winState 2#16 [F64.one, f2] with params := small }

/-- The hypotheses of the statements on FFT, IFFT, BPMASK, FILTER and C2R, for N = N_MAX and N = 0. -/
theorem witness_x :
    (lengthOk fullX.params fullX.cmdLen ∧ [C64.one, ⟨f2, f3⟩].length = fullX.cmdLen.toNat ∧
      fullX.xHolds [C64.one, ⟨f2, f3⟩] ∧
      (∀ k, k < [F64.one, f2].length → readElem fullX.mem (xBase + 16 * k) = [F64.one, f2][k]?)) ∧
    (lengthOk State.reset.params State.reset.cmdLen ∧ ([] : List C64).length = State.reset.cmdLen.toNat ∧
      State.reset.xHolds []) := by
  refine ⟨⟨lengthOk_small, rfl, ?_, by decide +kernel⟩, lengthOk_zero _, rfl, ?_⟩
  · unfold State.xHolds; decide +kernel
  · intro k hk; cases hk

/-- The hypotheses of the statements on R2C, DENOISE and WPUSH, for N = N_MAX and N = 0. -/
theorem witness_win :
    (lengthOk fullWin.params fullWin.cmdLen ∧ [F64.one, f2].length = fullWin.cmdLen.toNat ∧
      fullWin.winHolds [F64.one, f2] ∧ 0 + 1 < [F64.one, f2].length) ∧
    (lengthOk State.reset.params State.reset.cmdLen ∧ ([] : List F64).length = State.reset.cmdLen.toNat ∧
      State.reset.winHolds []) := by
  refine ⟨⟨lengthOk_small, rfl, ?_, by decide⟩, lengthOk_zero _, rfl, ?_⟩
  · unfold State.winHolds; decide +kernel
  · intro k hk; cases hk

theorem witness_ZeroLengthTouchesNothing :
    Instr.isSequence .fft ∧ Instr.isSequence (.denoise true) ∧ State.reset.cmdLen = 0#16 := ⟨.inl rfl, .inr rfl, rfl⟩

theorem witness_InvalidCommandsTurnedAway :
    Instr.isSequence .fft ∧ ¬ lengthOk (xState 3#16 []).params (xState 3#16 []).cmdLen ∧
    (Instr.bfly 0#4 0#16).format = .tw ∧ ¬ twiddleOk State.reset.params 0#4 0#16 ∧
    ¬ twiddleOk State.reset.params 10#4 512#16 :=
  ⟨.inl rfl, not_lengthOk_three, rfl, not_twiddleOk_stage_zero, not_twiddleOk_index⟩

/-- A legal length with nothing written, and with everything written but the last imaginary part. -/
theorem witness_UnwrittenOperandFaults :
    (lengthOk (xState 1024#16 []).params (xState 1024#16 []).cmdLen ∧ readElem (xState 1024#16 []).mem xBase = none) ∧
    lengthOk fullX.params { fullX with mem := eraseRange fullX.mem (xBase + 24) 8 }.cmdLen ∧
    readElem (eraseRange fullX.mem (xBase + 24) 8) (xBase + 16 * 1) = some f2 ∧
    readElem (eraseRange fullX.mem (xBase + 24) 8) (xBase + 16 * 1 + 8) = none :=
  ⟨⟨lengthOk_max, rfl⟩, lengthOk_small, by decide +kernel, by decide +kernel⟩

theorem wf_winState (n : BitVec 16) (w : List F64) : (winState n w).mem.wf := writeF64s_wf w .nil _

/-- DENOISE latched with the length NLEN holds. -/
def denoiseState : State := { winState 1#16 [f2] with engine := some ⟨0x00000107#32, 1#16⟩ }

/-- R2C, then FILTER, from an idle core with one sample written, and from one that has DENOISE latched. -/
theorem witness_DenoiseIsR2cThenFilter :
    ((winState 1#16 [f2]).mem.wf ∧ (winState 1#16 [f2]).cmdLen = (winState 1#16 [f2]).nlen ∧
      ∃ u v, exec .r2c (winState 1#16 [f2]) = .next u ∧ exec (.filter true) u = .next v) ∧
    (denoiseState.mem.wf ∧ denoiseState.cmdLen = denoiseState.nlen ∧
      ∃ u v, exec .r2c denoiseState = .next u ∧ exec (.filter true) u = .next v) :=
  ⟨⟨wf_winState 1#16 [f2], rfl, _, _, rfl, rfl⟩, wf_winState 1#16 [f2], rfl, _, _, rfl, rfl⟩

theorem witness_InverseVariantsDifferInSign :
    outBase ≤ 0x30000 ∧
    (∃ t u, exec (.filter false) (xState 1#16 [C64.one]) = .next t ∧ exec (.filter true) (xState 1#16 [C64.one]) = .next u) ∧
    (∃ t u, exec (.denoise false) (winState 1#16 [f2]) = .next t ∧ exec (.denoise true) (winState 1#16 [f2]) = .next u) :=
  ⟨by decide, ⟨_, _, rfl, rfl⟩, _, _, rfl, rfl⟩

/-- 0, and the greatest numbers below 2^53 and 2^12. -/
theorem witness_BinFrequencyIsExact : 0 < 2 ^ 53 ∧ 2 ^ 53 - 1 < 2 ^ 53 ∧ 12 ≤ 12 ∧ 4095 < 2 ^ 12 ∧ 0 < 2 ^ 0 := by decide

/-- R15: 4096.0 is 0x40B0000000000000 and 3.0 is 0x4008000000000000, by their fields. -/
theorem test_i2f : i2f 4096 = 0x40B0000000000000#64 ∧ i2f 3 = f3 ∧ i2f 0 = 0#64 := by decide +kernel

/-- M7: infinite bounds of a band pass the bins. -/
theorem test_band_infinite :
    keepBin 0xFFF0000000000000#64 F64.posInf 4 0 = true ∧ keepBin 0xFFF0000000000000#64 F64.posInf 4 3 = true := by
  decide +kernel

/-- The greatest and the least bin; finite bounds, a NaN bound, a low bound above the high one. (The infinite bounds
are literals of the statement.) -/
theorem witness_BandIsInclusive :
    12 ≤ 12 ∧ 4095 < 2 ^ 12 ∧ 0 < 2 ^ 0 ∧ isFinite half = true ∧ isFinite F64.one = true ∧
    isNaN 0x7FF8000000000000#64 = true ∧ isNaN F64.posInf = false ∧ isNaN half = false ∧
    le64 F64.posInf half = false := by
  decide +kernel

/-- Finite operands: finite results, among them the least subnormal and the greatest finite value; zero sums; and
both sides of the overflow threshold, half a last place (2^970) above the greatest finite value. -/
theorem witness_SumIsNearestEven :
    isFinite f3 = true ∧ isFinite 1#64 = true ∧ isFinite 0x7FEFFFFFFFFFFFFF#64 = true ∧
    isFinite 0x7C90000000000000#64 = true ∧ isFinite 0x7C8FFFFFFFFFFFFF#64 = true ∧
    isFinite (sub64 1#64 f3) = true ∧ isFinite (add64 0x7FEFFFFFFFFFFFFF#64 0x7C8FFFFFFFFFFFFF#64) = true ∧
    isFinite (add64 0x7FEFFFFFFFFFFFFF#64 0x7C90000000000000#64) = false ∧
    isFinite (sub64 0xFFEFFFFFFFFFFFFF#64 0x7C90000000000000#64) = false ∧
    valUnits F64.negZero + valUnits F64.zero = 0 ∧ valUnits f3 - valUnits f3 = 0 := by
  decide +kernel

theorem witness_ProductIsNearestEven :
    isFinite f3 = true ∧ isFinite 1#64 = true ∧ isFinite 0x7FEFFFFFFFFFFFFF#64 = true ∧ isFinite f2 = true ∧
    isFinite (mul64 1#64 f3) = true ∧ isFinite (mul64 0x7FEFFFFFFFFFFFFF#64 F64.one) = true ∧
    isFinite (mul64 0x7FEFFFFFFFFFFFFF#64 f2) = false := by
  decide +kernel

theorem witness_QuotientIsNearestEven :
    isFinite f3 = true ∧ isFinite 1#64 = true ∧ isFinite 0x7FEFFFFFFFFFFFFF#64 = true ∧ isFinite half = true ∧
    isZero f3 = false ∧ isZero half = false ∧ isZero F64.one = false ∧ isFinite (div64 1#64 f3) = true ∧
    isFinite (div64 0x7FEFFFFFFFFFFFFF#64 F64.one) = true ∧ isFinite (div64 0x7FEFFFFFFFFFFFFF#64 half) = false := by
  decide +kernel

theorem witness_InvalidOperationsAndDivisionByZero :
    isNaN 0xFFF8000000000000#64 = true ∧ isInf F64.posInf = true ∧ isInf 0xFFF0000000000000#64 = true ∧
    f64Sign F64.posInf ≠ f64Sign 0xFFF0000000000000#64 ∧ f64Sign F64.posInf = f64Sign F64.posInf ∧
    isZero F64.negZero = true ∧ isNaN F64.posInf = false ∧ isZero F64.posInf = false ∧ isZero 1#64 = false ∧
    isNaN 1#64 = false ∧ isFinite 1#64 = true ∧ isFinite F64.negZero = true ∧ isFinite 0xFFEFFFFFFFFFFFFF#64 = true := by
  decide

theorem witness_MultiplyByOne : isFinite F64.negZero = true ∧ isFinite 0x7FEFFFFFFFFFFFFF#64 = true ∧
    f64Sign F64.negZero = true ∧ f64Sign F64.zero = false := by
  decide

/-- `rst_n` low; a width, a misalignment, and both ends of each reserved range of the default part. -/
theorem witness_BusErrorHasNoEffect :
    State.reset.powerDown.rstN = false ∧ (2 ≠ 4 ∧ 2 ≠ 8) ∧ (0x20004#18).toNat % 8 ≠ 0 ∧
    (0x088 ≤ (0x088#18).toNat ∧ (0x0F8#18).toNat < 0x100) ∧ (0x200 ≤ (0x200#18).toNat ∧ (0xFFF8#18).toNat < 0x10000) ∧
    (0x10000 + 8 * State.reset.params.nMax ≤ (0x12000#18).toNat ∧ (0x1FFF8#18).toNat < 0x20000) ∧
    (0x20000 + 16 * State.reset.params.nMax ≤ (0x24000#18).toNat ∧ (0x2FFF8#18).toNat < 0x30000) ∧
    0x30000 + 8 * State.reset.params.nMax ≤ (0x32000#18).toNat := by
  decide

/-- The last index of each range of the default part, and a located offset of each kind. -/
theorem witness_MapReachesEveryLocation :
    15 < 16 ∧ 1023 < Params.standard.nMax ∧ 0x080 % 8 = 0 ∧ locate Params.standard 0x080 = some (.reg .csIm) ∧
    locate Params.standard 0x1F8 = some (.rom 15 true) ∧ locate Params.standard 0x11FF8 = some (.win 1023) ∧
    locate Params.standard 0x23FF0 = some (.xRe 1023) ∧ locate Params.standard 0x23FF8 = some (.xIm 1023) ∧
    locate Params.standard 0x31FF8 = some (.out 1023) := by
  decide

/-- Reads of an idle and of a busy core: both ends of the ROM's valid rows; a written element, the last one of its
buffer, and an unwritten one; a read that answers, of a guarded place too. -/
theorem witness_reads :
    fullX.rstN = true ∧ fullX.busy = false ∧ busyState.rstN = true ∧ busyState.busy = true ∧
    1 ≤ busyState.params.log2nMax.val ∧ ¬ 11 ≤ busyState.params.log2nMax.val ∧ 1 < fullX.params.nMax ∧
    readElem fullX.mem (0x20008 + 16 * 1) = some f3 ∧ readElem fullX.mem (0x10000 + 8 * 1) = none ∧
    fullX.reads 0x20018#18 f3 ∧ fullX.reads 0x020#18 2#64 ∧ busyState.reads 0x010#18 0x00040001#64 := by
  refine ⟨rfl, rfl, rfl, rfl, by decide, by decide, by decide, by decide +kernel, by decide +kernel, rfl, rfl, rfl⟩

/-- The first and the last guarded offsets of each block. -/
theorem witness_GuardedAccessWhileBusy :
    busyState.rstN = true ∧ busyState.busy = true ∧ target busyState.params 0x01C#18 4 = some (.reg .cmd) ∧
    target busyState.params 0x100#18 8 = some (.rom 0 false) ∧ target busyState.params 0x1FC#18 4 = some (.rom 15 true) ∧
    target busyState.params 0x020#18 8 = some (.reg .nlen) ∧
    target busyState.params 0x084#18 4 = some (.reg .csIm) ∧ target busyState.params 0x10000#18 8 = some (.win 0) ∧
    target busyState.params 0x31FFC#18 4 = some (.out 1023) := by
  decide +kernel

/-- The first and the last offset of each range. -/
theorem witness_ReadBackAfterWrite :
    State.reset.rstN = true ∧ State.reset.busy = false ∧
    (∃ t, hostWrite 0x028#18 8 f2 State.reset = .next t) ∧ (∃ t, hostWrite 0x060#18 8 f2 State.reset = .next t) ∧
    (∃ t, hostWrite 0x10000#18 8 f2 State.reset = .next t) ∧ (∃ t, hostWrite 0x11FF8#18 8 f2 State.reset = .next t) ∧
    (∃ t, hostWrite 0x20000#18 8 f2 State.reset = .next t) ∧ (∃ t, hostWrite 0x23FF8#18 8 f2 State.reset = .next t) :=
  ⟨rfl, rfl, write_answers _ _ _ _, write_answers _ _ _ _, write_answers _ _ _ _, write_answers _ _ _ _,
    write_answers _ _ _ _, write_answers _ _ _ _⟩

/-- The first and the last element of each writable range, by the offset. -/
theorem witness_element_writes :
    State.reset.rstN = true ∧ State.reset.busy = false ∧ 0 < State.reset.params.nMax ∧ 1023 < State.reset.params.nMax ∧
    0x10000 ∈ [0x10000 + 8 * 0, 0x20000 + 16 * 0, 0x20008 + 16 * 0] ∧
    0x11FF8 ∈ [0x10000 + 8 * 1023, 0x20000 + 16 * 1023, 0x20008 + 16 * 1023] ∧
    0x20008 ∈ [0x10000 + 8 * 0, 0x20000 + 16 * 0, 0x20008 + 16 * 0] ∧
    0x23FF8 ∈ [0x10000 + 8 * 1023, 0x20000 + 16 * 1023, 0x20008 + 16 * 1023] := by
  decide +kernel

/-- A written element of X and a data register, each with its two halves written; an unwritten element. -/
theorem witness_HalfWriteKeepsOtherHalf :
    fullX.rstN = true ∧ fullX.busy = false ∧ readElem fullX.mem (0x10000 + 8 * 1) = none ∧
    hostRead 0x20018#18 8 fullX = .next { fullX with resp := some (.readOk f3) } ∧
    (∃ t, hostWrite 0x20018#18 4 7#64 fullX = .next t) ∧ (∃ t, hostWrite 0x2001C#18 4 7#64 fullX = .next t) ∧
    hostRead 0x060#18 8 fullX = .next { fullX with resp := some (.readOk 0#64) } ∧
    (∃ t, hostWrite 0x060#18 4 7#64 fullX = .next t) ∧ (∃ t, hostWrite 0x064#18 4 7#64 fullX = .next t) :=
  ⟨rfl, rfl, by decide +kernel, rfl, write_answers _ _ _ _, write_answers _ _ _ _, rfl, write_answers _ _ _ _,
    write_answers _ _ _ _⟩

theorem witness_ReadOnlyWritesIgnored :
    busyState.rstN = true ∧ busyState.busy = true ∧ target busyState.params 0x000#18 8 = some (.reg .id) ∧
    target busyState.params 0x100#18 8 = some (.rom 0 false) ∧ target busyState.params 0x1FC#18 4 = some (.rom 15 true) ∧
    State.reset.rstN = true ∧ State.reset.busy = false ∧ target State.reset.params 0x004#18 4 = some (.reg .id) ∧
    target State.reset.params 0x068#18 8 = some (.reg .crRe) ∧ target State.reset.params 0x1F8#18 8 = some (.rom 15 true) ∧
    target State.reset.params 0x30000#18 8 = some (.out 0) ∧ target State.reset.params 0x31FFC#18 4 = some (.out 1023) := by
  decide +kernel

/-- A busy core; a write of CTRL that sets IE alone, of either half, and writes elsewhere, with bit 1 set. -/
theorem witness_OperandsStableWhileBusy :
    busyState.busy = true ∧ busyState.rstN = true ∧ (0x008#18 = 0x008#18 → (1#64).getLsbD 1 = false) ∧
    (0x00C#18 = 0x008#18 → (3#64).getLsbD 1 = false) ∧ (0x010#18 = 0x008#18 → (6#64).getLsbD 1 = false) ∧
    (0x20000#18 = 0x008#18 → (2#64).getLsbD 1 = false) := by
  decide

theorem witness_SoftResetEffect :
    busyState.rstN = true ∧ (4 = 4 ∨ 4 = 8) ∧ (0x2#64).getLsbD 1 = true ∧ State.reset.engine = none ∧
    State.reset.rstN = true := ⟨rfl, .inl rfl, rfl, rfl, rfl⟩

theorem witness_AbandonedDestinationsUnwritten :
    busyState.engine = some ⟨0x00000004#32, 4#16⟩ ∧ decode 0x00000004#32 = .ok (.filter false) ∧
    inX 4 0x2003F ∧ inOut 4 0x30000 ∧ ¬ inX 4 0x20040 := by
  refine ⟨rfl, rfl, ?_, ?_, ?_⟩ <;> simp [inX, inOut, xBase, outBase]

theorem witness_PowerOnReset : busyState.powerDown.rstN = false ∧ busyState.powerDown.heldInReset :=
  ⟨rfl, fun _ => rfl⟩

theorem witness_InterruptFollowsStatus :
    (0x1#64).getLsbD 1 = false ∧ (0xFFFFFFFFFFFFFFFD#64).getLsbD 1 = false ∧
    State.reset.ie = false ∧ { State.reset with ie := true }.ie = true ∧
    (∃ t, exec .nop { State.reset with ie := true } = .next t) ∧ State.reset.rstN = true ∧
    (∃ u, hostWrite 0x010#18 8 6#64 State.reset = .next u) := ⟨rfl, rfl, rfl, rfl, ⟨_, rfl⟩, rfl, _, rfl⟩

/-- A core with one sample written and a host write of the next one pending. -/
def pendingWrite : State :=
  { State.reset with mem := writeElem [] winBase f2, inputs := [.write 0x10008#18 8 f3] }

theorem pendingWrite_next : ∃ t, step pendingWrite = .next t := ⟨_, rfl⟩

theorem witness_StepKeepsMemoryCanonical : pendingWrite.mem.wf ∧ ∃ t, step pendingWrite = .next t :=
  ⟨writeElem_wf .nil _ _, pendingWrite_next⟩

theorem witness_StepKeepsWrittenMarksWhole :
    pendingWrite.mem.wholeElements ∧ pendingWrite.memInBuffers ∧ ∃ t, step pendingWrite = .next t := by
  have key : ∀ a, (readByte pendingWrite.mem a).isSome → winBase ≤ a ∧ a < winBase + 8 := by
    intro a h
    by_contra hc
    have e : readByte pendingWrite.mem a = readByte [] a := readByte_writeElem_other [] winBase f2 a (by omega)
    rw [e] at h
    cases h
  refine ⟨fun a k h hk => ?_, fun a h => .inl ?_, pendingWrite_next⟩
  · obtain ⟨h1, h2⟩ := key a h
    rw [show 8 * (a / 8) = winBase by unfold winBase at *; omega]
    exact readByte_writeLE_isSome 8 [] winBase _ _ (by omega) (by omega)
  · obtain ⟨h1, h2⟩ := key a h
    exact ⟨h1, by have : pendingWrite.params.nMax = 1024 := rfl
                  omega⟩

/-- A busy core that shows its command, with a command presented to it pending. -/
def pendingCmd : State := { busyState with nlen := 4#16, inputs := [.write 0x018#18 4 1#64] }

theorem witness_StepKeepsLatchedCommandValid : pendingCmd.latchOk ∧ ∃ t, step pendingCmd = .next t := by
  refine ⟨fun l hl => ?_, _, rfl⟩
  cases hl
  exact ⟨⟨.filter false, rfl, rfl⟩, rfl, rfl, rfl, rfl⟩

theorem witness_StepKeepsErrorCode :
    pendingCmd.errorCodeOk ∧ { pendingCmd with err := true, ecode := 6#8 }.errorCodeOk ∧
    (∃ t, step pendingCmd = .next t) ∧ ∃ t, step { pendingCmd with err := true, ecode := 6#8 } = .next t :=
  ⟨⟨fun _ => rfl, fun h => by cases h⟩, by simp [State.errorCodeOk], ⟨_, rfl⟩, _, rfl⟩

theorem witness_StepKeepsResetHeld :
    pendingCmd.powerDown.heldInReset ∧ ∃ t, step pendingCmd.powerDown = .next t := ⟨fun _ => rfl, _, rfl⟩

theorem witness_PartNeverChanges : ∃ t, step pendingCmd = .next t := ⟨_, rfl⟩

theorem witness_AcceptedCommandCompletes :
    pendingCmd.latchOk ∧ pendingCmd.rstN = true ∧ pendingCmd.busy = true :=
  ⟨witness_StepKeepsLatchedCommandValid.1, rfl, rfl⟩

/-- A read of WIN[0] with nothing written; FFT latched with its only operand unwritten, with an event and with none;
a host write. -/
theorem witness_StepStopsOnlyOnUnwrittenReads :
    (State.reset.rstN = true ∧ target State.reset.params 0x10000#18 8 = some (.win 0) ∧
      ¬ (busyGuarded (.win 0) = true ∧ State.reset.busy = true) ∧ State.reset.readLoc (.win 0) = none ∧
      0x10000 ≤ (0x10000#18).toNat ∧ readElem State.reset.mem (8 * ((0x10000#18).toNat / 8)) = none) ∧
    (State.reset.inputs = [] ∧ { State.reset with inputs := [.engine] }.inputs = .engine :: [] ∧
      decode 0x00000001#32 = .ok .fft ∧ lengthOk State.reset.params 1#16 ∧
      operandUnwritten State.reset.mem (1#16).toNat .fft) ∧
    pendingWrite.inputs = .write 0x10008#18 8 f3 :: [] :=
  ⟨⟨rfl, by decide +kernel, by decide, rfl, by decide, rfl⟩,
    ⟨rfl, rfl, rfl, .inr ⟨0, by decide, rfl⟩, ⟨0, by decide, .inl rfl⟩⟩, rfl⟩

theorem witness_CommandsTouchOnlyFirstElements :
    (∃ t, exec .fft State.reset = .next t) ∧ ¬ inX State.reset.cmdLen.toNat xBase ∧
    ¬ inWin State.reset.cmdLen.toNat winBase ∧ ¬ inOut State.reset.cmdLen.toNat outBase := by
  refine ⟨⟨_, rfl⟩, ?_, ?_, ?_⟩ <;> simp [inX, inWin, inOut, State.reset, State.cmdLen]

/-- A window of one sample, beside one with a second, unread sample. -/
theorem witness_ElementsBeyondLengthNotRead :
    (∀ a, inX 1 a ∨ inWin 1 a ∨ inOut 1 a →
      readByte (writeElem (writeF64s [] winBase [f2]) (winBase + 8) f3) a = readByte (winState 1#16 [f2]).mem a) ∧
    (winState 1#16 [f2]).cmdLen.toNat = 1 ∧ (∃ t, exec .wpush (winState 1#16 [f2]) = .next t) ∧
    exec .fft (winState 1#16 [f2]) = .fault .unwrittenOperand := by
  refine ⟨fun a h => readByte_writeElem_other _ _ _ _ ?_, rfl, ⟨_, rfl⟩, rfl⟩
  simp only [inX, inWin, inOut, winBase, xBase, outBase] at *
  omega

end Sys2Proof.Tests
end

/-! SUPPORT. The statements of 00_scope.md: a step is its next event (R24, R93, R309), and `i2f` and the normalized
frequency of a bin are exact (R15, R241). -/

namespace Sys2Proof

/-! ### Exact conversion and division -/

/-- Scaling numerator and denominator alike changes no rounding to an integer. -/
theorem roundNearestEven_mul_right (num den : Nat) {c : Nat} (hc : 0 < c) :
    roundNearestEven (num * c) (den * c) = roundNearestEven num den := by
  have hgt : 2 * (num % den * c) > den * c ↔ 2 * (num % den) > den := by
    rw [← mul_assoc]; exact Nat.mul_lt_mul_right hc
  have heq : 2 * (num % den * c) = den * c ↔ 2 * (num % den) = den := by
    rw [← mul_assoc]; exact Nat.mul_left_inj hc.ne'
  simp only [roundNearestEven, Nat.mul_div_mul_right _ _ hc, Nat.mul_mod_mul_right, hgt, heq]

/-- `roundRat` depends on the fraction `num / den` alone, not on how it is written. -/
theorem roundRat_mul_right (s : Bool) (num den : Nat) {c : Nat} (hc : 0 < c) :
    roundRat s (num * c) (den * c) = roundRat s num den := by
  simp only [roundRat, Nat.mul_div_mul_right _ _ hc, Nat.mul_right_comm den c, roundNearestEven_mul_right _ _ hc]

theorem isNaN_of_isFinite {a : F64} (h : isFinite a = true) : isNaN a = false := by
  simp_all [isFinite, isNaN]

theorem isInf_of_isFinite {a : F64} (h : isFinite a = true) : isInf a = false := by
  simp_all [isFinite, isInf]

/-- The zeros are the patterns of magnitude 0. -/
theorem isZero_iff (a : F64) : isZero a = true ↔ magUnits a = 0 := by
  unfold isZero magUnits
  split <;> simp_all

/-- A quotient of finite operands with a non-zero divisor is the exact quotient, rounded once (R140). -/
theorem div64_of_isFinite {a b : F64} (ha : isFinite a = true) (hb : isFinite b = true) (hz : isZero b = false) :
    div64 a b = roundRat (f64Sign a != f64Sign b) (magUnits a * 2 ^ 1074) (magUnits b) := by
  simp only [div64, isNaN_of_isFinite ha, isNaN_of_isFinite hb, isInf_of_isFinite ha, isInf_of_isFinite hb, hz,
    Bool.and_false, Bool.or_false, Bool.false_eq_true, if_false]

@[simp] theorem f64Sign_i2f (i : Nat) : f64Sign (i2f i) = false := f64Sign_roundRat _ _ _

theorem isFinite_i2f {i : Nat} (hi : i < 2 ^ 53) : isFinite (i2f i) = true := (roundRat_exact false hi (by norm_num)).1

theorem magUnits_i2f {i : Nat} (hi : i < 2 ^ 53) : magUnits (i2f i) = i * 2 ^ 1074 :=
  (roundRat_exact false hi (by norm_num)).2

/-- Where the sign bit is clear the value is the magnitude. -/
theorem valUnits_of_f64Sign_false {a : F64} (h : f64Sign a = false) : valUnits a = magUnits a := by simp [valUnits, h]

/-- A number below 2^53 over a power of two is the fraction `i / 2^k`, whose significand is `i` at the place
`2^(1074 - k)`: the division rounds a value the format has. -/
theorem div64_i2f_two_pow {i k : Nat} (hi : i < 2 ^ 53) (hk : k < 53) :
    div64 (i2f i) (i2f (2 ^ k)) = roundRat false (i * 2 ^ (1074 - k)) 1 := by
  have hn : (2 : Nat) ^ k < 2 ^ 53 := Nat.pow_lt_pow_right (by norm_num) hk
  have hc : 0 < (2 : Nat) ^ k * 2 ^ 1074 := by positivity
  have hz : isZero (i2f (2 ^ k)) = false := by
    rw [← Bool.not_eq_true, isZero_iff, magUnits_i2f hn]; exact hc.ne'
  have hnum : i * 2 ^ 1074 * 2 ^ 1074 = i * 2 ^ (1074 - k) * (2 ^ k * 2 ^ 1074) := by
    rw [← mul_assoc, mul_assoc i (2 ^ (1074 - k)), pow_sub_mul_pow 2 (by omega)]
  calc div64 (i2f i) (i2f (2 ^ k))
      = roundRat false (i * 2 ^ 1074 * 2 ^ 1074) (2 ^ k * 2 ^ 1074) := by
        rw [div64_of_isFinite (isFinite_i2f hi) (isFinite_i2f hn) hz, magUnits_i2f hi, magUnits_i2f hn,
          f64Sign_i2f, f64Sign_i2f, bne_self_eq_false]
    _ = roundRat false (i * 2 ^ (1074 - k) * (2 ^ k * 2 ^ 1074)) (1 * (2 ^ k * 2 ^ 1074)) := by rw [hnum, Nat.one_mul]
    _ = roundRat false (i * 2 ^ (1074 - k)) 1 := roundRat_mul_right _ _ _ hc

/-- Settles O29: a number below 2^53, and one over a power of two, is a significand the format has, at a place it
has, so that the rounding is exact. -/
theorem binFrequencyIsExact : Obligations.BinFrequencyIsExact := by
  unfold Obligations.BinFrequencyIsExact
  refine ⟨fun i hi => ⟨isFinite_i2f hi, f64Sign_i2f i, ?_⟩, fun k i hk hik => ?_⟩
  · rw [valUnits_of_f64Sign_false (f64Sign_i2f i), magUnits_i2f hi, Nat.cast_mul, Nat.cast_pow, Nat.cast_ofNat]
  · have hi : i < 2 ^ 53 := hik.trans (Nat.pow_lt_pow_right (by norm_num) (by omega))
    have hval : ((i * 2 ^ (1074 - k) : Nat) : Int) * 2 ^ k = i * 2 ^ 1074 := by
      rw [Nat.cast_mul, Nat.cast_pow, Nat.cast_ofNat, mul_assoc, pow_sub_mul_pow 2 (by omega)]
    obtain ⟨hfin, hmag⟩ := roundRat_exact false hi (show 1074 - k ≤ 2045 by omega)
    rw [div64_i2f_two_pow hi (by omega), valUnits_of_f64Sign_false (f64Sign_roundRat _ _ _), hmag]
    exact ⟨hfin, hval⟩

end Sys2Proof

namespace Sys2Proof.Machine

/-! ### What a step is -/

section
variable {s : State}

/-- With no event pending a step is the engine's turn (log entry 10). -/
theorem step_of_inputs_nil (h : s.inputs = []) : step s = engineTurn s := by simp [step, h]

/-- A step consumes the next event and is what that event does. -/
theorem step_of_inputs_cons {e : HostEvent} {rest : List HostEvent} (h : s.inputs = e :: rest) :
    step s = handle e { s with inputs := rest } := by simp [step, h]

/-- An engine that is idle, or held in reset, does nothing at its turn. -/
theorem engineTurn_of_idle (h : s.rstN = false ∨ s.engine = none) : engineTurn s = .next s := by
  rcases h with h | h <;> simp [engineTurn, h]

/-- The engine's turn on a latched word that decodes is the completion step of the command (R309). -/
theorem engineTurn_of_decode_ok {l : Latched} {i : Instr} (hr : s.rstN = true) (hl : s.engine = some l)
    (hd : decode l.cmd = .ok i) : engineTurn s = exec i s := by simp [engineTurn, hr, hl, hd]

/-- The engine's turn on a latched word that is no command turns it away (log entry 4). -/
theorem engineTurn_of_decode_error {l : Latched} {e : ErrorCause} (hr : s.rstN = true) (hl : s.engine = some l)
    (hd : decode l.cmd = .error e) : engineTurn s = .next (s.turnAway e) := by simp [engineTurn, hr, hl, hd]

end

/-- Settles O8: each event by what it does, and the engine's turn, with an event pending or with none, by whether a
word is latched and decodes. -/
theorem stepRunsLatchedCommand : Obligations.StepRunsLatchedCommand := by
  unfold Obligations.StepRunsLatchedCommand
  intro s
  refine ⟨fun l i hr hl hd => ?ok, fun _ _ _ => step_of_inputs_cons, fun _ _ _ _ => step_of_inputs_cons,
    fun _ => step_of_inputs_cons, fun _ => step_of_inputs_cons, fun hidle => ?idle, fun l e hr hl hd => ?error⟩
  case ok =>
    exact ⟨fun h => (step_of_inputs_nil h).trans (engineTurn_of_decode_ok hr hl hd),
      fun _ h => (step_of_inputs_cons h).trans (engineTurn_of_decode_ok hr hl hd)⟩
  case idle =>
    exact ⟨fun h => (step_of_inputs_nil h).trans (engineTurn_of_idle hidle),
      fun _ h => (step_of_inputs_cons h).trans (engineTurn_of_idle hidle)⟩
  case error =>
    exact ⟨fun h => (step_of_inputs_nil h).trans (engineTurn_of_decode_error hr hl hd),
      fun _ h => (step_of_inputs_cons h).trans (engineTurn_of_decode_error hr hl hd)⟩

end Sys2Proof.Machine

/-! SUPPORT. The statements of 10_state.md: the invariants of ECODE, the part and reset, the registers under host
writes, the band of the mask, and the elements a command touches (R30 to R52). -/

namespace Sys2Proof

/-- The cause codes are 0x01 to 0x06 (R301). -/
theorem ErrorCause.code_bounds (e : ErrorCause) : 1 ≤ e.code.toNat ∧ e.code.toNat ≤ 6 := by cases e <;> decide

end Sys2Proof

namespace Sys2Proof.Machine

/-! ### ECODE follows ERR (R33, R301, R305) -/

section
variable {s t : State}

theorem errorCodeOk_of_err_false (he : s.err = false) (hc : s.ecode = 0x00#8) : s.errorCodeOk :=
  ⟨fun _ => hc, fun h => by simp [he] at h⟩

/-- The invariant speaks of ERR and ECODE alone. -/
theorem State.errorCodeOk.congr (h : s.errorCodeOk) (he : t.err = s.err) (hc : t.ecode = s.ecode) : t.errorCodeOk := by
  unfold State.errorCodeOk
  rw [he, hc]
  exact h

/-- Recording an error sets ERR with a code of R301: the first one's, or the new one's. -/
theorem State.errorCodeOk.raiseError (h : s.errorCodeOk) (e : ErrorCause) : (s.raiseError e).errorCodeOk := by
  refine ⟨fun he => by simp at he, fun _ => ?_⟩
  rw [State.raiseError_ecode]
  split
  · exact h.2 ‹_›
  · exact e.code_bounds

theorem State.errorCodeOk.turnAway (h : s.errorCodeOk) (e : ErrorCause) : (s.turnAway e).errorCodeOk :=
  (h.raiseError e).congr rfl rfl

/-- A write of STATUS clears ERR and ECODE together, or neither. -/
theorem State.errorCodeOk.writeStatus (h : s.errorCodeOk) (d e : Bool) : (s.writeStatus d e).errorCodeOk := by
  cases e
  · exact h.congr (by cases d <;> rfl) (by cases d <;> rfl)
  · exact errorCodeOk_of_err_false (by cases d <;> rfl) (by cases d <;> rfl)

/-- Presenting a word records an error or accepts, which keeps ERR and ECODE (R308). -/
theorem State.errorCodeOk.present (h : s.errorCodeOk) (w : BitVec 32) : (s.present w).errorCodeOk := by
  have hw : State.errorCodeOk { s with cmdword := w } := h
  rcases present_cases s w with ⟨_, e⟩ | ⟨_, c, e⟩ | ⟨_, i, _, _, e⟩ <;> rw [e]
  · exact h.raiseError _
  · exact hw.raiseError c
  · exact hw.congr rfl rfl

theorem LocWrite.errorCodeOk (hu : LocWrite s t) (h : s.errorCodeOk) : t.errorCodeOk := by
  cases hu with
  | nothing | ie | data | elem => exact h
  | soft => exact errorCodeOk_of_err_false rfl rfl
  | status d e => exact h.writeStatus d e
  | present w => exact h.present w

theorem State.errorCodeOk.exec {i : Instr} (h : s.errorCodeOk) (ht : exec i s = .next t) : t.errorCodeOk := by
  rcases exec_next ht with ⟨e, _, rfl⟩ | ⟨_, m, cr, cs, _, _, rfl⟩
  · exact h.turnAway e
  · exact h

theorem StepEffect.errorCodeOk (he : StepEffect s t) (h : s.errorCodeOk) : t.errorCodeOk := by
  cases he with
  | idle | answer | up => exact h
  | refusedRead | refusedWrite => exact h.raiseError .accessWhileBusy
  | write u _ hu => exact hu.errorCodeOk h
  | noCommand _ e => exact h.turnAway e
  | complete _ i _ _ _ _ ht => exact h.exec ht
  | down => exact errorCodeOk_of_err_false rfl rfl

end

/-- Settles O53: an error is recorded with a code of R301, kept or new, and cleared together with its code. -/
theorem stepKeepsErrorCode : Obligations.StepKeepsErrorCode := by
  unfold Obligations.StepKeepsErrorCode
  intro s t h hst
  obtain ⟨rest, he⟩ := step_effect hst
  have hs : State.errorCodeOk { s with inputs := rest } := h
  exact he.errorCodeOk hs

/-! ### The part never changes (R31, R42) -/

section
variable {s t : State}

/-- The two states are of one part: its parameters (R7, R10) and its ROM (R9). -/
def State.samePart (s t : State) : Prop := t.params = s.params ∧ t.twrom = s.twrom

theorem LocWrite.samePart (hu : LocWrite s t) : s.samePart t := by
  cases hu with
  | nothing | soft | ie | data | elem => exact ⟨rfl, rfl⟩
  | status d e => cases d <;> cases e <;> exact ⟨rfl, rfl⟩
  | present w =>
    rcases present_cases s w with ⟨_, e⟩ | ⟨_, _, e⟩ | ⟨_, _, _, _, e⟩ <;> rw [e] <;> exact ⟨rfl, rfl⟩

theorem samePart_of_exec {i : Instr} (h : exec i s = .next t) : s.samePart t := by
  rcases exec_next h with ⟨_, _, rfl⟩ | ⟨_, _, _, _, _, _, rfl⟩ <;> exact ⟨rfl, rfl⟩

theorem StepEffect.samePart (he : StepEffect s t) : s.samePart t := by
  cases he with
  | idle | answer | refusedRead | refusedWrite | noCommand | down | up => exact ⟨rfl, rfl⟩
  | write _ _ hu => exact hu.samePart
  | complete _ _ _ _ _ _ ht => exact samePart_of_exec ht

theorem State.samePart.idWord (h : s.samePart t) : t.idWord = s.idWord := by
  unfold State.idWord
  rw [h.1]

/-- TWROM as a stage reads it, LOG2N_MAX included, is the part's. -/
theorem State.samePart.rom (h : s.samePart t) (l : Nat) : t.rom l = s.rom l := by
  obtain ⟨hp, hr⟩ := h
  simp only [State.rom, hp, hr]

end

/-- Settles O56: ID and TWROM are read off the parameters and the ROM, which no effect of a step writes. -/
theorem partNeverChanges : Obligations.PartNeverChanges := by
  unfold Obligations.PartNeverChanges
  intro s t hst
  obtain ⟨rest, he⟩ := step_effect hst
  have hp : s.samePart t := he.samePart
  exact ⟨hp.1, hp.2, hp.idWord, hp.rom⟩

end Sys2Proof.Machine

namespace Sys2Proof.Machine

/-! ### What a host write of STATUS and of CTRL does (R32, R33) -/

section
variable {o : BitVec 18} {width : Nat}

/-- A write addresses the low bits of its location unless it is one of the upper half (R84). -/
theorem getLsbD_writeMask {i : Nat} (hi : i < 32) : (writeMask o width).getLsbD i = !upperHalf o width := by
  cases hu : upperHalf o width with
  | false => exact (getLsbD_writeLane 0#64 hu hi).2
  | true =>
    have hw : width ≠ 8 := by rintro rfl; cases hu
    have h0 : (0xFFFFFFFF00000000#64).getLsbD i = false := by interval_cases i <;> rfl
    rw [writeMask, if_neg hw, if_pos hu, h0, Bool.not_true]

/-- The low bits a write stores are those of the data, and none where it is one of the upper half. -/
theorem getLsbD_writeLane_and_writeMask {i : Nat} (d : BitVec 64) (hi : i < 32) :
    (writeLane o width d &&& writeMask o width).getLsbD i = (d.getLsbD i && !upperHalf o width) := by
  rw [BitVec.getLsbD_and, getLsbD_writeMask hi]
  cases hu : upperHalf o width with
  | false => rw [(getLsbD_writeLane d hu hi).1]
  | true => simp

variable {s : State}

/-- Where a location is not guarded (R306), it does not matter whether the engine is busy. -/
theorem not_guarded_busy {l : Loc} (h : busyGuarded l = false) : ¬ (busyGuarded l = true ∧ s.busy = true) :=
  fun hg => by simp [h] at hg

theorem writeStatus_eq (s : State) (d e : Bool) : s.writeStatus d e =
    { s with done := s.done && !d, err := s.err && !e, ecode := if e then 0x00#8 else s.ecode } := by
  cases d <;> cases e <;> simp [State.writeStatus, State.clearDone, State.clearError]

/-- A host write of STATUS clears as its bits 1 and 2 say, and nothing where it is one of the upper half. -/
theorem hostWrite_status (d : BitVec 64) (hr : s.rstN = true) (ht : target s.params o width = some (.reg .status)) :
    hostWrite o width d s = .next { s with
      done := s.done && !(d.getLsbD 1 && !upperHalf o width), err := s.err && !(d.getLsbD 2 && !upperHalf o width),
      ecode := (if d.getLsbD 2 && !upperHalf o width then 0x00#8 else s.ecode), resp := some .writeOk } := by
  rw [hostWrite_of_target d hr ht (not_guarded_busy rfl), State.writeLoc, State.writeReg, writeStatus_eq,
    getLsbD_writeLane_and_writeMask d (by decide), getLsbD_writeLane_and_writeMask d (by decide)]
  rfl

/-- A write of CTRL that does not set SRST stores IE, and nothing where it is one of the upper half. -/
theorem writeCtrl_of_not_srst (s : State) {d : BitVec 64} (h : upperHalf o width = true ∨ d.getLsbD 1 = false) :
    s.writeCtrl (writeMask o width) (writeLane o width d)
      = { s with ie := if upperHalf o width then s.ie else d.getLsbD 0 } := by
  have hs : (d.getLsbD 1 && !upperHalf o width) = false := by
    rcases h with h | h
    · rw [h, Bool.not_true, Bool.and_false]
    · rw [h, Bool.false_and]
  rw [State.writeCtrl, getLsbD_writeLane_and_writeMask d (by decide), getLsbD_writeMask (by decide), hs]
  cases hu : upperHalf o width with
  | false => rw [(getLsbD_writeLane d hu (by decide)).1]; rfl
  | true => rfl

theorem hostWrite_ctrl {d : BitVec 64} (hr : s.rstN = true) (ht : target s.params o width = some (.reg .ctrl))
    (h : upperHalf o width = true ∨ d.getLsbD 1 = false) :
    hostWrite o width d s =
      .next { s with ie := if upperHalf o width then s.ie else d.getLsbD 0, resp := some .writeOk } := by
  rw [hostWrite_of_target d hr ht (not_guarded_busy rfl), State.writeLoc, State.writeReg, writeCtrl_of_not_srst s h]
  rfl

end

/-- Settles O43: STATUS is not guarded, and each write reaches it with the bits 1 and 2 it addresses; a write of its
upper half addresses neither. -/
theorem statusWriteClears : Obligations.StatusWriteClears := by
  unfold Obligations.StatusWriteClears
  intro s d hr
  have whole := hostWrite_status (o := 0x010#18) (width := 8) d hr rfl
  have low := hostWrite_status (o := 0x010#18) (width := 4) d hr rfl
  have high := hostWrite_status (o := 0x014#18) (width := 4) d hr rfl
  rw [show upperHalf 0x010#18 8 = false from rfl, Bool.not_false, Bool.and_true, Bool.and_true] at whole
  rw [show upperHalf 0x010#18 4 = false from rfl, Bool.not_false, Bool.and_true, Bool.and_true] at low
  rw [show upperHalf 0x014#18 4 = true from rfl, Bool.not_true, Bool.and_false, Bool.and_false, Bool.not_false,
    Bool.and_true, Bool.and_true] at high
  exact ⟨whole, low.trans whole.symm, high⟩

/-- Settles O49: the writes of CTRL by `hostWrite_ctrl`, and the level by the fields that each operation leaves. -/
theorem interruptFollowsStatus : Obligations.InterruptFollowsStatus := by
  unfold Obligations.InterruptFollowsStatus
  intro s t u e d
  refine ⟨fun hr hd => ⟨hostWrite_ctrl hr rfl (.inr hd), hostWrite_ctrl hr rfl (.inr hd)⟩,
    fun hr => hostWrite_ctrl hr rfl (.inl rfl), ?level, ?disabled, ?error, ?nop, ?status⟩
  case level => simp [State.irq]
  case disabled => intro h; simp [State.irq, h]
  case error => intro h; simp [State.irq, h]
  case nop =>
    intro h
    cases h
    simp [State.irq]
  case status =>
    intro hr h
    rw [hostWrite_status _ hr rfl] at h
    cases h
    show (s.ie && (s.done && false || s.err && false)) = false
    simp

/-! ### What a running command reads stays (R48, R306) -/

section
variable {s : State}

/-- `t` differs from `s` at most in CTRL.IE, in the DONE, ERR and ECODE of STATUS, and in the answer to the host. -/
def State.operandsKept (s t : State) : Prop :=
  t = { s with ie := t.ie, done := t.done, err := t.err, ecode := t.ecode, resp := t.resp }

theorem State.operandsKept.engine {t : State} (h : s.operandsKept t) : t.engine = s.engine := by rw [h]

theorem State.operandsKept.respond {t : State} (h : s.operandsKept t) (r : BusResponse) :
    s.operandsKept (t.respond r) := by
  unfold State.operandsKept at h
  rw [h]
  rfl

/-- A write that reaches CTRL is one at CTRL's offset, or one of its upper half. -/
theorem upperHalf_of_target_ctrl {p : Params} {o : BitVec 18} {width : Nat}
    (ht : target p o width = some (.reg .ctrl)) :
    o = 0x008#18 ∨ upperHalf o width = true := by
  obtain ⟨hw, hm, -, -, ha⟩ := target_some ht
  have ha : 8 = 8 * (o.toNat / 8) := ha
  rcases eq_or_ne o.toNat 8 with h8 | h8
  · exact .inl (BitVec.eq_of_toNat_eq h8)
  · rcases hw with rfl | rfl
    · exact .inr (by simp only [upperHalf, beq_self_eq_true, Bool.true_and, beq_iff_eq]; omega)
    · omega

/-- While a command runs, a write of an unguarded location that does not set SRST keeps what the command reads: CMD
refuses the word, and CTRL and STATUS hold nothing of it. -/
theorem writeLoc_operandsKept {o : BitVec 18} {width : Nat} {l : Loc} {d : BitVec 64} (hb : s.busy = true)
    (ht : target s.params o width = some l) (hg : busyGuarded l = false) (hs : o = 0x008#18 → d.getLsbD 1 = false) :
    s.operandsKept (s.writeLoc l (writeMask o width) (writeLane o width d)) := by
  cases l with
  | rom _ _ => exact rfl
  | win _ | xRe _ | xIm _ | out _ => cases hg
  | reg r =>
    cases r with
    | id => exact rfl
    | ctrl =>
      have h := (upperHalf_of_target_ctrl ht).symm.imp_right hs
      show s.operandsKept (s.writeCtrl _ _)
      rw [writeCtrl_of_not_srst s h]
      rfl
    | status =>
      show s.operandsKept (s.writeStatus _ _)
      rw [writeStatus_eq]
      rfl
    | cmd =>
      have hp : ∀ w, s.present w = s.raiseError .cmdWhileBusy := fun w => by rw [State.present, if_pos hb]
      show s.operandsKept (s.writeCmd _ _)
      unfold State.writeCmd
      split
      · rw [hp]; rfl
      · rfl
    | nlen | bandLo | bandHi | sample | scalar | caRe | caIm | cbRe | cbIm | crRe | crIm | csRe | csIm => cases hg

end

/-- Settles O44: a write of a busy core gets BUS_ERROR, is refused with an error recorded, or reaches an unguarded
location. -/
theorem operandsStableWhileBusy : Obligations.OperandsStableWhileBusy := by
  unfold Obligations.OperandsStableWhileBusy
  intro s o width d hb hr hs
  have kept : ∃ t, hostWrite o width d s = .next t ∧ s.operandsKept t := by
    rcases hostWrite_cases s o width d with e | ⟨_, e⟩ | ⟨_, l, ht, hg, e⟩
    · exact ⟨_, e, rfl⟩
    · exact ⟨_, e, rfl⟩
    · have hl : busyGuarded l = false := by
        rw [← Bool.not_eq_true]
        exact fun h => by simp [hg h] at hb
      exact ⟨_, e, (writeLoc_operandsKept hb ht hl hs).respond _⟩
  obtain ⟨t, ht, hk⟩ := kept
  exact ⟨t, ht, hk.engine, by rw [State.busy, hk.engine]; exact hb, hk⟩

end Sys2Proof.Machine

namespace Sys2Proof.Machine

/-! ### Reading back what was written (R34, R36 to R39, R46, R84) -/

/-- The locations that hold what the host last wrote: the read-write data registers of 64 bits (R36 to R39) and the
elements of WIN and X (R43, R44). -/
def Loc.readWrite : Loc → Prop
  | .reg .bandLo | .reg .bandHi | .reg .sample | .reg .scalar => True
  | .reg .caRe | .reg .caIm | .reg .cbRe | .reg .cbIm => True
  | .win _ | .xRe _ | .xIm _ => True
  | _ => False

/-- The register in an 8-byte slot from BAND_LO's to CB.im's is a read-write data register. -/
theorem exists_reg_of_slot {k : Nat} (h1 : 5 ≤ k) (h2 : k < 13) : ∃ r, (Loc.reg r).readWrite ∧ r.slot = k := by
  interval_cases k
  exacts [⟨.bandLo, trivial, rfl⟩, ⟨.bandHi, trivial, rfl⟩, ⟨.sample, trivial, rfl⟩, ⟨.scalar, trivial, rfl⟩,
    ⟨.caRe, trivial, rfl⟩, ⟨.caIm, trivial, rfl⟩, ⟨.cbRe, trivial, rfl⟩, ⟨.cbIm, trivial, rfl⟩]

/-- An aligned offset in the ranges of the read-write data registers, of WIN or of X is that of such a location. -/
theorem exists_readWrite_of_offset {p : Params} {o : Nat} (h8 : o % 8 = 0)
    (h : (0x028 ≤ o ∧ o < 0x068) ∨ (0x10000 ≤ o ∧ o < 0x10000 + 8 * p.nMax) ∨
      (0x20000 ≤ o ∧ o < 0x20000 + 16 * p.nMax)) :
    ∃ l : Loc, l.readWrite ∧ l.inRange p ∧ l.addr = o := by
  rcases h with ⟨h1, h2⟩ | ⟨h1, h2⟩ | ⟨h1, h2⟩
  · obtain ⟨r, hw, hr⟩ := exists_reg_of_slot (k := o / 8) (by omega) (by omega)
    exact ⟨.reg r, hw, trivial, by rw [Loc.addr, hr]; omega⟩
  · exact ⟨.win ((o - 0x10000) / 8), trivial, by simp only [Loc.inRange]; omega,
      by simp only [Loc.addr, winBase]; omega⟩
  · by_cases hre : o % 16 = 0
    · exact ⟨.xRe ((o - 0x20000) / 16), trivial, by simp only [Loc.inRange]; omega,
        by simp only [Loc.addr, xBase]; omega⟩
    · exact ⟨.xIm ((o - 0x20000) / 16), trivial, by simp only [Loc.inRange]; omega,
        by simp only [Loc.addr, xBase]; omega⟩

section
variable {s : State} {l : Loc}

/-- An 8-byte write of an element puts the data there and draws no free value. -/
theorem writeBuffer_whole (s : State) (a : Nat) (d : BitVec 64) :
    s.writeBuffer a 0xFFFFFFFFFFFFFFFF#64 d = { s with mem := writeElem s.mem a d } := by
  obtain ⟨old, k, -, hk, -, e⟩ := writeBuffer_spec s a 0xFFFFFFFFFFFFFFFF#64 d
  rw [e, merge_whole, hk rfl]

/-- A read-write location holds the whole of what was written. -/
theorem readLoc_writeLoc_same (hw : l.readWrite) (d : BitVec 64) :
    (s.writeLoc l 0xFFFFFFFFFFFFFFFF#64 d).readLoc l = some d := by
  cases l with
  | rom _ _ | out _ => cases hw
  | win _ | xRe _ | xIm _ => simp only [State.writeLoc, writeBuffer_whole, State.readLoc, readElem_writeElem_same]
  | reg r =>
    cases r with
    | id | ctrl | status | cmd | nlen | crRe | crIm | csRe | csIm => cases hw
    | bandLo | bandHi | sample | scalar | caRe | caIm | cbRe | cbIm => exact congrArg some (merge_whole _ d)

/-- What decides where an access of the core goes, and whether it is let through, stays when data is written. -/
theorem writeLoc_readWrite_frame (hw : l.readWrite) (d : BitVec 64) :
    (s.writeLoc l 0xFFFFFFFFFFFFFFFF#64 d).params = s.params ∧
    (s.writeLoc l 0xFFFFFFFFFFFFFFFF#64 d).rstN = s.rstN ∧
    (s.writeLoc l 0xFFFFFFFFFFFFFFFF#64 d).busy = s.busy := by
  cases l with
  | rom _ _ | out _ => cases hw
  | win _ | xRe _ | xIm _ => rw [State.writeLoc, writeBuffer_whole]; exact ⟨rfl, rfl, rfl⟩
  | reg r =>
    cases r with
    | id | ctrl | status | cmd | nlen | crRe | crIm | csRe | csIm => cases hw
    | bandLo | bandHi | sample | scalar | caRe | caIm | cbRe | cbIm => exact ⟨rfl, rfl, rfl⟩

/-- The engine of an idle core guards nothing (R306). -/
theorem not_guarded_of_idle (hb : s.busy = false) : ¬ (busyGuarded l = true ∧ s.busy = true) :=
  fun hg => by simp [hb] at hg

/-- A whole write of a location of an idle core. -/
theorem hostWrite_whole (hr : s.rstN = true) (hb : s.busy = false) (hl : l.inRange s.params) (d : BitVec 64) :
    hostWrite (BitVec.ofNat 18 l.addr) 8 d s = .next ((s.writeLoc l 0xFFFFFFFFFFFFFFFF#64 d).respond .writeOk) :=
  hostWrite_of_target d hr (target_addr hl) (not_guarded_of_idle hb)

/-- A 4-byte access at a location's offset is one of its lower half, one 4 above it of its upper half. -/
theorem upperHalf_addr {p : Params} (hl : l.inRange p) (up : Bool) :
    upperHalf (BitVec.ofNat 18 (l.addr + if up then 4 else 0)) 4 = up := by
  obtain ⟨h8, hlt⟩ := Loc.addr_bounds hl
  have e : (BitVec.ofNat 18 (l.addr + if up then 4 else 0)).toNat = l.addr + if up then 4 else 0 := by
    rw [BitVec.toNat_ofNat]; cases up <;> simp <;> omega
  rw [upperHalf, e]
  cases up <;> simp <;> omega

theorem readLane_half {o : BitVec 18} {up : Bool} (hu : upperHalf o 4 = up) (v : BitVec 64) :
    readLane o 4 v = (v.extractLsb' (if up then 32 else 0) 32).setWidth 64 := by
  cases up <;> simp [readLane, hu]

/-- A read of half a location that holds a value. -/
theorem hostRead_half {v : BitVec 64} (hr : s.rstN = true) (hb : s.busy = false) (hl : l.inRange s.params)
    (hv : s.readLoc l = some v) (up : Bool) :
    hostRead (BitVec.ofNat 18 (l.addr + if up then 4 else 0)) 4 s
      = .next (s.respond (.readOk ((v.extractLsb' (if up then 32 else 0) 32).setWidth 64))) := by
  rw [hostRead_of_target hr (target_half hl up) (not_guarded_of_idle hb), hv]
  simp only [readLane_half (upperHalf_addr hl up)]

/-- The three reads of a location that holds a value: whole, and its two halves. -/
theorem hostRead_of_readLoc {v : BitVec 64} (hr : s.rstN = true) (hb : s.busy = false) (hl : l.inRange s.params)
    (hv : s.readLoc l = some v) :
    hostRead (BitVec.ofNat 18 l.addr) 8 s = .next (s.respond (.readOk v)) ∧
    hostRead (BitVec.ofNat 18 l.addr) 4 s = .next (s.respond (.readOk ((v.extractLsb' 0 32).setWidth 64))) ∧
    hostRead (BitVec.ofNat 18 (l.addr + 4)) 4 s
      = .next (s.respond (.readOk ((v.extractLsb' 32 32).setWidth 64))) := by
  refine ⟨?_, hostRead_half hr hb hl hv false, hostRead_half hr hb hl hv true⟩
  rw [hostRead_of_target hr (target_addr hl) (not_guarded_of_idle hb), hv]
  rfl

/-- What an idle core answers to the reads of a read-write location after a whole write of it. -/
theorem hostRead_after_hostWrite {t : State} {d : BitVec 64} (hr : s.rstN = true) (hb : s.busy = false)
    (hw : l.readWrite) (hl : l.inRange s.params) (h : hostWrite (BitVec.ofNat 18 l.addr) 8 d s = .next t) :
    hostRead (BitVec.ofNat 18 l.addr) 8 t = .next (t.respond (.readOk d)) ∧
    hostRead (BitVec.ofNat 18 l.addr) 4 t = .next (t.respond (.readOk ((d.extractLsb' 0 32).setWidth 64))) ∧
    hostRead (BitVec.ofNat 18 (l.addr + 4)) 4 t = .next (t.respond (.readOk ((d.extractLsb' 32 32).setWidth 64))) := by
  rw [hostWrite_whole hr hb hl d] at h
  cases h
  obtain ⟨hp, hrst, hbusy⟩ := writeLoc_readWrite_frame (s := s) hw d
  have hv : ((s.writeLoc l 0xFFFFFFFFFFFFFFFF#64 d).respond .writeOk).readLoc l = some d := readLoc_writeLoc_same hw d
  exact hostRead_of_readLoc (hrst.trans hr) (hbusy.trans hb) (by rw [State.respond_params, hp]; exact hl) hv

end

/-! ### The next state of a write (R34, R36 to R39, R46) -/

section
variable {s : State}

/-- The 8-byte write of a register of an idle core, at the offset of its slot. -/
theorem hostWrite_register (r : Reg) (hr : s.rstN = true) (hb : s.busy = false) (d : BitVec 64) :
    hostWrite (BitVec.ofNat 18 (8 * r.slot)) 8 d s
      = .next ((s.writeReg 0xFFFFFFFFFFFFFFFF#64 d r).respond .writeOk) :=
  hostWrite_whole (l := .reg r) hr hb trivial d

theorem nlenReg_low (s : State) : s.nlenReg.extractLsb' 0 16 = s.nlen := by
  rw [State.nlenReg, BitVec.extractLsb'_append_eq_of_add_le (by decide), BitVec.extractLsb'_eq_self]

/-- What the low 16 bits of a location keep of the lower half it is put together of. -/
theorem extractLsb'_append_lowHalf (u : BitVec 32) (v : BitVec 64) :
    (u ++ v.extractLsb' 0 32).extractLsb' 0 16 = v.extractLsb' 0 16 := by
  rw [BitVec.extractLsb'_append_eq_of_add_le (by decide), BitVec.extractLsb'_extractLsb'_of_le (by decide)]

/-- A write of NLEN keeps the low 16 bits of the data: whole, by its lower half, or not at all by its upper half. -/
theorem hostWrite_nlen (hr : s.rstN = true) (hb : s.busy = false) (d : BitVec 64) :
    hostWrite 0x020#18 8 d s = .next { s with nlen := d.extractLsb' 0 16, resp := some .writeOk } ∧
    hostWrite 0x020#18 4 d s = .next { s with nlen := d.extractLsb' 0 16, resp := some .writeOk } ∧
    hostWrite 0x024#18 4 d s = .next { s with resp := some .writeOk } := by
  have written : ∀ {o width n}, target s.params o width = some (.reg .nlen) →
      (merge s.nlenReg (writeMask o width) (writeLane o width d)).extractLsb' 0 16 = n →
      hostWrite o width d s = .next { s with nlen := n, resp := some .writeOk } := fun ht hn => by
    rw [hostWrite_of_target d hr ht (not_guarded_of_idle hb), State.writeLoc, State.writeReg, hn]
    rfl
  refine ⟨written rfl ?whole, written rfl ?low, written rfl ?high⟩
  case whole => exact congrArg (·.extractLsb' 0 16) (merge_whole s.nlenReg d)
  case low =>
    calc _ = (s.nlenReg.extractLsb' 32 32 ++ d.extractLsb' 0 32).extractLsb' 0 16 :=
          congrArg (·.extractLsb' 0 16) (merge_lowHalf s.nlenReg d)
      _ = d.extractLsb' 0 16 := extractLsb'_append_lowHalf _ _
  case high =>
    calc _ = (d.extractLsb' 0 32 ++ s.nlenReg.extractLsb' 0 32).extractLsb' 0 16 :=
          congrArg (·.extractLsb' 0 16) (merge_highHalf s.nlenReg d)
      _ = s.nlen := by rw [extractLsb'_append_lowHalf, nlenReg_low]

/-- An element of WIN, or a part of one of X, is a location whose write is one of the buffer's. -/
theorem exists_element_of_mem {p : Params} {i o : Nat} (hi : i < p.nMax)
    (ho : o ∈ [0x10000 + 8 * i, 0x20000 + 16 * i, 0x20008 + 16 * i]) :
    ∃ l : Loc, l.inRange p ∧ l.addr = o ∧
      ∀ (s : State) (mask d : BitVec 64), s.writeLoc l mask d = s.writeBuffer l.addr mask d := by
  simp only [List.mem_cons, List.not_mem_nil, or_false] at ho
  rcases ho with rfl | rfl | rfl
  · exact ⟨.win i, hi, rfl, fun _ _ _ => rfl⟩
  · exact ⟨.xRe i, hi, rfl, fun _ _ _ => rfl⟩
  · exact ⟨.xIm i, hi, by simp only [Loc.addr, xBase]; omega, fun _ _ _ => rfl⟩

/-- The 8-byte write of an element of WIN or X of an idle core. -/
theorem hostWrite_element {i o : Nat} (hr : s.rstN = true) (hb : s.busy = false) (hi : i < s.params.nMax)
    (ho : o ∈ [0x10000 + 8 * i, 0x20000 + 16 * i, 0x20008 + 16 * i]) (d : BitVec 64) :
    hostWrite (BitVec.ofNat 18 o) 8 d s = .next { s with mem := writeElem s.mem o d, resp := some .writeOk } := by
  obtain ⟨l, hl, rfl, hw⟩ := exists_element_of_mem hi ho
  rw [hostWrite_whole hr hb hl d, hw, writeBuffer_whole]
  rfl

end

/-- Settles O40: an offset in the ranges is that of a read-write location, which holds what was written; the next states
register by register, and element by element. -/
theorem readBackAfterWrite : Obligations.ReadBackAfterWrite := by
  unfold Obligations.ReadBackAfterWrite
  refine ⟨fun s t o d hr hb ho h8 h => ?readBack, fun s d hr hb => ?nextStates⟩
  case readBack =>
    obtain ⟨l, hw, hl, ha⟩ := exists_readWrite_of_offset h8 ho
    obtain rfl : o = BitVec.ofNat 18 l.addr := by rw [ha, BitVec.ofNat_toNat, BitVec.setWidth_eq]
    have h4 : BitVec.ofNat 18 l.addr + 4#18 = BitVec.ofNat 18 (l.addr + 4) := BitVec.ofNat_add .. |>.symm
    rw [h4]
    exact hostRead_after_hostWrite hr hb hw hl h
  case nextStates =>
    have reg := fun r => hostWrite_register r hr hb d
    have bandLo := reg .bandLo
    have bandHi := reg .bandHi
    have sample := reg .sample
    have scalar := reg .scalar
    have caRe := reg .caRe
    have caIm := reg .caIm
    have cbRe := reg .cbRe
    have cbIm := reg .cbIm
    simp only [State.writeReg, merge_whole] at bandLo bandHi sample scalar caRe caIm cbRe cbIm
    obtain ⟨nlenWhole, nlenLow, nlenHigh⟩ := hostWrite_nlen hr hb d
    refine ⟨nlenWhole, nlenLow, nlenHigh, bandLo, bandHi, sample, scalar, caRe, caIm, cbRe, cbIm, fun i o hi ho => ?_⟩
    exact ⟨_, hostWrite_element hr hb hi ho d, rfl, readElem_writeElem_same s.mem o d,
      fun a ha => readByte_writeElem_other s.mem o d a ha⟩

end Sys2Proof.Machine

namespace Sys2Proof.Machine

/-! ### The elements a command touches (R47) -/

/-- A completion step writes within the first `n` elements of the buffers. -/
theorem BufferWrite.readByte_other {m m' : Memory} {n a : Nat} (h : BufferWrite m n m') (hx : ¬ inX n a)
    (hw : ¬ inWin n a) (ho : ¬ inOut n a) : readByte m' a = readByte m a := by
  unfold inX at hx
  unfold inWin at hw
  unfold inOut at ho
  cases h with
  | none => rfl
  | x z hz => exact readByte_writeC64s_other z m xBase a (by omega)
  | xOut z r hz hr =>
    rw [readByte_writeF64s_other r _ outBase a (by omega), readByte_writeC64s_other z m xBase a (by omega)]
  | out r hr => exact readByte_writeF64s_other r m outBase a (by omega)
  | win w hl => exact readByte_writeF64s_other w m winBase a (by omega)

/-- Settles O59: a command turned away writes nothing, and a completed one its destinations. -/
theorem commandsTouchOnlyFirstElements : Obligations.CommandsTouchOnlyFirstElements := by
  unfold Obligations.CommandsTouchOnlyFirstElements
  intro s t i a h hx hw ho
  rcases exec_next h with ⟨_, _, rfl⟩ | ⟨_, m, _, _, hm, _, rfl⟩
  · rfl
  · exact hm.readByte_other hx hw ho

/-! ### The elements a command reads (R47) -/

/-- Two memories hold the same bytes at the addresses of `P`. -/
def Memory.agreeOn (P : Nat → Prop) (m m' : Memory) : Prop := ∀ a, P a → readByte m a = readByte m' a

section
variable {P : Nat → Prop} {m m' : Memory}

/-- A byte written to both memories keeps their agreement, wherever it is written. -/
theorem Memory.agreeOn.writeByte (h : Memory.agreeOn P m m') (a : Nat) (v : BitVec 8) :
    Memory.agreeOn P (writeByte m a v) (writeByte m' a v) := fun b hb => by
  rw [readByte_writeByte, readByte_writeByte, h b hb]

theorem Memory.agreeOn.writeLE (n : Nat) : ∀ {m m' : Memory}, Memory.agreeOn P m m' → ∀ a v,
    Memory.agreeOn P (writeLE m a v n) (writeLE m' a v n) := by
  induction n with
  | zero => exact fun h _ _ => h
  | succ n ih => exact fun h a v => ih (h.writeByte a _) (a + 1) (v / 256)

theorem Memory.agreeOn.writeElem (h : Memory.agreeOn P m m') (a : Nat) (v : F64) :
    Memory.agreeOn P (writeElem m a v) (writeElem m' a v) := h.writeLE 8 a v.toNat

theorem Memory.agreeOn.writeF64s (xs : List F64) : ∀ {m m' : Memory}, Memory.agreeOn P m m' → ∀ a,
    Memory.agreeOn P (writeF64s m a xs) (writeF64s m' a xs) := by
  induction xs with
  | nil => exact fun h _ => h
  | cons x xs ih =>
    intro m m' h a
    rw [Machine.writeF64s, Machine.writeF64s]
    exact ih (h.writeElem a x) (a + 8)

theorem Memory.agreeOn.writeC64s (zs : List C64) : ∀ {m m' : Memory}, Memory.agreeOn P m m' → ∀ a,
    Memory.agreeOn P (writeC64s m a zs) (writeC64s m' a zs) := by
  induction zs with
  | nil => exact fun h _ => h
  | cons z zs ih =>
    intro m m' h a
    rw [Machine.writeC64s, Machine.writeC64s]
    exact ih ((h.writeElem a z.re).writeElem (a + 8) z.im) (a + 16)

/-- Elements `stride` apart read alike where the memories agree on the bytes they span. -/
theorem readF64s_congr {stride a : Nat} (n : Nat) (hs : 8 ≤ stride)
    (h : Memory.agreeOn (fun b => a ≤ b ∧ b < a + stride * n) m m') :
    readF64s m stride a n = readF64s m' stride a n := by
  induction n generalizing a with
  | zero => rfl
  | succ n ih =>
    have e : stride * (n + 1) = stride + stride * n := by ring
    rw [readF64s, readF64s, readElem_congr fun b h1 h2 => h b (by omega), ih fun b hb => h b (by omega)]

/-- Complex elements read alike where the memories agree on the bytes they span. -/
theorem readC64s_congr {a : Nat} (n : Nat) (h : Memory.agreeOn (fun b => a ≤ b ∧ b < a + 16 * n) m m') :
    readC64s m a n = readC64s m' a n := by
  induction n generalizing a with
  | zero => rfl
  | succ n ih =>
    rw [readC64s, readC64s, readC64, readC64, readElem_congr fun b h1 h2 => h b (by omega),
      readElem_congr (a := a + 8) fun b h1 h2 => h b (by omega), ih fun b hb => h b (by omega)]

end

/-- The bytes of the first `n` elements of the buffers. -/
def near (n a : Nat) : Prop := inX n a ∨ inWin n a ∨ inOut n a

@[simp] theorem State.setMem_rom (s : State) (m : Memory) : (s.setMem m).rom = s.rom := rfl

/-- Two runs end alike: in the same fault, or in states that agree in everything but the bytes outside
the first `n` elements. -/
inductive EndAlike (n : Nat) : Result → Result → Prop where
  | next {t u : State} (hu : u = t.setMem u.mem) (hm : Memory.agreeOn (near n) u.mem t.mem) :
      EndAlike n (.next t) (.next u)
  | fault (f : Fault) : EndAlike n (.fault f) (.fault f)

section
variable {n : Nat} {s : State} {m : Memory}

/-- An operand command leaves the memory as it is. -/
theorem endAlike_finishCR (hm : Memory.agreeOn (near n) m s.mem) (z : C64) :
    EndAlike n (s.finishCR z) ((s.setMem m).finishCR z) := .next rfl hm

theorem endAlike_putX (hm : Memory.agreeOn (near n) m s.mem) (x : List C64) :
    EndAlike n (.next (s.putX x).finish) (.next ((s.setMem m).putX x).finish) := .next rfl (hm.writeC64s x xBase)

theorem endAlike_putOut (hm : Memory.agreeOn (near n) m s.mem) (r : List F64) :
    EndAlike n (.next (s.putOut r).finish) (.next ((s.setMem m).putOut r).finish) := .next rfl (hm.writeF64s r outBase)

theorem endAlike_putWin (hm : Memory.agreeOn (near n) m s.mem) (w : List F64) :
    EndAlike n (.next (s.putWin w).finish) (.next ((s.setMem m).putWin w).finish) := .next rfl (hm.writeF64s w winBase)

theorem endAlike_finishFilter (hm : Memory.agreeOn (near n) m s.mem) (v : List C64) :
    EndAlike n (s.finishFilter v) ((s.setMem m).finishFilter v) :=
  .next rfl ((hm.writeC64s v xBase).writeF64s (realParts v) outBase)

/-- Each buffer operand of a command at length `n` is read from the first `n` elements. -/
theorem endAlike_withX (hm : Memory.agreeOn (near n) m s.mem) {k k' : List C64 → Result}
    (hk : ∀ x, EndAlike n (k x) (k' x)) : EndAlike n (s.withX n k) ((s.setMem m).withX n k') := by
  have e : readC64s m xBase n = readC64s s.mem xBase n := readC64s_congr n fun a ha => hm a (.inl ha)
  unfold State.withX
  rw [State.setMem_mem, e]
  split
  · exact hk _
  · exact .fault _

theorem endAlike_withXRe (hm : Memory.agreeOn (near n) m s.mem) {k k' : List F64 → Result}
    (hk : ∀ x, EndAlike n (k x) (k' x)) : EndAlike n (s.withXRe n k) ((s.setMem m).withXRe n k') := by
  have e : readF64s m 16 xBase n = readF64s s.mem 16 xBase n := readF64s_congr n (by decide) fun a ha => hm a (.inl ha)
  unfold State.withXRe
  rw [State.setMem_mem, e]
  split
  · exact hk _
  · exact .fault _

theorem endAlike_withWin (hm : Memory.agreeOn (near n) m s.mem) {k k' : List F64 → Result}
    (hk : ∀ x, EndAlike n (k x) (k' x)) : EndAlike n (s.withWin n k) ((s.setMem m).withWin n k') := by
  have e : readF64s m 8 winBase n = readF64s s.mem 8 winBase n :=
    readF64s_congr n (by decide) fun a ha => hm a (.inr (.inl ha))
  unfold State.withWin
  rw [State.setMem_mem, e]
  split
  · exact hk _
  · exact .fault _

/-- A sequence command, turned away or run, by the length that does not depend on the memory. -/
theorem endAlike_seqCommand (hm : Memory.agreeOn (near n) m s.mem) {k k' : Nat → Result}
    (hk : EndAlike n (k s.cmdLen.toNat) (k' s.cmdLen.toNat)) :
    EndAlike n (s.seqCommand k) ((s.setMem m).seqCommand k') := by
  rcases seqCommand_eq s k with ⟨hv, e⟩ | ⟨hv, e⟩
  · have e' : (s.setMem m).seqCommand k' = .next ((s.setMem m).turnAway .badLength) := if_pos hv
    rw [e, e']
    exact .next rfl hm
  · have e' : (s.setMem m).seqCommand k' = k' s.cmdLen.toNat := if_neg (Bool.not_eq_true _ ▸ hv)
    rw [e, e']
    exact hk

/-- A twiddle command, turned away or run, by fields and a ROM that do not depend on the memory. -/
theorem endAlike_twCommand (hm : Memory.agreeOn (near n) m s.mem) {l : BitVec 4} {j : BitVec 16} {k k' : C64 → Result}
    (hk : ∀ w, EndAlike n (k w) (k' w)) : EndAlike n (s.twCommand l j k) ((s.setMem m).twCommand l j k') := by
  rcases twCommand_eq s l j k with ⟨hv, e⟩ | ⟨hv, e⟩
  · have e' : (s.setMem m).twCommand l j k' = .next ((s.setMem m).turnAway .badTwiddle) := if_pos hv
    rw [e, e']
    exact .next rfl hm
  · have e' : (s.setMem m).twCommand l j k' = k' (twAcc s.rom l.toNat j.toNat) := if_neg (Bool.not_eq_true _ ▸ hv)
    rw [e, e']
    exact hk _

/-- On memories that agree in the first elements, a command's two runs end alike. -/
theorem exec_endAlike (i : Instr) (hm : Memory.agreeOn (near s.cmdLen.toNat) m s.mem) :
    EndAlike s.cmdLen.toNat (exec i s) (exec i (s.setMem m)) := by
  cases i with
  | nop => exact .next rfl hm
  | cadd | csub | cmul | cdivr | cconj | cmag | cphase =>
    simp only [exec, execCadd, execCsub, execCmul, execCdivr, execCconj, execCmag, execCphase, State.setMem_params,
      State.setMem_ca, State.setMem_cb, State.setMem_scalar]
    exact endAlike_finishCR hm _
  | twgen | ctwmul =>
    simp only [exec, execTwgen, execCtwmul, State.setMem_ca]
    exact endAlike_twCommand hm fun w => endAlike_finishCR hm _
  | bfly =>
    simp only [exec, execBfly, State.setMem_ca, State.setMem_cb]
    exact endAlike_twCommand hm fun w => .next rfl hm
  | fft | ifft | bpmask =>
    simp only [exec, execFft, execIfft, execBpmask, State.setMem_rom, State.setMem_bandLo, State.setMem_bandHi]
    refine endAlike_seqCommand hm ?_
    exact endAlike_withX hm fun x => endAlike_putX hm _
  | filter =>
    simp only [exec, execFilter, State.setMem_rom, State.setMem_bandLo, State.setMem_bandHi]
    refine endAlike_seqCommand hm ?_
    exact endAlike_withX hm fun x => endAlike_finishFilter hm _
  | denoise =>
    simp only [exec, execDenoise, State.setMem_rom, State.setMem_bandLo, State.setMem_bandHi]
    refine endAlike_seqCommand hm ?_
    exact endAlike_withWin hm fun w => endAlike_finishFilter hm _
  | r2c =>
    simp only [exec, execR2c]
    refine endAlike_seqCommand hm ?_
    exact endAlike_withWin hm fun w => endAlike_putX hm (realToComplex w)
  | c2r =>
    simp only [exec, execC2r]
    refine endAlike_seqCommand hm ?_
    exact endAlike_withXRe hm fun r => endAlike_putOut hm r
  | wpush =>
    simp only [exec, execWpush, State.setMem_sample]
    refine endAlike_seqCommand hm ?_
    exact endAlike_withWin hm fun w => endAlike_putWin hm (pushSample w s.sample)

theorem EndAlike.eq_fault {f : Fault} {r : Result} (h : EndAlike n (.fault f) r) : r = .fault f := by
  cases h
  rfl

theorem EndAlike.exists_next {t : State} {r : Result} (h : EndAlike n (.next t) r) :
    ∃ u, r = .next u ∧ u = t.setMem u.mem ∧ Memory.agreeOn (near n) u.mem t.mem := by
  cases h with
  | next hu hm => exact ⟨_, rfl, hu, hm⟩

end

/-- Settles O60: the two runs end alike, by what a command reads and where it writes. -/
theorem elementsBeyondLengthNotRead : Obligations.ElementsBeyondLengthNotRead := by
  unfold Obligations.ElementsBeyondLengthNotRead
  intro s m i _ hm
  have h : EndAlike s.cmdLen.toNat (exec i s) (exec i (s.setMem m)) := exec_endAlike i hm
  exact ⟨fun f hf => (hf ▸ h).eq_fault, fun t ht => (ht ▸ h).exists_next⟩

/-! ### The power-on reset state (R52) -/

/-- Settles O45: the values, field by field, as `State.reset` and `defaultRom` list them. -/
theorem resetValues : Obligations.ResetValues := by
  unfold Obligations.ResetValues
  refine ⟨by decide, rfl, by decide, rfl, rfl, rfl, rfl, rfl, rfl, rfl, rfl, rfl, rfl, rfl, rfl, rfl, rfl, rfl, rfl,
    fun _ => rfl, rfl, rfl⟩

/-- Settles O55: no buffer byte is written, no command latched, no error recorded, and `rst_n` is high. -/
theorem resetMeetsInvariants : Obligations.ResetMeetsInvariants := by
  unfold Obligations.ResetMeetsInvariants
  have unwritten : ∀ a, ¬ (readByte State.reset.mem a).isSome := fun a h => Bool.noConfusion h
  have idle : ∀ l, State.reset.engine ≠ some l := fun l h => by cases h
  exact ⟨List.Pairwise.nil, fun a k h _ => absurd h (unwritten a), fun a h => absurd h (unwritten a),
    fun l h => absurd h (idle l), errorCodeOk_of_err_false rfl rfl, fun h => Bool.noConfusion h⟩

end Sys2Proof.Machine

namespace Sys2Proof

/-! ### The ordered comparison is the comparison of values (R15) -/

/-- A longer bit string stands for a greater magnitude: the next one is one unit of its last place up. -/
theorem unitsOf_strictMono : StrictMono unitsOf := strictMono_nat_of_lt_succ fun b => by
  have hp : ∀ e : Nat, 0 < 2 ^ e := fun e => by positivity
  unfold unitsOf
  rcases Nat.lt_or_ge (b % 2 ^ 52 + 1) (2 ^ 52) with h | h
  · have he : (b + 1) / 2 ^ 52 = b / 2 ^ 52 := by omega
    have hf : (b + 1) % 2 ^ 52 = b % 2 ^ 52 + 1 := by omega
    rw [he, hf]
    split
    · exact Nat.lt_succ_self _
    · exact Nat.mul_lt_mul_of_pos_right (by omega) (hp _)
  · have he : (b + 1) / 2 ^ 52 = b / 2 ^ 52 + 1 := by omega
    have hf : (b + 1) % 2 ^ 52 = 0 := by omega
    rw [he, hf, if_neg (Nat.succ_ne_zero _), Nat.add_zero, Nat.add_sub_cancel]
    split
    next h0 => rw [h0]; omega
    next h0 =>
      obtain ⟨e, h1⟩ := Nat.exists_eq_succ_of_ne_zero h0
      have hlt : b % 2 ^ 52 < 2 ^ 52 := Nat.mod_lt _ (by norm_num)
      calc (2 ^ 52 + b % 2 ^ 52) * 2 ^ (b / 2 ^ 52 - 1)
          < 2 ^ 53 * 2 ^ (b / 2 ^ 52 - 1) := Nat.mul_lt_mul_of_pos_right (by omega) (hp _)
        _ = 2 ^ 52 * 2 ^ (b / 2 ^ 52) := by rw [h1, Nat.succ_eq_add_one, Nat.add_sub_cancel, ← pow_add, ← pow_add]; ring

/-- A number with a sign, as `orderKey` and `valUnits` write it. -/
def signedNat (s : Bool) (n : Nat) : Int := if s then -(n : Int) else n

/-- A map of magnitudes that rises strictly from 0 keeps the order of the signed numbers. -/
theorem signedNat_le_iff {u : Nat → Nat} (hu : StrictMono u) (h0 : u 0 = 0) (s t : Bool) (m n : Nat) :
    signedNat s (u m) ≤ signedNat t (u n) ↔ signedNat s m ≤ signedNat t n := by
  have hle : ∀ i j, u i ≤ u j ↔ i ≤ j := fun i j => hu.le_iff_le
  have hz : ∀ i, u i = 0 ↔ i = 0 := fun i => ⟨fun h => hu.injective (h.trans h0.symm), fun h => h ▸ h0⟩
  have hmn := hle m n
  have hnm := hle n m
  have hm := hz m
  have hn := hz n
  cases s <;> cases t <;> simp only [signedNat, Bool.false_eq_true, if_true, if_false] <;> omega

theorem orderKey_eq (a : F64) : orderKey a = signedNat (f64Sign a) (a.extractLsb' 0 63).toNat := rfl

theorem valUnits_eq (a : F64) : valUnits a = signedNat (f64Sign a) (unitsOf (a.extractLsb' 0 63).toNat) := by
  rw [valUnits, magUnits_eq, ← lowBits_eq]
  rfl

/-- The keys of two patterns are ordered as the values they stand for. -/
theorem orderKey_le_iff (a b : F64) : orderKey a ≤ orderKey b ↔ valUnits a ≤ valUnits b := by
  rw [orderKey_eq, orderKey_eq, valUnits_eq, valUnits_eq, signedNat_le_iff unitsOf_strictMono rfl]

/-- What the ordered comparison says of patterns that are not NaNs. -/
theorem le64_iff {a b : F64} (ha : isNaN a = false) (hb : isNaN b = false) :
    le64 a b = true ↔ orderKey a ≤ orderKey b := by simp [le64, ha, hb]

theorem le64_nan_left {a : F64} (h : isNaN a = true) (b : F64) : le64 a b = false := by simp [le64, h]

theorem le64_nan_right {b : F64} (h : isNaN b = true) (a : F64) : le64 a b = false := by simp [le64, h]

theorem le64_iff_valUnits {a b : F64} (ha : isFinite a = true) (hb : isFinite b = true) :
    le64 a b = true ↔ valUnits a ≤ valUnits b := by
  rw [le64_iff (isNaN_of_isFinite ha) (isNaN_of_isFinite hb), orderKey_le_iff]

/-- The infinities' keys lie beyond those of every finite pattern. -/
theorem orderKey_bounds {a : F64} (h : isFinite a = true) :
    -0x7FF0000000000000 < orderKey a ∧ orderKey a < 0x7FF0000000000000 := by
  have hlt := (isFinite_iff a).1 h
  rw [← lowBits_eq] at hlt
  rw [orderKey_eq]
  cases f64Sign a <;> simp only [signedNat, Bool.false_eq_true, if_true, if_false] <;> omega

/-- An infinite bound against a finite pattern (log entry 24). -/
theorem le64_infinities {a : F64} (h : isFinite a = true) :
    le64 0xFFF0000000000000#64 a = true ∧ le64 a 0x7FF0000000000000#64 = true ∧
    le64 0x7FF0000000000000#64 a = false ∧ le64 a 0xFFF0000000000000#64 = false := by
  obtain ⟨hlo, hhi⟩ := orderKey_bounds h
  have hn := isNaN_of_isFinite h
  have kpos : orderKey 0x7FF0000000000000#64 = 0x7FF0000000000000 := by decide
  have kneg : orderKey 0xFFF0000000000000#64 = -0x7FF0000000000000 := by decide
  have npos : isNaN 0x7FF0000000000000#64 = false := by decide
  have nneg : isNaN 0xFFF0000000000000#64 = false := by decide
  refine ⟨?_, ?_, ?_, ?_⟩
  · rw [le64_iff nneg hn, kneg]; omega
  · rw [le64_iff hn npos, kpos]; omega
  · rw [← Bool.not_eq_true, le64_iff npos hn, kpos]; omega
  · rw [← Bool.not_eq_true, le64_iff hn nneg, kneg]; omega

theorem le64_trans {a b c : F64} (hab : le64 a b = true) (hbc : le64 b c = true) : le64 a c = true := by
  simp only [le64, Bool.and_eq_true, Bool.not_eq_true', decide_eq_true_eq] at *
  obtain ⟨⟨ha, -⟩, h1⟩ := hab
  obtain ⟨⟨-, hc⟩, h2⟩ := hbc
  exact ⟨⟨ha, hc⟩, h1.trans h2⟩

/-! ### The band of the mask (R240, R241) -/

section
variable {lo hi f : F64} {n i k : Nat}

/-- A bin passes where both comparisons hold. -/
theorem keepBin_iff : keepBin lo hi n i = true ↔ le64 lo (binFreq n i) = true ∧ le64 (binFreq n i) hi = true := by
  rw [keepBin, Bool.and_eq_true]

/-- The frequency of a bin is finite, and `i / 2^k` exactly. -/
theorem binFreq_exact (hk : k ≤ 12) (hi : i < 2 ^ k) : isFinite (binFreq (2 ^ k) i) = true ∧
    valUnits (binFreq (2 ^ k) i) * 2 ^ k = (i : Int) * 2 ^ 1074 := binFrequencyIsExact.2 k i hk hi

/-- Comparing with a bin's frequency is comparing with `i / 2^k`. -/
theorem le64_binFreq_iff (hk : k ≤ 12) (hik : i < 2 ^ k) (hlo : isFinite lo = true) :
    (le64 lo (binFreq (2 ^ k) i) = true ↔ valUnits lo * 2 ^ k ≤ (i : Int) * 2 ^ 1074) ∧
    (le64 (binFreq (2 ^ k) i) lo = true ↔ (i : Int) * 2 ^ 1074 ≤ valUnits lo * 2 ^ k) := by
  obtain ⟨hfin, hval⟩ := binFreq_exact hk hik
  have hpos : (0 : Int) < 2 ^ k := by positivity
  rw [le64_iff_valUnits hlo hfin, le64_iff_valUnits hfin hlo, ← hval]
  exact ⟨(mul_le_mul_iff_left₀ hpos).symm, (mul_le_mul_iff_left₀ hpos).symm⟩

end

/-- Settles O30: each bound is one ordered comparison with the bin's exact frequency. -/
theorem bandIsInclusive : Obligations.BandIsInclusive := by
  unfold Obligations.BandIsInclusive
  intro lo hi k i hk hik
  obtain ⟨hfin, -⟩ := binFreq_exact hk hik
  obtain ⟨hneg, hpos, hposLow, hnegHigh⟩ := le64_infinities hfin
  refine ⟨fun hlo hhi => ?finite, ?noLow, ?noHigh, ?all, ?none, ?nan, fun _ _ hle => ?reversed⟩
  case finite => rw [keepBin_iff, (le64_binFreq_iff hk hik hlo).1, (le64_binFreq_iff hk hik hhi).2]
  case noLow =>
    rintro rfl hhi
    rw [keepBin_iff, (le64_binFreq_iff hk hik hhi).2, and_iff_right hneg]
  case noHigh =>
    rintro hlo rfl
    rw [keepBin_iff, (le64_binFreq_iff hk hik hlo).1, and_iff_left hpos]
  case all =>
    rintro rfl rfl
    exact keepBin_iff.2 ⟨hneg, hpos⟩
  case none =>
    rintro (rfl | rfl)
    · rw [keepBin, hposLow, Bool.false_and]
    · rw [keepBin, hnegHigh, Bool.and_false]
  case nan =>
    rintro (h | h)
    · rw [keepBin, le64_nan_left h, Bool.false_and]
    · rw [keepBin, le64_nan_right h, Bool.and_false]
  case reversed =>
    rw [← Bool.not_eq_true, keepBin_iff]
    rintro ⟨h1, h2⟩
    rw [le64_trans h1 h2] at hle
    cases hle

end Sys2Proof

/-! SUPPORT. The statements of 20_memory.md: bus errors, writes of read-only locations, what a host read answers, and
writes of half a location. -/

namespace Sys2Proof.Machine

/-! ### The regions of the register space (R81 to R83) -/

/-- A location lies in the register block, in TWROM, or in the first N_MAX elements of a buffer. -/
theorem Loc.addr_region {p : Params} {l : Loc} (h : l.inRange p) :
    l.addr < 0x088 ∨ (0x100 ≤ l.addr ∧ l.addr < 0x200) ∨ (0x10000 ≤ l.addr ∧ l.addr < 0x10000 + 8 * p.nMax) ∨
    (0x20000 ≤ l.addr ∧ l.addr < 0x20000 + 16 * p.nMax) ∨ (0x30000 ≤ l.addr ∧ l.addr < 0x30000 + 8 * p.nMax) := by
  cases l with
  | reg r => have := r.slot_le; simp only [Loc.addr]; omega
  | rom k im => simp only [Loc.inRange] at h; simp only [Loc.addr]; split <;> omega
  | win i | xRe i | xIm i | out i => simp only [Loc.inRange] at h; simp only [Loc.addr, winBase, xBase, outBase]; omega

/-- No access of another width, of a misaligned offset, or of an offset outside those regions reaches a location. -/
theorem target_eq_none {p : Params} {o : BitVec 18} {width : Nat}
    (h : (width ≠ 4 ∧ width ≠ 8) ∨ o.toNat % width ≠ 0 ∨ (0x088 ≤ o.toNat ∧ o.toNat < 0x100) ∨
      (0x200 ≤ o.toNat ∧ o.toNat < 0x10000) ∨ (0x10000 + 8 * p.nMax ≤ o.toNat ∧ o.toNat < 0x20000) ∨
      (0x20000 + 16 * p.nMax ≤ o.toNat ∧ o.toNat < 0x30000) ∨ 0x30000 + 8 * p.nMax ≤ o.toNat) :
    target p o width = none := by
  rw [Option.eq_none_iff_forall_ne_some]
  intro l hl
  obtain ⟨hw, hm, -, hin, ha⟩ := target_some hl
  have hregion := Loc.addr_region hin
  have hn := Params.nMax_le p
  rw [ha] at hregion
  omega

section
variable {s : State} {o : BitVec 18} {width : Nat}

/-- An access under reset, or one that reaches nothing, gets BUS_ERROR and has no other effect (R82, R340). -/
theorem access_of_reset_or_no_target (h : s.rstN = false ∨ target s.params o width = none) (d : BitVec 64) :
    hostRead o width s = .next (s.respond (.readError 0#64)) ∧ hostWrite o width d s = .next (s.respond .writeError) := by
  rcases h with h | h
  · simp [hostRead, hostWrite, h]
  · cases hr : s.rstN <;> simp [hostRead, hostWrite, h, hr]

end

/-- Settles O37: each of the conditions but a low `rst_n` leaves the access without a location. -/
theorem busErrorHasNoEffect : Obligations.BusErrorHasNoEffect := by
  unfold Obligations.BusErrorHasNoEffect
  intro s o width d h
  exact access_of_reset_or_no_target (h.imp_right target_eq_none) d

/-! ### Writes of read-only locations (R89) -/

/-- The locations below CTRL, from CR.re to the end of TWROM, and in OUT are read-only: a write leaves the core as it
is. -/
theorem writeLoc_eq_self_of_addr {p : Params} {l : Loc} (hl : l.inRange p)
    (h : l.addr < 0x008 ∨ (0x068 ≤ l.addr ∧ l.addr < 0x200) ∨ 0x30000 ≤ l.addr) (s : State) (mask d : BitVec 64) :
    s.writeLoc l mask d = s := by
  have hn := Params.nMax_le p
  cases l with
  | rom _ _ | out _ => rfl
  | win i | xRe i | xIm i => simp only [Loc.inRange] at hl; simp only [Loc.addr, winBase, xBase] at h; omega
  | reg r =>
    cases r with
    | id | crRe | crIm | csRe | csIm => rfl
    | ctrl | status | cmd | nlen | bandLo | bandHi | sample | scalar | caRe | caIm | cbRe | cbIm =>
      simp [Loc.addr, Reg.slot] at h

/-- Settles O42: the offsets are those of read-only locations, and the guard lets the write through. -/
theorem readOnlyWritesIgnored : Obligations.ReadOnlyWritesIgnored := by
  unfold Obligations.ReadOnlyWritesIgnored
  intro s o width d l hr hfree ht ho
  obtain ⟨-, -, -, hin, ha⟩ := target_some ht
  have hg : ¬ (busyGuarded l = true ∧ s.busy = true) := by
    rw [busyGuarded_iff hin, ha]
    rintro ⟨hguarded, hb⟩
    rw [hb] at hfree
    simp only [Bool.true_eq_false, false_or] at hfree
    omega
  rw [hostWrite_of_target d hr ht hg, writeLoc_eq_self_of_addr hin (by omega)]
  rfl

/-! ### What a host read answers (R88) -/

section
variable {s : State} {l : Loc} {o : BitVec 18} {v : BitVec 64}

/-- An 8-byte read of a location that holds a value answers it where the guard lets it through. -/
theorem reads_of_readLoc (hr : s.rstN = true) (hl : l.inRange s.params) (hg : ¬ (busyGuarded l = true ∧ s.busy = true))
    (hv : s.readLoc l = some v) : s.reads (BitVec.ofNat 18 l.addr) v := by
  rw [State.reads, hostRead_of_target hr (target_addr hl) hg, hv]
  rfl

/-- A read that answers a value and changes nothing is one of a location that holds it, let through by the guard: one
under reset or of a reserved offset gets BUS_ERROR, and a refused one counts a free value. -/
theorem State.reads.exists_target (h : s.reads o v) : ∃ l, target s.params o 8 = some l ∧ s.rstN = true ∧
    ¬ (busyGuarded l = true ∧ s.busy = true) ∧ s.readLoc l = some v := by
  unfold State.reads at h
  cases hr : s.rstN with
  | false => rw [(access_of_reset_or_no_target (.inl hr) v).1] at h; cases h
  | true =>
    cases ht : target s.params o 8 with
    | none => rw [(access_of_reset_or_no_target (.inr ht) v).1] at h; cases h
    | some l =>
      have hg : ¬ (busyGuarded l = true ∧ s.busy = true) := by
        rintro ⟨hgl, hb⟩
        simp only [hostRead, hr, ht, hgl, hb] at h
        have hdraws : s.draws + 1 = s.draws := congrArg State.draws (Host.Outcome.next.inj h)
        omega
      refine ⟨l, rfl, rfl, hg, ?_⟩
      rw [hostRead_of_target hr ht hg] at h
      cases hv : s.readLoc l <;> rw [hv] at h <;> cases h
      rfl

end

/-! ### Writing half of a location (R84) -/

/-- A value with one half replaced by bits 31:0 of the data: the upper half, or the lower one. -/
def withHalf (up : Bool) (old d : BitVec 64) : BitVec 64 := if up then withHighHalf old d else withLowHalf old d

theorem merge_half {o : BitVec 18} {up : Bool} (hu : upperHalf o 4 = up) (old d : BitVec 64) :
    merge old (writeMask o 4) (writeLane o 4 d) = withHalf up old d := by
  subst hu
  cases hu : upperHalf o 4 with
  | false => simpa [writeMask, writeLane, hu, withHalf, withLowHalf] using merge_lowHalf old d
  | true => simpa [writeMask, writeLane, hu, withHalf, withHighHalf] using merge_highHalf old d

section
variable {s : State} {l : Loc}

/-- A write of part of a read-write location that holds a value is the whole write of the two put together. -/
theorem writeLoc_eq_whole {old : BitVec 64} (hw : l.readWrite) (hv : s.readLoc l = some old) (mask d : BitVec 64) :
    s.writeLoc l mask d = s.writeLoc l 0xFFFFFFFFFFFFFFFF#64 (merge old mask d) := by
  cases l with
  | rom _ _ | out _ => cases hw
  | win _ | xRe _ | xIm _ =>
    simp only [State.readLoc] at hv
    simp only [State.writeLoc, State.writeBuffer, hv, merge_whole]
  | reg r =>
    cases hv
    cases r with
    | id | ctrl | status | cmd | nlen | crRe | crIm | csRe | csIm => cases hw
    | bandLo | bandHi | sample | scalar | caRe | caIm | cbRe | cbIm =>
      simp only [State.writeLoc, State.writeReg, State.readReg, merge_whole]

/-- So the host's write of a half is its write of the whole, with the other half as it was. -/
theorem hostWrite_half {old : BitVec 64} (hr : s.rstN = true) (hb : s.busy = false) (hw : l.readWrite)
    (hl : l.inRange s.params) (hv : s.readLoc l = some old) (d : BitVec 64) (up : Bool) :
    hostWrite (BitVec.ofNat 18 (l.addr + if up then 4 else 0)) 4 d s
      = hostWrite (BitVec.ofNat 18 l.addr) 8 (withHalf up old d) s := by
  rw [hostWrite_whole hr hb hl, hostWrite_of_target d hr (target_half hl up) (not_guarded_of_idle hb),
    writeLoc_eq_whole hw hv, merge_half (upperHalf_addr hl up)]

/-- The write of half a read-write data register. -/
theorem hostWrite_half_register {r : Reg} (hr : s.rstN = true) (hb : s.busy = false) (hw : (Loc.reg r).readWrite)
    (d : BitVec 64) (up : Bool) :
    hostWrite (BitVec.ofNat 18 (8 * r.slot + if up then 4 else 0)) 4 d s
      = .next ((s.writeReg 0xFFFFFFFFFFFFFFFF#64 (withHalf up (s.readReg r) d) r).respond .writeOk) :=
  (hostWrite_half (l := .reg r) hr hb hw trivial rfl d up).trans (hostWrite_register r hr hb _)

/-- What an element holds, or the free value that a 4-byte write finds in one that holds none (log entry 8). -/
def State.elemBits (s : State) (a : Nat) : BitVec 64 := (readElem s.mem a).getD (Config.freeBits s.draws)

theorem writeBuffer_elemBits (s : State) (a : Nat) (mask d : BitVec 64) : ∃ k, s.writeBuffer a mask d =
    { s with mem := writeElem s.mem a (merge (s.elemBits a) mask d), draws := k } := by
  obtain ⟨old, k, hsome, -, hnone, e⟩ := writeBuffer_spec s a mask d
  have hold : s.elemBits a = old := by
    unfold State.elemBits
    cases h : readElem s.mem a with
    | none => exact (hnone h).symm
    | some v => exact (hsome v h).1.symm
  exact ⟨k, by rw [hold, e]⟩

/-- The write of half an element of WIN or X, written or not. -/
theorem hostWrite_half_element {i o : Nat} (hr : s.rstN = true) (hb : s.busy = false) (hi : i < s.params.nMax)
    (ho : o ∈ [0x10000 + 8 * i, 0x20000 + 16 * i, 0x20008 + 16 * i]) (d : BitVec 64) (up : Bool) :
    ∃ t, hostWrite (BitVec.ofNat 18 (o + if up then 4 else 0)) 4 d s = .next t ∧
      t = { s with mem := t.mem, draws := t.draws, resp := some .writeOk } ∧
      readElem t.mem o = some (withHalf up (s.elemBits o) d) ∧
      ∀ a, a < o ∨ o + 8 ≤ a → readByte t.mem a = readByte s.mem a := by
  obtain ⟨l, hl, rfl, hw⟩ := exists_element_of_mem hi ho
  rw [hostWrite_of_target d hr (target_half hl up) (not_guarded_of_idle hb), hw]
  obtain ⟨k, e⟩ := writeBuffer_elemBits s l.addr (writeMask _ 4) (writeLane _ 4 d)
  rw [e, merge_half (upperHalf_addr hl up)]
  exact ⟨_, rfl, rfl, readElem_writeElem_same _ _ _, fun a ha => readByte_writeElem_other _ _ _ a ha⟩

end

/-- Settles O41: a half write of a location that holds a value is a whole write (`hostWrite_half`), whose read-back and
next states are known; an unwritten element is the case of `hostWrite_half_element`. -/
theorem halfWriteKeepsOtherHalf : Obligations.HalfWriteKeepsOtherHalf := by
  unfold Obligations.HalfWriteKeepsOtherHalf
  refine ⟨fun s t o d old hr hb ho h8 hread => ?readBack, fun s d hr hb => ?nextStates⟩
  case readBack =>
    obtain ⟨l, hw, hl, ha⟩ := exists_readWrite_of_offset h8 ho
    obtain rfl : o = BitVec.ofNat 18 l.addr := by rw [ha, BitVec.ofNat_toNat, BitVec.setWidth_eq]
    have h4 : BitVec.ofNat 18 l.addr + 4#18 = BitVec.ofNat 18 (l.addr + 4) := BitVec.ofNat_add .. |>.symm
    obtain ⟨l', ht, -, -, hv⟩ := State.reads.exists_target hread
    obtain rfl : l' = l := Option.some.inj (ht.symm.trans (target_addr hl))
    have half := hostWrite_half hr hb hw hl hv d
    rw [h4]
    exact ⟨fun h => (hostRead_after_hostWrite hr hb hw hl ((half false).symm.trans h)).1,
      fun h => (hostRead_after_hostWrite hr hb hw hl ((half true).symm.trans h)).1⟩
  case nextStates =>
    have reg := fun (r : Reg) hw => hostWrite_half_register (r := r) hr hb hw d
    have bandLo := reg .bandLo trivial
    have bandHi := reg .bandHi trivial
    have sample := reg .sample trivial
    have scalar := reg .scalar trivial
    have caRe := reg .caRe trivial
    have caIm := reg .caIm trivial
    have cbRe := reg .cbRe trivial
    have cbIm := reg .cbIm trivial
    simp only [State.writeReg, merge_whole] at bandLo bandHi sample scalar caRe caIm cbRe cbIm
    refine ⟨bandLo false, bandLo true, bandHi false, bandHi true, sample false, sample true, scalar false, scalar true,
      caRe false, caRe true, caIm false, caIm true, cbRe false, cbRe true, cbIm false, cbIm true, fun i o hi ho => ?_⟩
    have half := hostWrite_half_element hr hb hi ho d
    exact ⟨s.elemBits o, fun v hv => by rw [State.elemBits, hv, Option.getD_some], half false, half true⟩

/-! ### The register map and its reads (R81, R83, R88) -/

/-- The fields of STATUS (R33): a bit or a field of the word is that of the part it lies in. -/
theorem statusWord_fields (s : State) : s.statusWord.getLsbD 0 = s.busy ∧ s.statusWord.getLsbD 1 = s.done ∧
    s.statusWord.getLsbD 2 = s.err ∧ s.statusWord.extractLsb' 3 5 = 0#5 ∧ s.statusWord.extractLsb' 8 8 = s.ecode ∧
    s.statusWord.extractLsb' 16 8 = s.lastop ∧ s.statusWord.extractLsb' 24 40 = 0#40 := by
  unfold State.statusWord
  refine ⟨?busy, ?done, ?err, ?zeros, ?ecode, ?lastop, ?upper⟩
  case busy | done | err =>
    repeat rw [BitVec.getLsbD_append]
    simp
  case zeros | ecode | lastop | upper =>
    repeat rw [BitVec.extractLsb'_append_eq_ite]
    simp

/-- Each buffer's element below N_MAX, or part of one, is a location that holds what the element does. -/
theorem exists_bufferLoc_of_mem {p : Params} {i o : Nat} (hi : i < p.nMax)
    (ho : o ∈ [0x10000 + 8 * i, 0x20000 + 16 * i, 0x20008 + 16 * i, 0x30000 + 8 * i]) :
    ∃ l : Loc, l.inRange p ∧ l.addr = o ∧ ∀ s : State, s.readLoc l = readElem s.mem l.addr := by
  simp only [List.mem_cons, List.not_mem_nil, or_false] at ho
  rcases ho with rfl | rfl | rfl | rfl
  · exact ⟨.win i, hi, rfl, fun _ => rfl⟩
  · exact ⟨.xRe i, hi, rfl, fun _ => rfl⟩
  · exact ⟨.xIm i, hi, by simp only [Loc.addr, xBase]; omega, fun _ => rfl⟩
  · exact ⟨.out i, hi, rfl, fun _ => rfl⟩

/-- The map of R81 and R83 gives each location at its offset, and an aligned offset's location lies there. -/
theorem locate_map (p : Params) :
    (∀ r, locate p (Loc.reg r).addr = some (.reg r)) ∧
    (∀ l im, l < 16 → locate p (Loc.rom l im).addr = some (.rom l im)) ∧
    (∀ i, i < p.nMax → locate p (0x10000 + 8 * i) = some (.win i) ∧
      locate p (0x20000 + 16 * i) = some (.xRe i) ∧ locate p (0x20008 + 16 * i) = some (.xIm i) ∧
      locate p (0x30000 + 8 * i) = some (.out i)) ∧
    (∀ o l, o % 8 = 0 → o < 2 ^ 18 → locate p o = some l → l.addr = o) := by
  have at_addr : ∀ {l : Loc}, l.inRange p → locate p l.addr = some l := fun h => locate_addr h (k := 0) (by decide)
  refine ⟨fun r => at_addr trivial, fun l im hl => at_addr hl, fun i hi => ⟨?_, ?_, ?_, ?_⟩, fun o l h8 _ h => ?_⟩
  · exact at_addr (l := .win i) hi
  · exact at_addr (l := .xRe i) hi
  · have e : (Loc.xIm i).addr = 0x20008 + 16 * i := by simp only [Loc.addr, xBase]; omega
    exact e ▸ at_addr (l := .xIm i) hi
  · exact at_addr (l := .out i) hi
  · rw [addr_of_locate h]; omega

section
variable {s : State}

theorem reads_register (r : Reg) (hr : s.rstN = true) (hg : busyGuarded (.reg r) = false ∨ s.busy = false) :
    s.reads (BitVec.ofNat 18 (8 * r.slot)) (s.readReg r) :=
  reads_of_readLoc (l := .reg r) hr trivial (by rcases hg with h | h <;> simp [h]) rfl

/-- TWROM[L] holds W_BASE for the stages the part has, zero for the others (R42). -/
theorem readLoc_rom (s : State) (l : Fin 16) :
    s.readLoc (.rom l false) = some (if 1 ≤ l.val ∧ l.val ≤ s.params.log2nMax.val then s.twrom[l].re else 0#64) ∧
    s.readLoc (.rom l true) = some (if 1 ≤ l.val ∧ l.val ≤ s.params.log2nMax.val then s.twrom[l].im else 0#64) := by
  by_cases h : 1 ≤ l.val ∧ l.val ≤ s.params.log2nMax.val <;> simp [State.readLoc, State.rom, h]

theorem reads_rom (hr : s.rstN = true) (l : Fin 16) :
    s.reads (BitVec.ofNat 18 (0x100 + 16 * l.val))
      (if 1 ≤ l.val ∧ l.val ≤ s.params.log2nMax.val then s.twrom[l].re else 0#64) ∧
    s.reads (BitVec.ofNat 18 (0x108 + 16 * l.val))
      (if 1 ≤ l.val ∧ l.val ≤ s.params.log2nMax.val then s.twrom[l].im else 0#64) := by
  have read := fun im v => reads_of_readLoc (s := s) (l := .rom l im) (v := v) hr l.isLt (not_guarded_busy rfl)
  obtain ⟨re, im⟩ := readLoc_rom s l
  have him : (Loc.rom l true).addr = 0x108 + 16 * l.val := by simp only [Loc.addr, if_true]; omega
  exact ⟨read false _ re, him ▸ read true _ im⟩

/-- A buffer element reads as what it holds, and a read of an unwritten one faults (R346). -/
theorem reads_element {i o : Nat} (hr : s.rstN = true) (hb : s.busy = false) (hi : i < s.params.nMax)
    (ho : o ∈ [0x10000 + 8 * i, 0x20000 + 16 * i, 0x20008 + 16 * i, 0x30000 + 8 * i]) :
    (∀ v, readElem s.mem o = some v → s.reads (BitVec.ofNat 18 o) v) ∧
    (readElem s.mem o = none → hostRead (BitVec.ofNat 18 o) 8 s = .fault .unwrittenRead) := by
  obtain ⟨l, hl, rfl, hread⟩ := exists_bufferLoc_of_mem hi ho
  have hg := not_guarded_of_idle (l := l) hb
  refine ⟨fun v hv => reads_of_readLoc hr hl hg ((hread s).trans hv), fun hv => ?_⟩
  rw [hostRead_of_target hr (target_addr hl) hg, hread, hv]

/-- Where the 8-byte read answers, the 4-byte reads answer its halves (R84). -/
theorem State.reads.half {o : BitVec 18} {v : BitVec 64} (h : s.reads o v) (up : Bool) :
    hostRead (o + if up then 4#18 else 0#18) 4 s
      = .next (s.respond (.readOk ((v.extractLsb' (if up then 32 else 0) 32).setWidth 64))) := by
  obtain ⟨l, ht, hr, hg, hv⟩ := h.exists_target
  obtain ⟨-, h8, -, hl, ha⟩ := target_some ht
  have ho : o + (if up then 4#18 else 0#18) = BitVec.ofNat 18 (l.addr + if up then 4 else 0) := by
    apply BitVec.eq_of_toNat_eq
    cases up <;> simp <;> omega
  rw [ho, hostRead_of_target hr (target_half hl up) hg, hv]
  simp only [readLane_half (upperHalf_addr hl up)]

end

/-- Settles O38: the map, the reads register by register, of TWROM and of the elements, and the halves. -/
theorem mapReachesEveryLocation : Obligations.MapReachesEveryLocation := by
  unfold Obligations.MapReachesEveryLocation
  refine ⟨locate_map, fun s hr => ?reads, fun s o v h => ⟨?low, h.half true⟩⟩
  case reads =>
    have free := fun r hg => reads_register (s := s) r hr (.inl hg)
    refine ⟨free .id rfl, free .ctrl rfl, ⟨s.statusWord, free .status rfl, statusWord_fields s⟩, free .cmd rfl,
      reads_rom hr, fun hb => ?_⟩
    have idle := fun r => reads_register (s := s) r hr (.inr hb)
    exact ⟨idle .nlen, idle .bandLo, idle .bandHi, idle .sample, idle .scalar, idle .caRe, idle .caIm, idle .cbRe,
      idle .cbIm, idle .crRe, idle .crIm, idle .csRe, idle .csIm, fun i o => reads_element hr hb⟩
  case low =>
    have low := h.half false
    rwa [if_neg Bool.false_ne_true, BitVec.add_zero] at low

end Sys2Proof.Machine

/-! SUPPORT. The statements of 30_encoding.md: a word decodes to a command exactly when it is that command's encoding
(R111, R113, R115), the words that are no command (R115, R116), and the examples (R120). -/

namespace Sys2Proof

/-! ### The fields of a word (R111) and those a format does not use (R113, R115) -/

/-- A command's CJO is a given bit: where its format has the field, and where it lacks it, the bit being 0. -/
theorem Instr.eq_cjo_iff (i : Instr) (b : Bool) :
    b = i.cjo ↔ (i.format = .seqc → b = i.cjo) ∧ (i.format ≠ .seqc → b = false) := by
  cases i <;> simp [Instr.format, Instr.cjo]

/-- A command's L and J are given ones: where its format has the fields, and where it lacks them, those being 0. -/
theorem Instr.eq_stage_index_iff (i : Instr) (l : BitVec 4) (j : BitVec 16) :
    (l = i.stage ∧ j = i.index) ↔
      (i.format = .tw → l = i.stage ∧ j = i.index) ∧ (i.format ≠ .tw → l = 0#4 ∧ j = 0#16) := by
  cases i <;> simp [Instr.format, Instr.stage, Instr.index]

theorem field_toNat (w : BitVec 32) (start len : Nat) :
    (w.extractLsb' start len).toNat = w.toNat / 2 ^ start % 2 ^ len := by
  rw [BitVec.extractLsb'_toNat, Nat.shiftRight_eq_div_pow]

theorem getLsbD_eq_iff_toNat (w : BitVec 32) (k : Nat) (b : Bool) :
    w.getLsbD k = b ↔ w.toNat / 2 ^ k % 2 = b.toNat := by
  have hbit : (w.getLsbD k).toNat = w.toNat / 2 ^ k % 2 := Nat.toNat_testBit _ _
  rw [← hbit]
  cases b <;> cases w.getLsbD k <;> decide

theorem encode_toNat (i : Instr) :
    (encode i).toNat = i.index.toNat * 2 ^ 16 + i.stage.toNat * 2 ^ 12 + i.cjo.toNat * 2 ^ 8 + i.opc.toNat := by
  simp only [encode, Laws.TableMatch.append_toNat, BitVec.toNat_ofBool, BitVec.toNat_ofNat]
  omega

/-- A word is a command's encoding when its fields are the command's and RSV is 0 (R111). -/
theorem encode_eq_iff {i : Instr} {w : BitVec 32} :
    encode i = w ↔ w.extractLsb' 0 8 = i.opc ∧ w.getLsbD 8 = i.cjo ∧ w.extractLsb' 9 3 = 0#3 ∧
      w.extractLsb' 12 4 = i.stage ∧ w.extractLsb' 16 16 = i.index := by
  have hw := w.isLt
  have ho := i.opc.isLt
  have hc := i.cjo.toNat_lt
  have hl := i.stage.isLt
  have hj := i.index.isLt
  simp only [BitVec.toNat_eq, encode_toNat, field_toNat, getLsbD_eq_iff_toNat, BitVec.toNat_ofNat]
  omega

/-- Two adjacent fields are 0 exactly when the field they make up is. -/
theorem adjacent_fields_eq_zero_iff (w : BitVec 32) (start m n : Nat) :
    w.extractLsb' start (m + n) = 0#(m + n) ↔ w.extractLsb' start m = 0#m ∧ w.extractLsb' (start + m) n = 0#n := by
  have hsum : w.toNat / 2 ^ start % 2 ^ (m + n) =
      w.toNat / 2 ^ start % 2 ^ m + 2 ^ m * (w.toNat / 2 ^ (start + m) % 2 ^ n) := by
    rw [Nat.pow_add, Nat.mod_mul, Nat.div_div_eq_div_mul, ← Nat.pow_add]
  simp only [BitVec.toNat_eq, field_toNat, BitVec.toNat_ofNat, Nat.zero_mod, hsum]
  simp

/-- The unused bits of a word are 0 exactly when RSV is 0, and so are CJO, L and J where the format lacks them. -/
theorem reservedSet_eq_false_iff (f : Format) (w : BitVec 32) :
    reservedSet f w = false ↔ w.extractLsb' 9 3 = 0#3 ∧ (f ≠ .seqc → w.getLsbD 8 = false) ∧
      (f ≠ .tw → w.extractLsb' 12 4 = 0#4 ∧ w.extractLsb' 16 16 = 0#16) := by
  have hcjo : w.extractLsb' 8 1 = 0#1 ↔ w.getLsbD 8 = false := by
    rw [getLsbD_eq_iff_toNat, BitVec.toNat_eq, field_toNat]; rfl
  have h8 : w.extractLsb' 8 24 = 0#24 ↔ _ ∧ w.extractLsb' 9 23 = 0#23 := adjacent_fields_eq_zero_iff w 8 1 23
  have h8' : w.extractLsb' 8 4 = 0#4 ↔ _ ∧ w.extractLsb' 9 3 = 0#3 := adjacent_fields_eq_zero_iff w 8 1 3
  have h9 : w.extractLsb' 9 23 = 0#23 ↔ _ ∧ w.extractLsb' 12 20 = 0#20 := adjacent_fields_eq_zero_iff w 9 3 20
  have h12 : w.extractLsb' 12 20 = 0#20 ↔ _ ∧ w.extractLsb' 16 16 = 0#16 := adjacent_fields_eq_zero_iff w 12 4 16
  cases f <;> simp [reservedSet, h8, h8', h9, h12, hcjo, and_assoc, and_comm]

/-! ### Decoding (R114, R115) -/

/-- The command that a word's fields name, whatever the fields hold that its format does not use (R114, R115). -/
def namedCommand (w : BitVec 32) : Option Instr :=
  assemble (w.extractLsb' 0 8) (w.getLsbD 8) (w.extractLsb' 12 4) (w.extractLsb' 16 16)

theorem decode_of_named {w : BitVec 32} {i : Instr} (h : namedCommand w = some i) :
    decode w = if reservedSet i.format w then .error .reservedField else .ok i := by
  rw [decode, ← namedCommand, h]

theorem decode_of_not_named {w : BitVec 32} (h : namedCommand w = none) : decode w = .error .illegalOpcode := by
  rw [decode, ← namedCommand, h]

theorem decode_eq_ok_iff_named {w : BitVec 32} {i : Instr} :
    decode w = .ok i ↔ namedCommand w = some i ∧ reservedSet i.format w = false := by
  cases h : namedCommand w with
  | none => simp [decode_of_not_named h]
  | some k =>
    rw [decode_of_named h, Option.some_inj]
    by_cases hr : reservedSet k.format w
    · rw [if_pos hr]
      exact iff_of_false nofun fun ⟨hk, hi⟩ => by rw [← hk, hr] at hi; cases hi
    · rw [if_neg hr, Except.ok.injEq]
      exact ⟨fun hk => ⟨hk, hk ▸ Bool.eq_false_iff.2 hr⟩, And.left⟩

theorem decode_eq_illegalOpcode_iff {w : BitVec 32} : decode w = .error .illegalOpcode ↔ namedCommand w = none := by
  cases h : namedCommand w with
  | none => simp [decode_of_not_named h]
  | some i => rw [decode_of_named h]; split <;> simp

theorem decode_eq_reservedField_iff {w : BitVec 32} {i : Instr} (h : namedCommand w = some i) :
    decode w = .error .reservedField ↔ reservedSet i.format w = true := by
  rw [decode_of_named h]; split <;> simp [*]

/-! ### Decoding inverts encoding (R111, R115) -/

/-- The opcode fixes the command but for the fields of its format (R114). -/
theorem assemble_eq_some_iff {opc : BitVec 8} {cjo : Bool} {l : BitVec 4} {j : BitVec 16} {i : Instr} :
    assemble opc cjo l j = some i ↔
      opc = i.opc ∧ (i.format = .seqc → cjo = i.cjo) ∧ (i.format = .tw → l = i.stage ∧ j = i.index) := by
  constructor
  · intro h
    unfold assemble at h
    split at h <;> cases h <;>
      exact ⟨BitVec.eq_of_toNat_eq ‹_›, by simp [Instr.format, Instr.cjo, Instr.stage, Instr.index]⟩
  · rintro ⟨rfl, hcjo, htw⟩
    cases i with
    | ifft | filter | denoise => cases hcjo rfl; rfl
    | twgen | ctwmul | bfly => obtain ⟨rfl, rfl⟩ := htw rfl; rfl
    | _ => rfl

/-- The words that decode are the encodings, each of the command it decodes to: of the fields, those the format has
are the command's by its opcode's row, and those it lacks are 0 in both. -/
theorem decode_eq_ok_iff {w : BitVec 32} {i : Instr} : decode w = .ok i ↔ encode i = w := by
  rw [decode_eq_ok_iff_named, namedCommand, assemble_eq_some_iff, reservedSet_eq_false_iff, encode_eq_iff]
  have hcjo := i.eq_cjo_iff (w.getLsbD 8)
  have htw := i.eq_stage_index_iff (w.extractLsb' 12 4) (w.extractLsb' 16 16)
  constructor
  · rintro ⟨⟨hopc, hc, ht⟩, hrsv, hc0, ht0⟩
    exact ⟨hopc, hcjo.2 ⟨hc, hc0⟩, hrsv, htw.2 ⟨ht, ht0⟩⟩
  · rintro ⟨hopc, hc, hrsv, ht⟩
    exact ⟨⟨hopc, (hcjo.1 hc).1, (htw.1 ht).1⟩, hrsv, (hcjo.1 hc).2, (htw.1 ht).2⟩

/-- Settles O2: a command's encoding is a word that decodes to it. -/
theorem decodeEncodeRoundTrip : Obligations.DecodeEncodeRoundTrip := by
  unfold Obligations.DecodeEncodeRoundTrip
  exact fun i => decode_eq_ok_iff.2 rfl

/-- Settles O3: the other direction of the same equivalence. -/
theorem decodedWordIsItsEncoding : Obligations.DecodedWordIsItsEncoding := by
  unfold Obligations.DecodedWordIsItsEncoding
  exact fun w i => decode_eq_ok_iff.1

/-! ### The words that are no command (R113, R115, R116) -/

/-- The reserved opcodes (R116). -/
theorem assemble_eq_none_iff {opc : BitVec 8} {cjo : Bool} {l : BitVec 4} {j : BitVec 16} :
    assemble opc cjo l j = none ↔
      (0x09 ≤ opc.toNat ∧ opc.toNat ≤ 0x0F) ∨ opc.toNat = 0x17 ∨ 0x1B ≤ opc.toNat := by
  unfold assemble
  split
  case h_20 =>
    rw [iff_true_left rfl]
    simp only [imp_false] at *
    omega
  all_goals simp [*]

/-- A word with one of some known opcodes is RESERVED_FIELD exactly when the field that all their formats leave unused
is not 0. -/
theorem decode_eq_reservedField_iff_ne {w : BitVec 32} {opcs : List (BitVec 8)} {n : Nat} {x y : BitVec n}
    (hmem : w.extractLsb' 0 8 ∈ opcs)
    (hfield : ∀ opc ∈ opcs, ∀ cjo l j, ∃ i, assemble opc cjo l j = some i ∧ reservedSet i.format w = (x != y)) :
    decode w = .error .reservedField ↔ x ≠ y := by
  obtain ⟨i, hi, hr⟩ := hfield _ hmem _ _ _
  rw [decode_eq_reservedField_iff hi, hr, bne_iff_ne]

end Sys2Proof

namespace Sys2Proof.Machine

/-- An idle core records a presented word that does not decode, and its error, and nothing else (R303, R305). -/
theorem present_of_decode_error {s : State} {w : BitVec 32} {e : ErrorCause} (hb : s.busy = false)
    (hd : decode w = .error e) : s.present w = State.raiseError { s with cmdword := w } e := by
  simp [State.present, hb, hd]

/-- Settles O4: the reserved opcodes, the unused fields of each format, and the presentation of such a word. -/
theorem wordsThatAreNoCommand : Obligations.WordsThatAreNoCommand := by
  unfold Obligations.WordsThatAreNoCommand
  refine ⟨fun w => decode_eq_illegalOpcode_iff.trans assemble_eq_none_iff, fun w => ⟨?opSeq, ?seqc, ?tw⟩,
    fun s w hb => ⟨present_of_decode_error hb, present_of_decode_error hb⟩⟩
  case opSeq | seqc | tw =>
    refine fun hmem => decode_eq_reservedField_iff_ne hmem fun opc h cjo l j => ?_
    fin_cases h <;> exact ⟨_, rfl, rfl⟩

/-- Stage 0 is out of range for any part (R304). -/
theorem commandError_of_stage_zero {i : Instr} (hf : i.format = .tw) (hl : i.stage = 0#4) (p : Params)
    (n : BitVec 16) : commandError p n i = some .badTwiddle := by
  simp [commandError, invalidTW, hf, hl]

/-- Settles O1: each word by evaluation, and `bfly 0 0` by its stage. -/
theorem exampleWordsDecode : Obligations.ExampleWordsDecode := by
  unfold Obligations.ExampleWordsDecode
  exact ⟨rfl, rfl, rfl, rfl, rfl, rfl, rfl, rfl, rfl, rfl, rfl, rfl, rfl, rfl, rfl, rfl, rfl, rfl, rfl, rfl, rfl, rfl,
    rfl, rfl, rfl, commandError_of_stage_zero rfl rfl, rfl⟩

end Sys2Proof.Machine

/-! SUPPORT. The statements of 40_complex_alu.md: each binary64 operation case by case, one rounding lemma behind the
sum, the product, the quotient and the root, and the complex product (R140 to R159). -/

namespace Sys2Proof

/-! ### Patterns by sign and magnitude -/

section
variable (a : F64) (s : Bool)

@[simp] theorem neg64_withSign (m : BitVec 63) : neg64 (withSign s m) = withSign (!s) m := by
  have hbit : (0x8000000000000000#64 : F64) = BitVec.ofBool true ++ 0#63 := rfl
  rw [neg64, withSign, hbit, BitVec.xor_append, BitVec.xor_zero]
  cases s <;> rfl

@[simp] theorem f64Sign_neg64 : f64Sign (neg64 a) = !f64Sign a := by
  rw [eq_withSign a, neg64_withSign, f64Sign_withSign, f64Sign_withSign]

@[simp] theorem f64Exp_neg64 : f64Exp (neg64 a) = f64Exp a := by
  rw [eq_withSign a, neg64_withSign, f64Exp_withSign, f64Exp_withSign]

@[simp] theorem f64Frac_neg64 : f64Frac (neg64 a) = f64Frac a := by
  rw [eq_withSign a, neg64_withSign, f64Frac_withSign, f64Frac_withSign]

@[simp] theorem isNaN_neg64 : isNaN (neg64 a) = isNaN a := by simp only [isNaN, f64Exp_neg64, f64Frac_neg64]

@[simp] theorem isInf_neg64 : isInf (neg64 a) = isInf a := by simp only [isInf, f64Exp_neg64, f64Frac_neg64]

@[simp] theorem isFinite_neg64 : isFinite (neg64 a) = isFinite a := by simp only [isFinite, f64Exp_neg64]

@[simp] theorem valUnits_neg64 : valUnits (neg64 a) = -valUnits a := by
  simp only [valUnits, magUnits, f64Sign_neg64, f64Exp_neg64, f64Frac_neg64]
  cases f64Sign a <;> simp

@[simp] theorem f64Sign_signedZero : f64Sign (signedZero s) = s := f64Sign_withSign _ _

@[simp] theorem isZero_signedZero : isZero (signedZero s) = true := by cases s <;> decide

@[simp] theorem isInf_signedInf : isInf (signedInf s) = true := by cases s <;> decide

/-- What is finite is neither a NaN nor an infinity. -/
theorem isFinite_eq : isFinite a = (!isNaN a && !isInf a) := by
  simp only [isFinite, isNaN, isInf, bne]
  cases f64Exp a == 2047 <;> cases f64Frac a == 0 <;> rfl

end

section
variable {a b : F64}

theorem isNaN_of_isInf (h : isInf a = true) : isNaN a = false := by
  simp_all [isInf, isNaN]

theorem isInf_of_isNaN (h : isNaN a = true) : isInf a = false := by
  simp_all [isInf, isNaN]

theorem isZero_of_isInf (h : isInf a = true) : isZero a = false := by
  simp_all [isInf, isZero]

theorem isFinite_of_isZero (h : isZero a = true) : isFinite a = true := by
  simp_all [isZero, isFinite]

theorem isInf_of_isZero (h : isZero a = true) : isInf a = false := isInf_of_isFinite (isFinite_of_isZero h)

theorem isNaN_of_isZero (h : isZero a = true) : isNaN a = false := isNaN_of_isFinite (isFinite_of_isZero h)

/-- A pattern is its sign, its exponent and its fraction (R13). -/
theorem eq_of_fields (hs : f64Sign a = f64Sign b) (he : f64Exp a = f64Exp b) (hf : f64Frac a = f64Frac b) : a = b := by
  have ha := a.isLt
  have hb := b.isLt
  rw [f64Sign_eq, f64Sign_eq, decide_eq_decide] at hs
  rw [f64Exp_eq, f64Exp_eq] at he
  rw [f64Frac_eq, f64Frac_eq] at hf
  exact BitVec.eq_of_toNat_eq (by omega)

theorem eq_signedInf (h : isInf a = true) : a = signedInf (f64Sign a) := by
  have h' := isInf_signedInf (f64Sign a)
  simp only [isInf, Bool.and_eq_true, beq_iff_eq] at h h'
  exact eq_of_fields (f64Sign_signedInf _).symm (h.1.trans h'.1.symm) (h.2.trans h'.2.symm)

theorem eq_signedZero (h : isZero a = true) : a = signedZero (f64Sign a) := by
  have h' := isZero_signedZero (f64Sign a)
  simp only [isZero, Bool.and_eq_true, beq_iff_eq] at h h'
  exact eq_of_fields (f64Sign_signedZero _).symm (h.1.trans h'.1.symm) (h.2.trans h'.2.symm)

/-- A pattern is its sign and its magnitude. -/
theorem eq_of_f64Sign_magUnits (hs : f64Sign a = f64Sign b) (hm : magUnits a = magUnits b) : a = b := by
  rw [magUnits_eq, magUnits_eq, ← lowBits_eq, ← lowBits_eq] at hm
  rw [eq_withSign a, eq_withSign b, hs, BitVec.eq_of_toNat_eq (unitsOf_strictMono.injective hm)]

/-- A finite magnitude is a significand below 2^53 at a place the format has. -/
theorem magUnits_form (h : isFinite a = true) : ∃ m e, magUnits a = m * 2 ^ e ∧ m < 2 ^ 53 ∧ e ≤ 2045 := by
  have hf : f64Frac a < 2 ^ 52 := (a.extractLsb' 0 52).isLt
  have he : f64Exp a < 2 ^ 11 := (a.extractLsb' 52 11).isLt
  have hne : f64Exp a ≠ 2047 := by simpa [isFinite] using h
  unfold magUnits
  split
  · exact ⟨f64Frac a, 0, by rw [pow_zero, mul_one], by omega, by omega⟩
  · exact ⟨_, _, rfl, by omega, by omega⟩

/-- Rounding the exact value of a finite pattern gives the pattern (R140). -/
theorem roundRat_magUnits (h : isFinite a = true) : roundRat (f64Sign a) (magUnits a) 1 = a := by
  obtain ⟨m, e, hme, hm, he⟩ := magUnits_form h
  rw [hme]
  exact eq_of_f64Sign_magUnits (f64Sign_roundRat _ _ _) ((roundRat_exact _ hm he).2.trans hme.symm)

end

@[simp] theorem roundRat_zero (s : Bool) (den : Nat) : roundRat s 0 den = signedZero s := by
  simp [roundRat, ulpShift, roundNearestEven, signedZero]

/-! ### Signed numbers -/

section
variable (s t : Bool) (m n : Nat)

theorem valUnits_eq_signedNat (a : F64) : valUnits a = signedNat (f64Sign a) (magUnits a) := rfl

@[simp] theorem natAbs_signedNat : (signedNat s n).natAbs = n := by cases s <;> simp [signedNat]

@[simp] theorem natAbs_valUnits (a : F64) : (valUnits a).natAbs = magUnits a := natAbs_signedNat _ _

theorem signedNat_mul : signedNat s m * signedNat t n = signedNat (s != t) (m * n) := by
  cases s <;> cases t <;> simp [signedNat]

/-- The sign of an exact sum: that of its value, or a given one where the value is 0. -/
def sumSign (zeroSign : Bool) (v : Int) : Bool := if v = 0 then zeroSign else decide (v < 0)

@[simp] theorem signedNat_sumSign (v : Int) : signedNat (sumSign s v) v.natAbs = v := by
  unfold sumSign signedNat
  split
  · simp_all
  · simp only [decide_eq_true_eq]; omega

end

/-- `roundRat` is the nearest value to a signed fraction, with ties to the even fraction (R140). -/
theorem roundRat_nearest_signedNat (s : Bool) (n : Nat) {den : Nat} (hd : 0 < den)
    (hf : isFinite (roundRat s n den) = true) (c : F64) :
    (valUnits (roundRat s n den) * den - signedNat s n).natAbs ≤ (valUnits c * den - signedNat s n).natAbs ∧
    ((valUnits (roundRat s n den) * den - signedNat s n).natAbs = (valUnits c * den - signedNat s n).natAbs →
      valUnits c = valUnits (roundRat s n den) ∨ f64Frac (roundRat s n den) % 2 = 0) := by
  have hneg : signedNat s n < 0 → s = true := by cases s <;> simp [signedNat]
  have hpos : 0 < signedNat s n → s = false := by cases s <;> simp [signedNat]
  have h := roundRat_nearest_signed s (signedNat s n) den hd hneg hpos
  rw [natAbs_signedNat] at h
  exact h hf c

/-! ### Finite operands: the exact result rounded once (R140) -/

/-- An exact sum, rounded once; `zeroSign` is the sign of a zero sum. -/
def roundSum (zeroSign : Bool) (v : Int) : F64 := roundRat (sumSign zeroSign v) v.natAbs 1

section
variable {a b : F64}

theorem sumNonNaN_of_isFinite (nan : F64) (ha : isFinite a = true) (hb : isFinite b = true) :
    sumNonNaN nan a b = roundSum (f64Sign a && f64Sign b) (valUnits a + valUnits b) := by
  simp only [sumNonNaN, isInf_of_isFinite ha, isInf_of_isFinite hb, Bool.false_eq_true, if_false, roundSum, sumSign]
  split
  next h => rw [h, Int.natAbs_zero, roundRat_zero]
  next => rfl

theorem add64_of_isFinite (ha : isFinite a = true) (hb : isFinite b = true) :
    add64 a b = roundSum (f64Sign a && f64Sign b) (valUnits a + valUnits b) := by
  simp only [add64, isNaN_of_isFinite ha, isNaN_of_isFinite hb, Bool.or_self, Bool.false_eq_true, if_false,
    sumNonNaN_of_isFinite _ ha hb]

theorem sub64_of_isFinite (ha : isFinite a = true) (hb : isFinite b = true) :
    sub64 a b = roundSum (f64Sign a && !f64Sign b) (valUnits a - valUnits b) := by
  have hn : isFinite (neg64 b) = true := (isFinite_neg64 b).trans hb
  simp only [sub64, isNaN_of_isFinite ha, isNaN_of_isFinite hb, Bool.or_self, Bool.false_eq_true, if_false,
    sumNonNaN_of_isFinite _ ha hn, f64Sign_neg64, valUnits_neg64, ← sub_eq_add_neg]

theorem mul64_of_isFinite (ha : isFinite a = true) (hb : isFinite b = true) :
    mul64 a b = roundRat (f64Sign a != f64Sign b) (magUnits a * magUnits b) (2 ^ 1074) := by
  simp only [mul64, isNaN_of_isFinite ha, isNaN_of_isFinite hb, isInf_of_isFinite ha, isInf_of_isFinite hb,
    Bool.false_and, Bool.and_false, Bool.or_self, Bool.false_eq_true, if_false]

end

/-! ### A sum or difference (R140, R144) -/

section
variable (z : Bool) {v : Int}

theorem isFinite_roundSum_iff : isFinite (roundSum z v) = true ↔ v.natAbs < Machine.overflowUnits := by
  rw [roundSum, isFinite_roundRat_iff _ _ _ Nat.one_pos, Nat.mul_one]

theorem roundSum_of_eq_zero (hv : v = 0) : roundSum z v = if z then 0x8000000000000000#64 else 0#64 := by
  rw [hv, roundSum, Int.natAbs_zero, roundRat_zero, sumSign, if_pos rfl]
  cases z <;> rfl

theorem roundSum_overflow (h : isFinite (roundSum z v) = false) :
    roundSum z v = if v < 0 then 0xFFF0000000000000#64 else 0x7FF0000000000000#64 := by
  have hv : v ≠ 0 := by
    intro hv
    rw [roundSum_of_eq_zero z hv] at h
    cases z <;> revert h <;> decide
  rw [roundSum, roundRat_overflow h Nat.one_pos, sumSign, if_neg hv]
  by_cases hneg : v < 0 <;> simp only [hneg, decide_true, decide_false, if_true, if_false] <;> rfl

theorem roundSum_nearest (hf : isFinite (roundSum z v) = true) (c : F64) :
    (valUnits (roundSum z v) - v).natAbs ≤ (valUnits c - v).natAbs ∧
    ((valUnits (roundSum z v) - v).natAbs = (valUnits c - v).natAbs →
      valUnits c = valUnits (roundSum z v) ∨ f64Frac (roundSum z v) % 2 = 0) := by
  have h := roundRat_nearest_signedNat _ _ Nat.one_pos hf c
  simp only [Nat.cast_one, mul_one, signedNat_sumSign] at h
  exact h

end

/-- Settles O31: a sum and a difference of finite operands are each one rounding of an exact integer. -/
theorem sumIsNearestEven : Obligations.SumIsNearestEven := by
  unfold Obligations.SumIsNearestEven
  intro a b ha hb
  rw [add64_of_isFinite ha hb, sub64_of_isFinite ha hb]
  exact ⟨isFinite_roundSum_iff _, roundSum_overflow _, roundSum_of_eq_zero _, isFinite_roundSum_iff _,
    roundSum_overflow _, roundSum_of_eq_zero _, fun c _ => ⟨(roundSum_nearest _ · c), (roundSum_nearest _ · c)⟩⟩

/-! ### A product and a quotient (R140, R144) -/

theorem isInf_roundRat_of_not_isFinite {s : Bool} {n den : Nat} (hd : 0 < den)
    (h : isFinite (roundRat s n den) = false) : isInf (roundRat s n den) = true := by
  rw [roundRat_overflow h hd, isInf_signedInf]

/-- Settles O32: a product of finite operands rounds the product of the values, in units of `2^-2148`. -/
theorem productIsNearestEven : Obligations.ProductIsNearestEven := by
  unfold Obligations.ProductIsNearestEven
  intro a b ha hb
  have hd : 0 < 2 ^ 1074 := by positivity
  rw [mul64_of_isFinite ha hb, valUnits_eq_signedNat a, valUnits_eq_signedNat b, signedNat_mul, natAbs_signedNat]
  exact ⟨isFinite_roundRat_iff _ _ _ hd, isInf_roundRat_of_not_isFinite hd, f64Sign_roundRat _ _ _, fun c _ hf => by
    simpa only [Nat.cast_pow, Nat.cast_ofNat] using roundRat_nearest_signedNat _ _ hd hf c⟩

/-- The distance of a quotient, times a divisor with a sign, is that for the divisor's magnitude. -/
theorem natAbs_mul_signedNat_sub (q : Int) (s t : Bool) (m n k : Nat) :
    (q * signedNat t n - signedNat s m * k).natAbs = (q * n - signedNat (s != t) (m * k)).natAbs := by
  cases s <;> cases t <;> simp [signedNat] <;> omega

/-- Settles O33: a quotient of finite operands rounds the quotient of the magnitudes. -/
theorem quotientIsNearestEven : Obligations.QuotientIsNearestEven := by
  unfold Obligations.QuotientIsNearestEven
  intro a b ha hb hz
  have hd : 0 < magUnits b := Nat.pos_of_ne_zero fun h => by simp [(isZero_iff b).2 h] at hz
  have dist := fun q => natAbs_mul_signedNat_sub q (f64Sign a) (f64Sign b) (magUnits a) (magUnits b) (2 ^ 1074)
  simp only [← valUnits_eq_signedNat, Nat.cast_pow, Nat.cast_ofNat] at dist
  simp only [div64_of_isFinite ha hb hz, natAbs_valUnits, dist]
  exact ⟨isFinite_roundRat_iff _ _ _ hd, isInf_roundRat_of_not_isFinite hd, f64Sign_roundRat _ _ _,
    fun c _ hf => roundRat_nearest_signedNat _ _ hd hf c⟩

/-! ### NaN and infinite operands (R143, R144) -/

section
variable {a b : F64}

theorem add64_of_isNaN (h : isNaN a = true ∨ isNaN b = true) : add64 a b = nanResult .add a b := by
  rw [add64, if_pos (Bool.or_eq_true_iff.2 h)]

theorem sub64_of_isNaN (h : isNaN a = true ∨ isNaN b = true) : sub64 a b = nanResult .sub a b := by
  rw [sub64, if_pos (Bool.or_eq_true_iff.2 h)]

theorem add64_of_not_isNaN (ha : isNaN a = false) (hb : isNaN b = false) :
    add64 a b = sumNonNaN (nanResult .add a b) a b := by
  rw [add64, ha, hb, Bool.or_self, if_neg Bool.false_ne_true]

theorem sub64_of_not_isNaN (ha : isNaN a = false) (hb : isNaN b = false) :
    sub64 a b = sumNonNaN (nanResult .sub a b) a (neg64 b) := by
  rw [sub64, ha, hb, Bool.or_self, if_neg Bool.false_ne_true]

theorem sumNonNaN_isInf_opposite (nan : F64) (ha : isInf a = true) (hb : isInf b = true)
    (hs : f64Sign a ≠ f64Sign b) : sumNonNaN nan a b = nan := by
  simp [sumNonNaN, ha, hb, hs]

theorem sumNonNaN_isInf_left (nan : F64) (ha : isInf a = true) (h : isInf b = true → f64Sign a = f64Sign b) :
    sumNonNaN nan a b = a := by
  cases hb : isInf b <;> simp_all [sumNonNaN]

theorem sumNonNaN_isInf_right (nan : F64) (ha : isInf a = false) (hb : isInf b = true) : sumNonNaN nan a b = b := by
  simp [sumNonNaN, ha, hb]

/-- The operands whose product is a NaN: a NaN among them, or an infinity and a zero (R143). -/
def NoProduct (a b : F64) : Prop :=
  isNaN a = true ∨ isNaN b = true ∨ (isInf a = true ∧ isZero b = true) ∨ (isZero a = true ∧ isInf b = true)

theorem NoProduct.symm (h : NoProduct a b) : NoProduct b a := by
  unfold NoProduct at *
  tauto

theorem mul64_of_noProduct (h : NoProduct a b) : mul64 a b = nanResult .mul a b := by
  rw [mul64, if_pos (by simpa [NoProduct, or_assoc] using h)]

theorem mul64_of_not_noProduct (h : ¬NoProduct a b) :
    mul64 a b = if isInf a || isInf b then signedInf (f64Sign a != f64Sign b)
      else roundRat (f64Sign a != f64Sign b) (magUnits a * magUnits b) (2 ^ 1074) := by
  rw [mul64, if_neg (by simpa [NoProduct, or_assoc] using h)]

theorem mul64_isInf_left (ha : isInf a = true) (hb : isNaN b = false) (hz : isZero b = false) :
    mul64 a b = signedInf (f64Sign a != f64Sign b) := by
  rw [mul64_of_not_noProduct (by simp [NoProduct, ha, hb, hz, isNaN_of_isInf ha, isZero_of_isInf ha]), ha,
    Bool.true_or, if_pos rfl]

theorem mul64_isInf_right (hb : isInf b = true) (ha : isNaN a = false) (hz : isZero a = false) :
    mul64 a b = signedInf (f64Sign a != f64Sign b) := by
  rw [mul64_of_not_noProduct (by simp [NoProduct, hb, ha, hz, isNaN_of_isInf hb, isZero_of_isInf hb]), hb,
    Bool.or_true, if_pos rfl]

theorem div64_of_invalid (h : isNaN a = true ∨ isNaN b = true ∨ (isInf a = true ∧ isInf b = true) ∨
    (isZero a = true ∧ isZero b = true)) : div64 a b = nanResult .div a b := by
  rw [div64, if_pos (by simpa [or_assoc] using h)]

theorem div64_isZero_right (hb : isZero b = true) (ha : isNaN a = false) (hz : isZero a = false) :
    div64 a b = signedInf (f64Sign a != f64Sign b) := by
  simp [div64, hb, ha, hz, isNaN_of_isZero hb, isInf_of_isZero hb]

theorem div64_isInf_left (ha : isInf a = true) (hb : isFinite b = true) :
    div64 a b = signedInf (f64Sign a != f64Sign b) := by
  simp [div64, ha, isNaN_of_isInf ha, isZero_of_isInf ha, isNaN_of_isFinite hb, isInf_of_isFinite hb]

theorem div64_isInf_right (ha : isFinite a = true) (hb : isInf b = true) :
    div64 a b = signedZero (f64Sign a != f64Sign b) := by
  simp [div64, hb, isNaN_of_isInf hb, isZero_of_isInf hb, isNaN_of_isFinite ha, isInf_of_isFinite ha]

end

/-- Settles O34: each clause is one case of the operation it speaks of. -/
theorem invalidOperationsAndDivisionByZero : Obligations.InvalidOperationsAndDivisionByZero := by
  unfold Obligations.InvalidOperationsAndDivisionByZero
  intro a b
  refine ⟨fun h => ?nan, fun ha hb hs => ?addOpposite, fun ha hb hs => ?subSame, fun h => ?mulInvalid,
    fun h => ?divInvalid, fun ha hz hb => ?divZero, fun ha hb => ?infFinite, fun ha hb hs => ?addSame,
    fun ha hb hs => ?subOpposite, fun h => ?mulInf, fun ha hb => ?divInfLeft, fun ha hb => ?divInfRight⟩
  case nan =>
    rw [add64_of_isNaN h, sub64_of_isNaN h, mul64_of_noProduct (by unfold NoProduct; tauto),
      div64_of_invalid (by tauto)]
    exact ⟨isQuietNaN_nanResult _ a b, isQuietNaN_nanResult _ a b, isQuietNaN_nanResult _ a b,
      isQuietNaN_nanResult _ a b⟩
  case addOpposite =>
    rw [add64_of_not_isNaN (isNaN_of_isInf ha) (isNaN_of_isInf hb), sumNonNaN_isInf_opposite _ ha hb hs]
    exact isQuietNaN_nanResult _ a b
  case subSame =>
    rw [sub64_of_not_isNaN (isNaN_of_isInf ha) (isNaN_of_isInf hb),
      sumNonNaN_isInf_opposite _ ha ((isInf_neg64 b).trans hb) (by simp [hs])]
    exact isQuietNaN_nanResult _ a b
  case mulInvalid =>
    rw [mul64_of_noProduct (by unfold NoProduct; tauto)]
    exact isQuietNaN_nanResult _ a b
  case divInvalid =>
    rw [div64_of_invalid (by tauto)]
    exact isQuietNaN_nanResult _ a b
  case divZero =>
    rw [div64_isZero_right hb ha hz]
    exact ⟨isInf_signedInf _, f64Sign_signedInf _⟩
  case infFinite =>
    have hna := isNaN_of_isInf ha
    have hnb := isNaN_of_isFinite hb
    have hib := isInf_of_isFinite hb
    rw [add64_of_not_isNaN hna hnb, add64_of_not_isNaN hnb hna, sub64_of_not_isNaN hna hnb,
      sub64_of_not_isNaN hnb hna]
    exact ⟨sumNonNaN_isInf_left _ ha (by simp [hib]), sumNonNaN_isInf_right _ hib ha,
      sumNonNaN_isInf_left _ ha (by simp [hib]), sumNonNaN_isInf_right _ hib ((isInf_neg64 a).trans ha)⟩
  case addSame =>
    rw [add64_of_not_isNaN (isNaN_of_isInf ha) (isNaN_of_isInf hb), sumNonNaN_isInf_left _ ha fun _ => hs]
  case subOpposite =>
    rw [sub64_of_not_isNaN (isNaN_of_isInf ha) (isNaN_of_isInf hb),
      sumNonNaN_isInf_left _ ha fun _ => by rw [f64Sign_neg64]; exact Bool.eq_not.2 hs]
  case mulInf =>
    have hinf : mul64 a b = signedInf (f64Sign a != f64Sign b) := by
      rcases h with ⟨ha, hb, hz⟩ | ⟨hb, ha, hz⟩
      · exact mul64_isInf_left ha hb hz
      · exact mul64_isInf_right hb ha hz
    rw [hinf]
    exact ⟨isInf_signedInf _, f64Sign_signedInf _⟩
  case divInfLeft =>
    rw [div64_isInf_left ha hb]
    exact ⟨isInf_signedInf _, f64Sign_signedInf _⟩
  case divInfRight =>
    rw [div64_isInf_right ha hb]
    exact ⟨isZero_signedZero _, f64Sign_signedZero _⟩

/-! ### The complex product (R147, R150) -/

section
open Machine (sameUpToNaN)
variable {a a' b b' : F64}

theorem sameUpToNaN_sumNonNaN_comm (ha : isNaN a = false) (hb : isNaN b = false) (nan nan' : F64) (h : isNaN nan = true)
    (h' : isNaN nan' = true) : sameUpToNaN (sumNonNaN nan a b) (sumNonNaN nan' b a) := by
  cases hia : isInf a <;> cases hib : isInf b
  · have hfa : isFinite a = true := by rw [isFinite_eq, ha, hia]; rfl
    have hfb : isFinite b = true := by rw [isFinite_eq, hb, hib]; rfl
    rw [sumNonNaN_of_isFinite _ hfa hfb, sumNonNaN_of_isFinite _ hfb hfa, Bool.and_comm, add_comm]
    exact .inl rfl
  · rw [sumNonNaN_isInf_right _ hia hib, sumNonNaN_isInf_left _ hib (by simp [hia])]
    exact .inl rfl
  · rw [sumNonNaN_isInf_right _ hib hia, sumNonNaN_isInf_left _ hia (by simp [hib])]
    exact .inl rfl
  · by_cases hs : f64Sign a = f64Sign b
    · rw [eq_signedInf hia, eq_signedInf hib, hs, sumNonNaN_isInf_left _ (isInf_signedInf _) fun _ => rfl,
        sumNonNaN_isInf_left _ (isInf_signedInf _) fun _ => rfl]
      exact .inl rfl
    · rw [sumNonNaN_isInf_opposite _ hia hib hs, sumNonNaN_isInf_opposite _ hib hia (Ne.symm hs)]
      exact .inr ⟨h, h'⟩

theorem sameUpToNaN_add64_comm (a b : F64) : sameUpToNaN (add64 a b) (add64 b a) := by
  by_cases h : isNaN a = true ∨ isNaN b = true
  · rw [add64_of_isNaN h, add64_of_isNaN h.symm]
    exact .inr ⟨isNaN_nanResult _ _ _, isNaN_nanResult _ _ _⟩
  · obtain ⟨ha, hb⟩ : isNaN a = false ∧ isNaN b = false := by simpa using h
    rw [add64_of_not_isNaN ha hb, add64_of_not_isNaN hb ha]
    exact sameUpToNaN_sumNonNaN_comm ha hb _ _ (isNaN_nanResult _ _ _) (isNaN_nanResult _ _ _)

theorem sameUpToNaN_mul64_comm (a b : F64) : sameUpToNaN (mul64 a b) (mul64 b a) := by
  by_cases h : NoProduct a b
  · rw [mul64_of_noProduct h, mul64_of_noProduct h.symm]
    exact .inr ⟨isNaN_nanResult _ _ _, isNaN_nanResult _ _ _⟩
  · rw [mul64_of_not_noProduct h, mul64_of_not_noProduct (mt NoProduct.symm h), Bool.or_comm, bne_comm,
      Nat.mul_comm]
    exact .inl rfl

theorem Machine.sameUpToNaN.trans {a b c : F64} (h : sameUpToNaN a b) (h' : sameUpToNaN b c) : sameUpToNaN a c := by
  rcases h with rfl | ⟨ha, hb⟩
  · exact h'
  · rcases h' with rfl | ⟨-, hc⟩
    · exact .inr ⟨ha, hb⟩
    · exact .inr ⟨ha, hc⟩

/-- An operation that hands a NaN operand on is blind to which NaN it was. -/
theorem Machine.sameUpToNaN.map₂ {f : F64 → F64 → F64}
    (hf : ∀ a b, isNaN a = true ∨ isNaN b = true → isNaN (f a b) = true)
    (ha : sameUpToNaN a a') (hb : sameUpToNaN b b') : sameUpToNaN (f a b) (f a' b') := by
  rcases ha with rfl | ⟨ha, ha'⟩
  · rcases hb with rfl | ⟨hb, hb'⟩
    · exact .inl rfl
    · exact .inr ⟨hf _ _ (.inr hb), hf _ _ (.inr hb')⟩
  · exact .inr ⟨hf _ _ (.inl ha), hf _ _ (.inl ha')⟩

theorem isNaN_add64 (a b : F64) (h : isNaN a = true ∨ isNaN b = true) : isNaN (add64 a b) = true := by
  rw [add64_of_isNaN h]
  exact isNaN_nanResult _ _ _

theorem isNaN_sub64 (a b : F64) (h : isNaN a = true ∨ isNaN b = true) : isNaN (sub64 a b) = true := by
  rw [sub64_of_isNaN h]
  exact isNaN_nanResult _ _ _

end

/-- Settles O35: the four products commute, and so does the sum. -/
theorem complexProductCommutes : Obligations.ComplexProductCommutes := by
  unfold Obligations.ComplexProductCommutes
  exact fun a b => ⟨(sameUpToNaN_mul64_comm _ _).map₂ isNaN_sub64 (sameUpToNaN_mul64_comm _ _),
    ((sameUpToNaN_mul64_comm _ _).map₂ isNaN_add64 (sameUpToNaN_mul64_comm _ _)).trans (sameUpToNaN_add64_comm _ _)⟩

section
variable {c d : F64}

theorem magUnits_one : magUnits F64.one = 2 ^ 1074 := by
  have hexp : f64Exp F64.one = 1023 := by decide
  have hfrac : f64Frac F64.one = 0 := by decide
  rw [magUnits, hexp, hfrac, if_neg (by decide), Nat.add_zero, ← pow_add]

theorem one_mul64 (hc : isFinite c = true) : mul64 F64.one c = c := by
  have hsign : f64Sign F64.one = false := by decide
  have hround := roundRat_mul_right (f64Sign c) (magUnits c) 1 (c := 2 ^ 1074) (by positivity)
  rw [Nat.one_mul, Nat.mul_comm, roundRat_magUnits hc] at hround
  rw [mul64_of_isFinite (by decide) hc, hsign, Bool.false_bne, magUnits_one, hround]

theorem zero_mul64 (hd : isFinite d = true) : mul64 F64.zero d = signedZero (f64Sign d) := by
  have hsign : f64Sign F64.zero = false := by decide
  have hmag : magUnits F64.zero = 0 := by decide
  rw [mul64_of_isFinite (by decide) hd, hsign, Bool.false_bne, hmag, Nat.zero_mul, roundRat_zero]

theorem sumSign_signedNat (z s : Bool) {n : Nat} (hn : n ≠ 0) : sumSign z (signedNat s n) = s := by
  cases s
  · simp [sumSign, signedNat, hn]
  · simp [sumSign, signedNat, hn, Nat.pos_of_ne_zero hn]

/-- A finite value plus an exact zero is the value, but for the sign of a zero. -/
theorem roundSum_valUnits (z : Bool) (hc : isFinite c = true) :
    roundSum z (valUnits c) = if isZero c then signedZero z else c := by
  rw [roundSum, natAbs_valUnits, valUnits_eq_signedNat]
  split
  next h => rw [(isZero_iff c).1 h, roundRat_zero]; cases f64Sign c <;> rfl
  next h => rw [sumSign_signedNat _ _ (mt (isZero_iff c).2 h), roundRat_magUnits hc]

/-- Where a zero loses its sign it was `-0.0` and becomes `+0.0`. -/
theorem signedZero_and_eq (t : Bool) : (if isZero c then signedZero (f64Sign c && t) else c) =
    if c = 0x8000000000000000#64 ∧ t = false then 0#64 else c := by
  split
  next h =>
    rw [eq_signedZero h, f64Sign_signedZero]
    cases f64Sign c <;> cases t <;> rfl
  next h =>
    rw [if_neg]
    rintro ⟨rfl, -⟩
    exact h rfl

theorem valUnits_signedZero (s : Bool) : valUnits (signedZero s) = 0 := by cases s <;> decide

theorem add64_signedZero (s : Bool) (hc : isFinite c = true) :
    add64 c (signedZero s) = if c = 0x8000000000000000#64 ∧ s = false then 0#64 else c := by
  rw [add64_of_isFinite hc (isFinite_of_isZero (isZero_signedZero s)), valUnits_signedZero, add_zero,
    f64Sign_signedZero, roundSum_valUnits _ hc, signedZero_and_eq]

theorem sub64_signedZero (s : Bool) (hc : isFinite c = true) :
    sub64 c (signedZero s) = if c = 0x8000000000000000#64 ∧ s = true then 0#64 else c := by
  rw [sub64_of_isFinite hc (isFinite_of_isZero (isZero_signedZero s)), valUnits_signedZero, sub_zero,
    f64Sign_signedZero, roundSum_valUnits _ hc, signedZero_and_eq]
  simp only [Bool.not_eq_false']

end

/-- Settles O36: the products by 1.0 are exact and those by `+0.0` are zeros with the other factor's sign. -/
theorem multiplyByOne : Obligations.MultiplyByOne := by
  unfold Obligations.MultiplyByOne
  intro c d hc hd
  rw [cmul, one_mul64 hc, one_mul64 hd, zero_mul64 hc, zero_mul64 hd, sub64_signedZero _ hc, add64_signedZero _ hd]

/-! ### MAG_FN and PHASE_FN (R158, R159) -/

/-- What `roundSqrt` rounds: the root in eighths of a unit, rounded down to a quarter, with a remainder kept as one
more eighth. -/
def sqrtEighths (n : Nat) : Nat :=
  2 * isqrt (16 * n) + if isqrt (16 * n) * isqrt (16 * n) = 16 * n then 0 else 1

theorem roundSqrt_eq (n : Nat) : roundSqrt n = roundRat false (sqrtEighths n) 8 := rfl

/-- Against every half unit `m / 2`, `sqrtEighths` lies as the exact root does. -/
theorem sqrtEighths_compare (n m : Nat) :
    (sqrtEighths n ≤ 4 * m ↔ 4 * n ≤ m ^ 2) ∧ (4 * m ≤ sqrtEighths n ↔ m ^ 2 ≤ 4 * n) := by
  obtain ⟨hle, hlt⟩ := isqrt_spec (16 * n)
  have hsq : 2 * m * (2 * m) = 4 * m ^ 2 := by ring
  unfold sqrtEighths
  generalize isqrt (16 * n) = r at *
  rcases lt_trichotomy r (2 * m) with h | h | h
  · have hsucc : (r + 1) * (r + 1) ≤ 2 * m * (2 * m) := Nat.mul_self_le_mul_self h
    split <;> omega
  · rw [← h] at hsq
    split <;> omega
  · have hmul : 2 * m * (2 * m) < r * r := Nat.mul_self_lt_mul_self h
    split <;> omega

/-- `roundSqrt` is a nearest magnitude to the root, compared through the squares of the midpoints (R140). -/
theorem roundSqrt_nearest (n : Nat) (hf : isFinite (roundSqrt n) = true) (c : F64) :
    (magUnits (roundSqrt n) < magUnits c → 4 * n ≤ (magUnits (roundSqrt n) + magUnits c) ^ 2) ∧
    (magUnits c < magUnits (roundSqrt n) → (magUnits (roundSqrt n) + magUnits c) ^ 2 ≤ 4 * n) := by
  obtain ⟨hnear, -⟩ := roundRat_nearest false (sqrtEighths n) 8 (by norm_num) hf c
  rw [← roundSqrt_eq] at hnear
  obtain ⟨above, below⟩ := sqrtEighths_compare n (magUnits (roundSqrt n) + magUnits c)
  rw [← above, ← below]
  omega

theorem roundSqrt_overflow {n : Nat} (h : isFinite (roundSqrt n) = false) : roundSqrt n = 0x7FF0000000000000#64 :=
  roundRat_overflow (s := false) h (by norm_num)

section
variable {a b : F64}

theorem hypot64_of_isFinite (ha : isFinite a = true) (hb : isFinite b = true) :
    hypot64 a b = roundSqrt (magUnits a ^ 2 + magUnits b ^ 2) := by
  simp only [hypot64, isNaN_of_isFinite ha, isNaN_of_isFinite hb, isInf_of_isFinite ha, isInf_of_isFinite hb,
    Bool.or_self, Bool.false_eq_true, if_false, sq]

theorem hypot64_of_isInf (h : isInf a = true ∨ isInf b = true) : hypot64 a b = signedInf false := by
  rw [hypot64, if_pos (Bool.or_eq_true_iff.2 h)]

theorem hypot64_of_isNaN (ha : isInf a = false) (hb : isInf b = false) (h : isNaN a = true ∨ isNaN b = true) :
    hypot64 a b = nanResult .hypot a b := by
  rw [hypot64, ha, hb, Bool.or_self, if_neg Bool.false_ne_true, if_pos (Bool.or_eq_true_iff.2 h)]

theorem atan264_of_isNaN (h : isNaN a = true ∨ isNaN b = true) : atan264 a b = nanResult .atan2 a b := by
  rw [atan264, if_pos (Bool.or_eq_true_iff.2 h)]

theorem atan264_of_isZero (ha : isZero a = true) (hb : isNaN b = false) : atan264 a b =
    if f64Sign b then withSign (f64Sign a) (roundedQuarterTurns 4) else signedZero (f64Sign a) := by
  simp only [atan264, isNaN_of_isZero ha, hb, ha, Bool.or_self, Bool.false_eq_true, if_false, if_true]

end

/-- Settles O12: the square root of an exact integer, rounded once. -/
theorem hypotIsNearest : Obligations.HypotIsNearest := by
  unfold Obligations.HypotIsNearest
  intro a b ha hb
  rw [hypot64_of_isFinite ha hb]
  exact ⟨isFinite_roundSqrt_iff _, roundSqrt_overflow, fun c _ hf => roundSqrt_nearest _ hf c⟩

/-- Settles O11: each special value is one case of its function. -/
theorem magnitudeAndPhaseSpecialValues : Obligations.MagnitudeAndPhaseSpecialValues := by
  unfold Obligations.MagnitudeAndPhaseSpecialValues
  intro a b
  refine ⟨hypot64_of_isInf, fun h => ?magNaN, fun ha hb => ?magZero, fun h => ?phaseNaN, fun ha hb hs => ?phasePi,
    fun ha hb hs => ?phaseZero⟩
  case magNaN =>
    have hyp : hypot64 a b = nanResult .hypot a b := by
      rcases h with ⟨ha, hb⟩ | ⟨ha, hb⟩
      · exact hypot64_of_isNaN (isInf_of_isNaN ha) (isInf_of_isFinite hb) (.inl ha)
      · exact hypot64_of_isNaN (isInf_of_isFinite ha) (isInf_of_isNaN hb) (.inr hb)
    rw [hyp]
    exact isNaN_nanResult _ a b
  case magZero =>
    rw [hypot64_of_isFinite (isFinite_of_isZero ha) (isFinite_of_isZero hb), (isZero_iff a).1 ha, (isZero_iff b).1 hb]
    decide
  case phaseNaN =>
    rw [atan264_of_isNaN h]
    exact isNaN_nanResult _ a b
  case phasePi =>
    rw [atan264_of_isZero ha hb, if_pos hs]
    cases f64Sign a <;> rfl
  case phaseZero =>
    rw [atan264_of_isZero ha hb, hs, if_neg Bool.false_ne_true]
    cases f64Sign a <;> rfl

end Sys2Proof

namespace Sys2Proof.Machine

/-! ### The operand commands (R151 to R159) -/

/-- What the template of R151 changes: CR, BUSY and DONE. -/
theorem finishCR_eq (s : State) (z : C64) :
    s.finishCR z = .next { s with cr := z, engine := none, done := true } := rfl

/-- Settles O9: each arm is the template with its primitive's value. -/
theorem arithmeticCommandsComplete : Obligations.ArithmeticCommandsComplete := by
  unfold Obligations.ArithmeticCommandsComplete
  exact fun s => ⟨rfl, finishCR_eq s (cadd s.ca s.cb), finishCR_eq s (csub s.ca s.cb), finishCR_eq s (cmul s.ca s.cb),
    finishCR_eq s (cdivr s.ca s.scalar), finishCR_eq s (cconj s.ca)⟩

/-- Settles O10: the template with MAG_FN and with PHASE_FN of the part. -/
theorem magnitudeAndPhaseComplete : Obligations.MagnitudeAndPhaseComplete := by
  unfold Obligations.MagnitudeAndPhaseComplete
  exact fun s => ⟨finishCR_eq s ⟨magFn s.params s.ca.re s.ca.im, F64.zero⟩,
    finishCR_eq s ⟨phaseFn s.params s.ca.im s.ca.re, F64.zero⟩⟩

end Sys2Proof.Machine

/-! SUPPORT. The statements of 41_fft.md: the twiddle commands run with the chain of R183, and the transform satisfies
the recursion of R190 and is what FFT leaves in X. -/

namespace Sys2Proof

/-! ### The recursion of the transform (R183, R186, R190) -/

section
variable {w : C64} {rom : Nat → C64} {x : List C64} {l : Nat}

/-- The recursion of R183 has one solution. -/
theorem eq_twChain {acc : Nat → C64} (h0 : acc 0 = C64.one) (hs : ∀ k, acc (k + 1) = cmul (acc k) w) (k : Nat) :
    acc k = twChain w k := by
  induction k with
  | zero => exact h0
  | succ k ih => rw [hs, ih, twChain]

theorem twList_one_getElem? {n j : Nat} (h : j < n) : (twList w C64.one n)[j]? = some (twChain w j) := by
  simpa [twChain] using twList_getElem? w n 0 j h

/-- A combination step by position: each butterfly's outputs stand half the length apart. -/
theorem combine_getElem? {ev od : List C64} (hlen : ev.length = od.length) {j : Nat} {e o : C64}
    (he : ev[j]? = some e) (ho : od[j]? = some o) :
    (combine rom l ev od)[j]? = some (butterfly rom e o l j).1 ∧
    (combine rom l ev od)[j + ev.length]? = some (butterfly rom e o l j).2 := by
  have hj : j < ev.length := (List.getElem?_eq_some_iff.1 he).1
  have hb := butterflies_getElem? _ _ _ _ _ _ _ (twList_one_getElem? (w := rom l) hj) he ho
  have hbl : (butterflies (twList (rom l) C64.one ev.length) ev od).length = ev.length := by
    simp [butterflies_length, hlen]
  constructor
  · rw [combine, List.getElem?_append_left (by simpa [hbl] using hj), List.getElem?_map, hb]
    rfl
  · rw [combine, List.getElem?_append_right (by simp [hbl]), List.length_map, hbl, Nat.add_sub_cancel,
      List.getElem?_map, hb]
    rfl

theorem evens_length_of_pow (h : x.length = 2 ^ (l + 1)) : (evens x).length = 2 ^ l := by
  rw [evens_length, h, pow_succ]; omega

theorem odds_length_of_pow (h : x.length = 2 ^ (l + 1)) : (odds x).length = 2 ^ l := by
  rw [odds_length, h, pow_succ]; omega

theorem fft_of_length_le_one (h : x.length ≤ 1) : fft rom x = x := by
  have : Nat.log2 x.length = 0 := by interval_cases x.length <;> decide
  rw [fft, this, fftStage]

theorem fft_eq_combine (h : x.length = 2 ^ (l + 1)) :
    fft rom x = combine rom (l + 1) (fft rom (evens x)) (fft rom (odds x)) := by
  simp only [fft, evens_length_of_pow h, odds_length_of_pow h, h, Nat.log2_two_pow, fftStage]

end

/-- Settles O14: the halves are the even- and odd-indexed elements, and stage `l + 1` combines their transforms. -/
theorem fftRecursion : Obligations.FftRecursion := by
  unfold Obligations.FftRecursion
  refine fun rom x => ⟨fft_of_length_le_one, fun l h => ⟨fft_length rom (l + 1) x h, ?_⟩⟩
  have hev := evens_length_of_pow h
  have hod := odds_length_of_pow h
  have hfe : (fft rom (evens x)).length = 2 ^ l := (fft_length rom l _ hev).trans hev
  have hfo : (fft rom (odds x)).length = 2 ^ l := (fft_length rom l _ hod).trans hod
  refine ⟨evens x, odds x, hev, hod, fun j _ => ⟨evens_getElem? x j, odds_getElem? x j⟩, fun j e o he ho => ?_⟩
  rw [fft_eq_combine h, ← hfe]
  exact combine_getElem? (hfe.trans hfo.symm) he ho

end Sys2Proof

namespace Sys2Proof.Machine

/-! ### The twiddle commands (R187 to R189) -/

section
variable {s : State} {l : BitVec 4} {j : BitVec 16}

theorem rom_of_twiddleOk (h : twiddleOk s.params l j) : s.rom l.toNat = s.twrom[l.toNat]'l.isLt := by
  obtain ⟨h1, hmax, _⟩ := h
  simp [State.rom, h1, hmax]

/-- With legal fields a twiddle command runs with the value at `J` of any chain of R183 over `TWROM[L]`. -/
theorem twCommand_of_twiddleOk (h : twiddleOk s.params l j) {acc : Nat → C64} (h0 : acc 0 = C64.one)
    (hs : ∀ k, acc (k + 1) = cmul (acc k) (s.twrom[l.toNat]'l.isLt)) (k : C64 → Result) :
    s.twCommand l j k = k (acc j.toNat) := by
  rw [State.twCommand, (invalidTW_iff s.params l j).2 h, if_neg Bool.false_ne_true, twAcc, rom_of_twiddleOk h,
    eq_twChain h0 hs]

end

/-- Settles O13: the three commands are one twiddle command with three ways to finish. -/
theorem twiddleCommandsComplete : Obligations.TwiddleCommandsComplete := by
  unfold Obligations.TwiddleCommandsComplete
  intro s l j acc hok h0 hs
  have run := twCommand_of_twiddleOk hok h0 hs
  exact ⟨run fun w => s.finishCR w, run fun w => s.finishCR (cmul w s.ca),
    run fun w => .next ((s.setCR (butterflyWith w s.ca s.cb).1).setCS (butterflyWith w s.ca s.cb).2).finish⟩

/-! ### A sequence command that runs (R47, R302, R309) -/

section
variable {s : State} {x : List C64}

theorem seqCommand_of_lengthOk (h : lengthOk s.params s.cmdLen) (k : Nat → Result) :
    s.seqCommand k = k s.cmdLen.toNat := by
  rw [State.seqCommand, (invalidN_iff _ _).2 h, if_neg Bool.false_ne_true]

theorem withX_of_xHolds (h : s.xHolds x) (k : List C64 → Result) : s.withX x.length k = k x := by
  rw [State.withX, (readC64s_eq_some_iff x.length s.mem xBase x).2 ⟨rfl, h⟩]

theorem putX_finish_xHolds (s : State) (x : List C64) : (s.putX x).finish.xHolds x :=
  readC64_writeC64s x s.mem xBase

theorem putX_finish_completedFrom (s : State) (x : List C64) : (s.putX x).finish.completedFrom s := rfl

theorem readByte_putX_of_not_inX (s : State) {a : Nat} (h : ¬ inX x.length a) :
    readByte (s.putX x).mem a = readByte s.mem a := by
  unfold inX at h
  exact readByte_writeC64s_other x s.mem xBase a (by omega)

/-- The transform of a sequence of legal length keeps the length. -/
theorem fft_length_of_lengthOk {p : Params} {n : BitVec 16} (rom : Nat → C64) (h : lengthOk p n)
    (hx : x.length = n.toNat) : (fft rom x).length = x.length := by
  rcases h with rfl | ⟨k, _, hk⟩
  · rw [List.length_eq_zero_iff.1 hx, fft_nil]
  · exact fft_length rom k x (hx.trans hk)

end

/-! ### FFT (R191) -/

theorem exec_fft_of_xHolds {s : State} {x : List C64} (h : lengthOk s.params s.cmdLen)
    (hx : x.length = s.cmdLen.toNat) (hm : s.xHolds x) : exec .fft s = .next (s.putX (fft s.rom x)).finish := by
  calc exec .fft s = s.seqCommand fun n => s.withX n fun y => .next (s.putX (fft s.rom y)).finish := rfl
    _ = s.withX x.length fun y => .next (s.putX (fft s.rom y)).finish := by rw [seqCommand_of_lengthOk h, hx]
    _ = .next (s.putX (fft s.rom x)).finish := withX_of_xHolds hm _

/-- Settles O15: FFT writes the transform, of the operand's own length, over its operand. -/
theorem fftCompletes : Obligations.FftCompletes := by
  unfold Obligations.FftCompletes
  intro s x h hx hm
  have hlen := fft_length_of_lengthOk s.rom h hx
  exact ⟨_, exec_fft_of_xHolds h hx hm, hlen, putX_finish_xHolds s _, putX_finish_completedFrom s _,
    fun a ha => readByte_putX_of_not_inX s (hlen.symm ▸ ha)⟩

end Sys2Proof.Machine

/-! SUPPORT. The statement of 42_ifft.md: the inverse transform by position, and what IFFT leaves in X. -/

namespace Sys2Proof

/-! ### The inverse transform by position (R220) -/

section
variable {rom : Nat → C64} {x : List C64}

theorem ifft_getElem? (rom : Nat → C64) (cjo : Bool) {k : Nat} {y : C64}
    (hy : (fft rom (x.map cconj))[k]? = some y) :
    (ifft rom cjo x)[k]? =
      some (if cjo then cconj (cdivr y (i2f x.length)) else cdivr y (i2f x.length)) := by
  rw [ifft, List.getElem?_map, hy]
  rfl

theorem ifft_length_of_fft (cjo : Bool) (h : (fft rom (x.map cconj)).length = x.length) :
    (ifft rom cjo x).length = x.length := by
  rw [ifft, List.length_map, h]

end

end Sys2Proof

namespace Sys2Proof.Machine

/-! ### IFFT (R221) -/

section
variable {s : State} {x : List C64}

/-- A sequence command of legal length whose operand in X is written runs on that operand. -/
theorem seqCommand_withX_of_xHolds (h : lengthOk s.params s.cmdLen) (hx : x.length = s.cmdLen.toNat)
    (hm : s.xHolds x) (k : List C64 → Result) : (s.seqCommand fun n => s.withX n k) = k x := by
  rw [seqCommand_of_lengthOk h, ← hx, withX_of_xHolds hm]

theorem exec_ifft_of_xHolds (cjo : Bool) (h : lengthOk s.params s.cmdLen) (hx : x.length = s.cmdLen.toNat)
    (hm : s.xHolds x) : exec (.ifft cjo) s = .next (s.putX (ifft s.rom cjo x)).finish :=
  seqCommand_withX_of_xHolds h hx hm fun y => .next (s.putX (ifft s.rom cjo y)).finish

theorem fft_conj_length_of_lengthOk {p : Params} {n : BitVec 16} (rom : Nat → C64) (h : lengthOk p n)
    (hx : x.length = n.toNat) : (fft rom (x.map cconj)).length = x.length := by
  have hc : (x.map cconj).length = x.length := List.length_map ..
  exact (fft_length_of_lengthOk rom h (hc.trans hx)).trans hc

end

/-- Settles O16: IFFT writes the inverse transform over its operand, and each of its elements comes from the element
of the conjugates' transform at the same position. -/
theorem ifftCompletes : Obligations.IfftCompletes := by
  unfold Obligations.IfftCompletes
  intro s cjo x h hx hm
  have hf := fft_conj_length_of_lengthOk s.rom h hx
  have hlen := ifft_length_of_fft cjo hf
  refine ⟨_, exec_ifft_of_xHolds cjo h hx hm, fun k hk => ?_, putX_finish_completedFrom s _,
    fun a ha => readByte_putX_of_not_inX s (hlen.symm ▸ ha)⟩
  have hy := List.getElem?_eq_getElem (hf.symm ▸ hk)
  exact ⟨_, hy, (putX_finish_xHolds s _ k (hlen.symm ▸ hk)).trans (ifft_getElem? s.rom cjo hy)⟩

end Sys2Proof.Machine

/-! SUPPORT. The statements of 43_mask_filter.md: the mask by position, and what BPMASK and FILTER leave in X and
OUT. -/

namespace Sys2Proof

/-! ### The mask by position (R242, R243) -/

theorem maskBins_getElem? (lo hi : F64) (x : List C64) (k : Nat) :
    (maskBins lo hi x)[k]? = x[k]?.map fun z => if keepBin lo hi x.length k then z else C64.zero := by
  rw [maskBins, maskFrom_getElem?, Nat.zero_add]

theorem maskBins_getElem?_of_lt (lo hi : F64) {x : List C64} {k : Nat} (hk : k < x.length) :
    (maskBins lo hi x)[k]? = if keepBin lo hi x.length k then x[k]? else some C64.zero := by
  rw [maskBins_getElem?, List.getElem?_eq_getElem hk, Option.map_some, apply_ite some]

end Sys2Proof

namespace Sys2Proof.Machine

/-- Settles O28: the second mask keeps the same bins, and the others are zero already. -/
theorem maskIsIdempotent : Obligations.MaskIsIdempotent := by
  unfold Obligations.MaskIsIdempotent
  refine fun lo hi x => List.ext_getElem? fun k => ?_
  rw [maskBins_getElem?, maskBins_length, maskBins_getElem?, Option.map_map]
  congr 1
  funext z
  cases keepBin lo hi x.length k <;> rfl

/-! ### BPMASK (R243) -/

theorem exec_bpmask_of_xHolds {s : State} {x : List C64} (h : lengthOk s.params s.cmdLen)
    (hx : x.length = s.cmdLen.toNat) (hm : s.xHolds x) :
    exec .bpmask s = .next (s.putX (maskBins s.bandLo s.bandHi x)).finish :=
  seqCommand_withX_of_xHolds h hx hm fun y => .next (s.putX (maskBins s.bandLo s.bandHi y)).finish

/-- Settles O17: BPMASK writes the masked sequence, of the operand's own length, over its operand. -/
theorem bpmaskCompletes : Obligations.BpmaskCompletes := by
  unfold Obligations.BpmaskCompletes
  intro s x h hx hm
  have hlen := maskBins_length s.bandLo s.bandHi x
  exact ⟨_, exec_bpmask_of_xHolds h hx hm,
    fun k hk => (putX_finish_xHolds s _ k (hlen.symm ▸ hk)).trans (maskBins_getElem?_of_lt s.bandLo s.bandHi hk),
    putX_finish_completedFrom s _, fun a ha => readByte_putX_of_not_inX s (hlen.symm ▸ ha)⟩

/-! ### A filter pass (R244, R245) -/

theorem readC64_congr {m m' : Memory} {a : Nat} (h : ∀ b, a ≤ b → b < a + 16 → readByte m b = readByte m' b) :
    readC64 m a = readC64 m' a := by
  rw [readC64, readC64, readElem_congr fun b h1 h2 => h b h1 (by omega),
    readElem_congr (a := a + 8) fun b h1 h2 => h b (by omega) (by omega)]

theorem toNat_le_of_lengthOk {p : Params} {n : BitVec 16} (h : lengthOk p n) : n.toNat ≤ 4096 :=
  (cmdLen_le_nMax ((invalidN_iff p n).2 h)).trans (Params.nMax_le p)

section
variable {v : List C64}

theorem readByte_putOut_of_not_inOut (s : State) {r : List F64} {a : Nat} (h : ¬ inOut r.length a) :
    readByte (s.putOut r).mem a = readByte s.mem a := by
  unfold inOut at h
  exact readByte_writeF64s_other r s.mem outBase a (by omega)

theorem putOut_finish_outHolds (s : State) (r : List F64) : (s.putOut r).finish.outHolds r :=
  readElem_writeF64s r s.mem outBase

/-- OUT begins where the longest X ends (R83), so a sequence X holds outlasts a write to OUT. -/
theorem putOut_finish_xHolds {s : State} {r : List F64} (hv : v.length ≤ 4096) (h : s.xHolds v) :
    (s.putOut r).finish.xHolds v := fun k hk =>
  (readC64_congr fun b _ hb => readByte_writeF64s_other r s.mem outBase b
    (.inl (by unfold outBase; unfold xBase at hb; omega))).trans (h k hk)

theorem putX_putOut_finish_completedFrom (s : State) (v : List C64) (r : List F64) :
    ((s.putX v).putOut r).finish.completedFrom s := rfl

/-- A filter pass over a sequence of legal length keeps the length. -/
theorem filterPass_length_of_lengthOk {p : Params} {n : BitVec 16} {x : List C64} (rom : Nat → C64) (lo hi : F64)
    (cjo : Bool) (h : lengthOk p n) (hx : x.length = n.toNat) : (filterPass rom lo hi cjo x).length = x.length := by
  have hmask : (maskBins lo hi (fft rom x)).length = x.length :=
    (maskBins_length lo hi _).trans (fft_length_of_lengthOk rom h hx)
  exact (ifft_length_of_fft cjo (fft_conj_length_of_lengthOk rom h (hmask.trans hx))).trans hmask

/-- What a filter pass of at most 4096 elements leaves: the sequence in X, its real parts in OUT, and the rest. -/
theorem finishFilter_completes (s : State) (hv : v.length ≤ 4096) :
    ∃ t, s.finishFilter v = .next t ∧ t.xHolds v ∧ t.outHolds (v.map C64.re) ∧ t.completedFrom s ∧
      ∀ a, ¬ inX v.length a → ¬ inOut v.length a → readByte t.mem a = readByte s.mem a := by
  refine ⟨_, rfl, putOut_finish_xHolds hv (putX_finish_xHolds s v), putOut_finish_outHolds _ _,
    putX_putOut_finish_completedFrom s v _, fun a hX hOut => ?_⟩
  rw [State.finish_mem, readByte_putOut_of_not_inOut _ ((realParts_length v).symm ▸ hOut),
    readByte_putX_of_not_inX s hX]

theorem exec_filter_of_xHolds {s : State} {x : List C64} (cjo : Bool)
    (h : lengthOk s.params s.cmdLen) (hx : x.length = s.cmdLen.toNat) (hm : s.xHolds x) :
    exec (.filter cjo) s = s.finishFilter (filterPass s.rom s.bandLo s.bandHi cjo x) :=
  seqCommand_withX_of_xHolds h hx hm fun y => s.finishFilter (filterPass s.rom s.bandLo s.bandHi cjo y)

end

/-- Settles O18: FILTER ends a filter pass over its operand, and the pass keeps the operand's length. -/
theorem filterCompletes : Obligations.FilterCompletes := by
  unfold Obligations.FilterCompletes
  intro s cjo x h hx hm
  have hlen := filterPass_length_of_lengthOk s.rom s.bandLo s.bandHi cjo h hx
  obtain ⟨t, hend, hX, hOut, hregs, hframe⟩ := finishFilter_completes s
    ((hlen.trans hx).trans_le (toNat_le_of_lengthOk h))
  rw [hlen] at hframe
  exact ⟨t, _, (exec_filter_of_xHolds cjo h hx hm).trans hend, rfl, hlen, hX, hOut, hregs, hframe⟩

end Sys2Proof.Machine

/-! SUPPORT. The statements of 44_real_adapter.md: the wrapped samples and the pushed window by position, and what R2C,
DENOISE and WPUSH leave in X, OUT and WIN. -/

namespace Sys2Proof

/-! ### The sequences by position (R260, R265) -/

section
variable {w : List F64} {k : Nat}

theorem realToComplex_getElem? (w : List F64) (k : Nat) : (realToComplex w)[k]? = w[k]?.map fun a => ⟨a, F64.zero⟩ :=
  List.getElem?_map ..

theorem pushSample_getElem?_of_lt (a : F64) (hk : k + 1 < w.length) : (pushSample w a)[k]? = w[k + 1]? := by
  cases w with
  | nil => contradiction
  | cons b rest => exact List.getElem?_append_left (Nat.lt_of_succ_lt_succ hk)

theorem pushSample_getElem?_last (a : F64) (hw : 0 < w.length) : (pushSample w a)[w.length - 1]? = some a := by
  cases w with
  | nil => contradiction
  | cons b rest => exact List.getElem?_concat_length

end

end Sys2Proof

namespace Sys2Proof.Machine

/-! ### A sequence command on the window -/

section
variable {s : State} {w : List F64}

theorem withWin_of_winHolds (h : s.winHolds w) (k : List F64 → Result) : s.withWin w.length k = k w := by
  rw [State.withWin, (readF64s_eq_some_iff w.length 8 s.mem winBase w).2 ⟨rfl, h⟩]

/-- A sequence command of legal length whose operand in WIN is written runs on that operand. -/
theorem seqCommand_withWin_of_winHolds (h : lengthOk s.params s.cmdLen) (hw : w.length = s.cmdLen.toNat)
    (hm : s.winHolds w) (k : List F64 → Result) : (s.seqCommand fun n => s.withWin n k) = k w := by
  rw [seqCommand_of_lengthOk h, ← hw, withWin_of_winHolds hm]

theorem putWin_finish_winHolds (s : State) (w : List F64) : (s.putWin w).finish.winHolds w :=
  readElem_writeF64s w s.mem winBase

theorem putWin_finish_completedFrom (s : State) (w : List F64) : (s.putWin w).finish.completedFrom s := rfl

theorem readByte_putWin_of_not_inWin (s : State) {a : Nat} (h : ¬ inWin w.length a) :
    readByte (s.putWin w).mem a = readByte s.mem a := by
  unfold inWin at h
  exact readByte_writeF64s_other w s.mem winBase a (by omega)

theorem exec_r2c_of_winHolds (h : lengthOk s.params s.cmdLen) (hw : w.length = s.cmdLen.toNat) (hm : s.winHolds w) :
    exec .r2c s = .next (s.putX (realToComplex w)).finish :=
  seqCommand_withWin_of_winHolds h hw hm fun v => .next (s.putX (realToComplex v)).finish

theorem exec_denoise_of_winHolds (cjo : Bool) (h : lengthOk s.params s.cmdLen) (hw : w.length = s.cmdLen.toNat)
    (hm : s.winHolds w) :
    exec (.denoise cjo) s = s.finishFilter (filterPass s.rom s.bandLo s.bandHi cjo (realToComplex w)) :=
  seqCommand_withWin_of_winHolds h hw hm fun v =>
    s.finishFilter (filterPass s.rom s.bandLo s.bandHi cjo (realToComplex v))

theorem exec_wpush_of_winHolds (h : lengthOk s.params s.cmdLen) (hw : w.length = s.cmdLen.toNat) (hm : s.winHolds w) :
    exec .wpush s = .next (s.putWin (pushSample w s.sample)).finish :=
  seqCommand_withWin_of_winHolds h hw hm fun v => .next (s.putWin (pushSample v s.sample)).finish

end

/-! ### R2C (R261) -/

/-- Settles O19: R2C writes the wrapped samples to X, one for each sample of the window. -/
theorem r2cCompletes : Obligations.R2cCompletes := by
  unfold Obligations.R2cCompletes
  intro s w h hw hm
  have hlen := realToComplex_length w
  refine ⟨_, exec_r2c_of_winHolds h hw hm, fun k hk => ?_, putX_finish_completedFrom s _,
    fun a ha => readByte_putX_of_not_inX s (hlen.symm ▸ ha)⟩
  have hsample := List.getElem?_eq_getElem hk
  refine ⟨_, hsample, (putX_finish_xHolds s _ k (hlen.symm ▸ hk)).trans ?_⟩
  rw [realToComplex_getElem?, hsample, Option.map_some]

/-! ### DENOISE (R264) -/

/-- Settles O21: DENOISE ends a filter pass over the wrapped samples, as FILTER does over X, and WIN lies outside what
the pass writes. -/
theorem denoiseCompletes : Obligations.DenoiseCompletes := by
  unfold Obligations.DenoiseCompletes
  intro s cjo w h hw hm
  have hwrap := realToComplex_length w
  have hlen := (filterPass_length_of_lengthOk s.rom s.bandLo s.bandHi cjo h (hwrap.trans hw)).trans hwrap
  obtain ⟨t, hend, hX, hOut, hregs, hframe⟩ := finishFilter_completes s
    ((hlen.trans hw).trans_le (toNat_le_of_lengthOk h))
  rw [hlen] at hframe
  exact ⟨t, _, (exec_denoise_of_winHolds cjo h hw hm).trans hend, rfl, hlen, hX, hOut, hregs, hframe⟩

/-! ### WPUSH (R266) -/

/-- Settles O22: WPUSH writes the pushed window, of the window's own length, over the window. -/
theorem wpushCompletes : Obligations.WpushCompletes := by
  unfold Obligations.WpushCompletes
  intro s w h hw hm
  have hlen := pushSample_length w s.sample
  have hread (k : Nat) (hk : k < w.length) := putWin_finish_winHolds s (pushSample w s.sample) k (hlen.symm ▸ hk)
  exact ⟨_, exec_wpush_of_winHolds h hw hm,
    fun k hk => (hread k (Nat.lt_of_succ_lt hk)).trans (pushSample_getElem?_of_lt s.sample hk),
    fun hpos => (hread _ (Nat.sub_one_lt_of_lt hpos)).trans (pushSample_getElem?_last s.sample hpos),
    putWin_finish_completedFrom s _, fun a ha => readByte_putWin_of_not_inWin s (hlen.symm ▸ ha)⟩

end Sys2Proof.Machine

/-! SUPPORT. The statements of 60_exceptions.md: what presenting a word does, the invariant of the latched command, its
completion, the length 0, and the accesses of a busy core (R302 to R309). -/

namespace Sys2Proof.Machine

/-! ### The latched command stays valid (R303, R306 to R309) -/

section
variable {s t : State}

theorem busy_eq_false_iff : s.busy = false ↔ s.engine = none :=
  Option.isSome_eq_false_iff.trans Option.isNone_iff_eq_none

theorem latchOk_of_engine_eq_none (h : s.engine = none) : s.latchOk := fun l hl => by simp [h] at hl

/-- Presenting a word to an idle core latches it only when it passed every check, and CMD, LASTOP and NLEN then show it
(R303, R308). -/
theorem State.latchOk.present (h : s.latchOk) (w : BitVec 32) : (s.present w).latchOk := by
  rcases present_cases s w with ⟨_, e⟩ | ⟨hb, _, e⟩ | ⟨_, i, hd, hc, e⟩ <;> rw [e]
  · exact h
  · exact latchOk_of_engine_eq_none (busy_eq_false_iff.1 hb)
  · intro l hl
    obtain rfl : ⟨w, s.nlen⟩ = l := Option.some.inj hl
    exact ⟨⟨i, hd, hc⟩, rfl, rfl, rfl, rfl⟩

/-- A write of STATUS can only clear DONE, which is 0 while a command runs. -/
theorem State.latchOk.writeStatus (h : s.latchOk) (d e : Bool) : (s.writeStatus d e).latchOk := by
  rw [writeStatus_eq]
  intro l hl
  obtain ⟨hchecks, hcmd, hop, hn, hdone⟩ := h l hl
  exact ⟨hchecks, hcmd, hop, hn, by simp [hdone]⟩

/-- NLEN is guarded (R306), so the host writes it on an idle core only. -/
theorem LocWrite.latchOk (hu : LocWrite s t) (h : s.latchOk) : t.latchOk := by
  cases hu with
  | nothing | ie => exact h
  | soft => exact latchOk_of_engine_eq_none rfl
  | status d e => exact h.writeStatus d e
  | present w => exact h.present w
  | data hb | elem hb => exact latchOk_of_engine_eq_none (busy_eq_false_iff.1 hb)

/-- However a completion step ends, the engine is idle after it. -/
theorem engine_of_exec {i : Instr} (h : exec i s = .next t) : t.engine = none := by
  rcases exec_next h with ⟨_, _, rfl⟩ | ⟨_, _, _, _, _, _, rfl⟩ <;> rfl

theorem StepEffect.latchOk (he : StepEffect s t) (h : s.latchOk) : t.latchOk := by
  cases he with
  | idle | answer | refusedRead | refusedWrite | up => exact h
  | write _ _ hu => exact hu.latchOk h
  | noCommand | down => exact latchOk_of_engine_eq_none rfl
  | complete _ _ _ _ _ _ ht => exact latchOk_of_engine_eq_none (engine_of_exec ht)

end

/-- Settles O52: an effect of a step leaves the engine idle, accepts a word that passed every check, or keeps what the
invariant speaks of. -/
theorem stepKeepsLatchedCommandValid : Obligations.StepKeepsLatchedCommandValid := by
  unfold Obligations.StepKeepsLatchedCommandValid
  intro s t h hst
  obtain ⟨rest, he⟩ := step_effect hst
  have hs : State.latchOk { s with inputs := rest } := h
  exact he.latchOk hs

/-! ### What presenting a word does (R303, R304, R307, R308) -/

section
variable {s : State} {w : BitVec 32} {i : Instr} {e : ErrorCause}

theorem present_of_busy (hb : s.busy = true) (w : BitVec 32) : s.present w = s.raiseError .cmdWhileBusy := by
  rw [State.present, if_pos hb]

theorem present_of_commandError_eq_none (hb : s.busy = false) (hd : decode w = .ok i)
    (hc : commandError s.params s.nlen i = none) : s.present w = State.accept { s with cmdword := w } w := by
  simp [State.present, hb, hd, hc]

theorem present_of_commandError_eq_some (hb : s.busy = false) (hd : decode w = .ok i)
    (hc : commandError s.params s.nlen i = some e) : s.present w = State.raiseError { s with cmdword := w } e := by
  simp [State.present, hb, hd, hc]

theorem commandError_of_format_op {p : Params} {n : BitVec 16} (h : i.format = .op) : commandError p n i = none := by
  rw [commandError, h]

/-- The checks of a command pass when those of its own format do (R303). -/
theorem commandError_eq_none_of_legal {p : Params} {n : BitVec 16} (hseq : Instr.isSequence i → lengthOk p n)
    (htw : i.format = .tw → twiddleOk p i.stage i.index) : commandError p n i = none := by
  cases hf : i.format with
  | op => exact commandError_of_format_op hf
  | seq => rw [commandError_seq (.inl hf), (invalidN_iff p n).2 (hseq (.inl hf))]; rfl
  | seqc => rw [commandError_seq (.inr hf), (invalidN_iff p n).2 (hseq (.inr hf))]; rfl
  | tw => exact ((commandError_twiddle hf).resolve_right fun h => h.1 (htw hf)).2

/-- A command whose one check is `P`, presented to an idle core, is accepted exactly when `P` holds, and otherwise
refused with the check's error. -/
theorem present_of_check {P : Prop} (hb : s.busy = false) (hd : decode w = .ok i)
    (hc : (P ∧ commandError s.params s.nlen i = none) ∨ (¬ P ∧ commandError s.params s.nlen i = some e)) :
    ((s.present w).busy = true ↔ P) ∧ (¬ P → s.present w = State.raiseError { s with cmdword := w } e) := by
  rcases hc with ⟨hP, hnone⟩ | ⟨hP, hsome⟩
  · rw [present_of_commandError_eq_none hb hd hnone]
    exact ⟨iff_of_true rfl hP, fun h => absurd hP h⟩
  · rw [present_of_commandError_eq_some hb hd hsome]
    exact ⟨iff_of_false (Bool.eq_false_iff.1 hb) hP, fun _ => rfl⟩

end

/-- Settles O5: the checks pass, and what is left is `accept`. -/
theorem acceptanceEffect : Obligations.AcceptanceEffect := by
  unfold Obligations.AcceptanceEffect
  intro s w i hb hd hseq htw
  rw [present_of_commandError_eq_none hb hd (commandError_eq_none_of_legal hseq htw)]
  exact ⟨rfl, rfl⟩

/-- Settles O6: an encoding decodes to its command, whose format has one check or none. -/
theorem lengthAndTwiddleChecks : Obligations.LengthAndTwiddleChecks := by
  unfold Obligations.LengthAndTwiddleChecks
  intro s i hb
  have hd : decode (encode i) = .ok i := decode_eq_ok_iff.2 rfl
  refine ⟨fun hf => present_of_check hb hd (commandError_sequence hf),
    fun hf => present_of_check hb hd (commandError_twiddle hf), fun hf => ?_⟩
  rw [present_of_commandError_eq_none hb hd (commandError_of_format_op hf)]
  rfl

/-! ### The length 0 (R302) -/

@[simp] theorem filterPass_nil (rom : Nat → C64) (lo hi : F64) (cjo : Bool) : filterPass rom lo hi cjo [] = [] := by
  rw [← List.length_eq_zero_iff, ← Nat.le_zero]
  exact filterPass_length_le rom lo hi cjo []

/-- Settles O23: each command runs on the empty operand, and what it writes is empty too. -/
theorem zeroLengthTouchesNothing : Obligations.ZeroLengthTouchesNothing := by
  unfold Obligations.ZeroLengthTouchesNothing
  intro s i hi h0
  have hok : lengthOk s.params s.cmdLen := .inl h0
  have hlen {α : Type} : ([] : List α).length = s.cmdLen.toNat := by rw [h0]; rfl
  have hx : s.xHolds [] := fun k hk => absurd hk k.not_lt_zero
  have hw : s.winHolds [] := fun k hk => absurd hk k.not_lt_zero
  cases i with
  | fft => rw [exec_fft_of_xHolds hok hlen hx, fft_nil]; rfl
  | ifft c => rw [exec_ifft_of_xHolds c hok hlen hx, ifft, List.map_nil, fft_nil]; rfl
  | bpmask => exact exec_bpmask_of_xHolds hok hlen hx
  | filter c => rw [exec_filter_of_xHolds c hok hlen hx, filterPass_nil]; rfl
  | r2c => exact exec_r2c_of_winHolds hok hlen hw
  | c2r => rw [exec, execC2r, seqCommand_of_lengthOk hok, h0]; rfl
  | denoise c => rw [exec_denoise_of_winHolds c hok hlen hw, realToComplex, List.map_nil, filterPass_nil]; rfl
  | wpush => exact exec_wpush_of_winHolds hok hlen hw
  | nop | cadd | csub | cmul | cdivr | cconj | cmag | cphase | twgen | ctwmul | bfly => rcases hi with h | h <;> cases h

/-! ### Accesses of a busy core (R35, R306, R307) -/

section
variable {s : State} {o : BitVec 18} {width : Nat} {l : Loc}

theorem hostWrite_of_guarded (d : BitVec 64) (hr : s.rstN = true) (hb : s.busy = true)
    (ht : target s.params o width = some l) (hg : busyGuarded l = true) :
    hostWrite o width d s = .next ((s.raiseError .accessWhileBusy).respond .writeOk) := by
  simp [hostWrite, hr, hb, ht, hg]

theorem hostRead_of_guarded (hr : s.rstN = true) (hb : s.busy = true) (ht : target s.params o width = some l)
    (hg : busyGuarded l = true) :
    hostRead o width s =
      .next { (s.raiseError .accessWhileBusy).respond (.readOk (readLane o width (Config.freeBits s.draws))) with
        draws := s.draws + 1 } := by
  simp [hostRead, hr, hb, ht, hg]

/-- A location below the buffers always holds a value. -/
theorem exists_readLoc_of_addr_lt (hl : l.inRange s.params) (ha : l.addr < 0x10000) : ∃ v, s.readLoc l = some v :=
  Option.ne_none_iff_exists'.1 fun h => Nat.not_le.2 ha ((readLoc_eq_none_iff hl).1 h).1

end

/-- Settles O39: the ranges are those of the guarded and of the other locations, and none of the others is an element
of a buffer. -/
theorem guardedAccessWhileBusy : Obligations.GuardedAccessWhileBusy := by
  unfold Obligations.GuardedAccessWhileBusy
  intro s o width d l hr hb ht
  obtain ⟨-, -, -, hl, ha⟩ := target_some ht
  have guarded := busyGuarded_iff hl
  rw [ha] at guarded
  refine ⟨fun ho => ?refused, fun ho => ?answered⟩
  case refused =>
    have hg := guarded.2 (by omega)
    exact ⟨hostWrite_of_guarded d hr hb ht hg, _, _, hostRead_of_guarded hr hb ht hg⟩
  case answered =>
    have hg : busyGuarded l = false := by
      rw [← Bool.not_eq_true, guarded]
      omega
    obtain ⟨v, hv⟩ := exists_readLoc_of_addr_lt hl (by omega)
    refine ⟨readLane o width v, ?_⟩
    rw [hostRead_of_target hr ht (not_guarded_busy hg), hv]
    rfl

section
variable {s : State} {o : BitVec 18} {width : Nat}

/-- Where a write addresses the lower half, the lower half of what it stores is that of the data (R84). -/
theorem writeLane_lowHalf (d : BitVec 64) (hu : upperHalf o width = false) :
    (writeLane o width d).extractLsb' 0 32 = d.extractLsb' 0 32 := by
  apply BitVec.eq_of_getLsbD_eq
  intro i hi
  simp [hi, (getLsbD_writeLane d hu hi).1]

/-- A host write of CMD presents the lower half of the data, and nothing where it is one of the upper half (R35). -/
theorem hostWrite_cmd (d : BitVec 64) (hr : s.rstN = true) (ht : target s.params o width = some (.reg .cmd)) :
    hostWrite o width d s =
      .next ((if upperHalf o width then s else s.present (d.extractLsb' 0 32)).respond .writeOk) := by
  rw [hostWrite_of_target d hr ht (not_guarded_busy rfl), State.writeLoc, State.writeReg, State.writeCmd,
    getLsbD_writeMask (by decide)]
  cases hu : upperHalf o width with
  | false => rw [writeLane_lowHalf d hu]; rfl
  | true => rfl

end

/-- Settles O7: the three writes reach CMD, and the busy engine is the first check of `present`. -/
theorem cmdWritePresents : Obligations.CmdWritePresents := by
  unfold Obligations.CmdWritePresents
  intro s d hr
  exact ⟨hostWrite_cmd d hr rfl, hostWrite_cmd d hr rfl, hostWrite_cmd d hr rfl, present_of_busy⟩

/-! ### An accepted command completes (R309, R346) -/

/-- A completion step answers a next state or faults on an unwritten operand. -/
def Completes (r : Result) : Prop := r = .fault .unwrittenOperand ∨ ∃ t, r = .next t

section
variable {s : State} {n : Nat}

theorem completes_next (t : State) : Completes (.next t) := .inr ⟨t, rfl⟩

theorem completes_seqCommand {k : Nat → Result} (hk : ∀ n, Completes (k n)) : Completes (s.seqCommand k) := by
  rcases seqCommand_eq s k with ⟨_, e⟩ | ⟨_, e⟩ <;> rw [e]
  exacts [completes_next _, hk _]

theorem completes_twCommand {l : BitVec 4} {j : BitVec 16} {k : C64 → Result} (hk : ∀ w, Completes (k w)) :
    Completes (s.twCommand l j k) := by
  rcases twCommand_eq s l j k with ⟨_, e⟩ | ⟨_, e⟩ <;> rw [e]
  exacts [completes_next _, hk _]

theorem completes_withX {k : List C64 → Result} (hk : ∀ x, Completes (k x)) : Completes (s.withX n k) := by
  rcases withX_eq s n k with ⟨x, _, e⟩ | ⟨_, e⟩ <;> rw [e]
  exacts [hk x, .inl rfl]

theorem completes_withXRe {k : List F64 → Result} (hk : ∀ x, Completes (k x)) : Completes (s.withXRe n k) := by
  rcases withXRe_eq s n k with ⟨x, _, e⟩ | ⟨_, e⟩ <;> rw [e]
  exacts [hk x, .inl rfl]

theorem completes_withWin {k : List F64 → Result} (hk : ∀ w, Completes (k w)) : Completes (s.withWin n k) := by
  rcases withWin_eq s n k with ⟨w, _, e⟩ | ⟨_, e⟩ <;> rw [e]
  exacts [hk w, .inl rfl]

theorem exec_completes (i : Instr) (s : State) : Completes (exec i s) := by
  cases i with dsimp only [exec]
  | nop | cadd | csub | cmul | cdivr | cconj | cmag | cphase => exact completes_next _
  | twgen | ctwmul | bfly => exact completes_twCommand fun _ => completes_next _
  | fft | ifft | bpmask | filter => exact completes_seqCommand fun _ => completes_withX fun _ => completes_next _
  | c2r => exact completes_seqCommand fun _ => completes_withXRe fun _ => completes_next _
  | r2c | denoise | wpush => exact completes_seqCommand fun _ => completes_withWin fun _ => completes_next _

/-- A completion step that answers, on a command that passes its checks, has not turned it away. -/
theorem exec_next_of_commandError_eq_none {i : Instr} {t : State} (h : exec i s = .next t)
    (hc : commandError s.params s.cmdLen i = none) :
    ∃ m cr cs, t = { s with mem := m, cr := cr, cs := cs, engine := none, done := true } := by
  rcases exec_next h with ⟨_, he, _⟩ | ⟨_, m, cr, cs, _, _, ht⟩
  · rw [hc] at he
    cases he
  · exact ⟨m, cr, cs, ht⟩

end

/-- Settles O57: the latched command passed its checks with the length it runs with, so the turn is its completion
step, which does not turn it away. -/
theorem acceptedCommandCompletes : Obligations.AcceptedCommandCompletes := by
  unfold Obligations.AcceptedCommandCompletes
  intro s h hr hb
  obtain ⟨l, hl⟩ := Option.isSome_iff_exists.1 hb
  obtain ⟨⟨i, hd, hc⟩, -⟩ := h l hl
  have hlen : s.cmdLen = l.n := by rw [State.cmdLen, hl]
  rw [engineTurn_of_decode_ok hr hl hd]
  refine (exec_completes i s).imp_right ?_
  rintro ⟨t, ht⟩
  obtain ⟨_, _, _, rfl⟩ := exec_next_of_commandError_eq_none ht (hlen ▸ hc)
  exact ⟨_, ht, rfl, rfl, rfl, rfl, rfl, rfl⟩

end Sys2Proof.Machine

/-! SUPPORT. The statements of 70_reset_and_hazards.md: the resets, the invariant of a core held in reset, and the two
faults of a step (R340 to R343, R346). -/

namespace Sys2Proof.Machine

/-! ### A core held in reset (R340) -/

section
variable {s t : State}

theorem heldInReset_of_rstN (hr : s.rstN = true) : s.heldInReset := fun h => by simp [hr] at h

/-- Under a low `rst_n` no command is latched. -/
theorem State.heldInReset.busy (h : s.heldInReset) (hr : s.rstN = false) : s.busy = false :=
  congrArg State.busy (h hr)

theorem LocWrite.rstN (hu : LocWrite s t) : t.rstN = s.rstN := by
  cases hu with
  | nothing | soft | ie | data | elem => rfl
  | status d e => rw [writeStatus_eq]
  | present w => rcases present_cases s w with ⟨_, e⟩ | ⟨_, _, e⟩ | ⟨_, _, _, _, e⟩ <;> rw [e] <;> rfl

theorem rstN_of_exec {i : Instr} (h : exec i s = .next t) : t.rstN = s.rstN := by
  rcases exec_next h with ⟨_, _, rfl⟩ | ⟨_, _, _, _, _, _, rfl⟩ <;> rfl

/-- Under a low `rst_n` an effect of a step is an answer to the host at most: a write and the engine's turn take a high
`rst_n`, which they keep, and a refused access a busy engine. -/
theorem StepEffect.heldInReset (he : StepEffect s t) (h : s.heldInReset) : t.heldInReset := by
  cases he with
  | idle => exact h
  | answer r => exact fun hr => congrArg (·.respond r) (h hr)
  | refusedRead hb | refusedWrite hb => exact fun hr => by simp [h.busy hr] at hb
  | write u hr hu => exact heldInReset_of_rstN (hu.rstN.trans hr)
  | noCommand l e hr => exact heldInReset_of_rstN hr
  | complete l i t hr hl hd ht => exact heldInReset_of_rstN ((rstN_of_exec ht).trans hr)
  | down => exact fun _ => rfl
  | up => exact heldInReset_of_rstN rfl

end

/-- Settles O54: taking the event off the list keeps the reset state, and so does each effect of a step. -/
theorem stepKeepsResetHeld : Obligations.StepKeepsResetHeld := by
  unfold Obligations.StepKeepsResetHeld
  intro s t h hst
  obtain ⟨rest, he⟩ := step_effect hst
  have hs : State.heldInReset { s with inputs := rest } := fun hr => congrArg ({ · with inputs := rest }) (h hr)
  exact he.heldInReset hs

/-! ### The resets (R32, R340, R342) -/

section
variable {s : State}

/-- The registers after a reset are those of the power-on reset state (R52). -/
theorem resetRegs_eq_reset (s : State) : s.resetRegs = { State.reset with
    params := s.params, twrom := s.twrom, mem := s.mem, rstN := s.rstN, inputs := s.inputs, resp := s.resp,
    draws := s.draws } := rfl

/-- When `rst_n` rises on a core held in reset, the core is in the state after a power-on reset. -/
theorem State.heldInReset.powerUp (h : s.heldInReset) (hr : s.rstN = false) : s.powerUp = { State.reset with
    params := s.params, twrom := s.twrom, inputs := s.inputs, resp := s.resp, draws := s.draws } :=
  congrArg State.powerUp (h hr)

theorem abandonedMem_of_engine_eq_none (h : s.engine = none) : s.abandonedMem = s.mem := by
  rw [State.abandonedMem, h]

/-- A write of CTRL's lower half with SRST = 1 is a soft reset, whatever the IE bit (R32). -/
theorem hostWrite_srst {o : BitVec 18} {width : Nat} {d : BitVec 64} (hr : s.rstN = true)
    (ht : target s.params o width = some (.reg .ctrl)) (hu : upperHalf o width = false) (hd : d.getLsbD 1 = true) :
    hostWrite o width d s = .next (s.softReset.respond .writeOk) := by
  have hs : (writeLane o width d &&& writeMask o width).getLsbD 1 = true := by
    rw [getLsbD_writeLane_and_writeMask d (by decide), hd, hu]
    rfl
  rw [hostWrite_of_target d hr ht (not_guarded_busy rfl), State.writeLoc, State.writeReg, State.writeCtrl, if_pos hs]

end

/-- Settles O46: either width reaches SRST, and the soft reset is `resetRegs` on the buffers it leaves. -/
theorem softResetEffect : Obligations.SoftResetEffect := by
  unfold Obligations.SoftResetEffect
  intro s width d hr hw hd
  refine ⟨s.softReset.respond .writeOk, ?write, rfl, ?state, rfl, abandonedMem_of_engine_eq_none⟩
  case write => rcases hw with rfl | rfl <;> exact hostWrite_srst hr rfl rfl hd
  case state =>
    rw [State.softReset, resetRegs_eq_reset, hr]
    rfl

/-- Settles O48: the fall is `powerDown`, the rise `powerUp`, and between them the engine does nothing. -/
theorem powerOnReset : Obligations.PowerOnReset := by
  unfold Obligations.PowerOnReset
  intro s
  refine ⟨rfl, fun hr => engineTurn_of_idle (.inl hr), rfl, fun h hr => ⟨s.powerUp, rfl, ?idle, ?latch, h.powerUp hr⟩⟩
  case idle => exact h.busy hr
  case latch => exact busy_eq_false_iff.1 (h.busy hr)

/-! ### The faults of a step (R88, R346) -/

section
variable {s : State} {o : BitVec 18} {width : Nat}

/-- A command faults exactly when its length is legal and one of its operands is unwritten. -/
theorem exec_fault_iff (i : Instr) (s : State) (f : Fault) : exec i s = .fault f ↔
    f = .unwrittenOperand ∧ lengthOk s.params s.cmdLen ∧ operandUnwritten s.mem s.cmdLen.toNat i := by
  have seq : ∀ {k : Nat → Result} {P : Prop}, (k s.cmdLen.toNat = .fault f ↔ f = .unwrittenOperand ∧ P) →
      (s.seqCommand k = .fault f ↔ f = .unwrittenOperand ∧ lengthOk s.params s.cmdLen ∧ P) := fun hk => by
    rw [seqCommand_fault_iff, invalidN_iff, hk, and_left_comm]
  cases i with simp only [exec, operandUnwritten, ← readC64_eq_none_iff, ← readC64s_eq_none_iff, ← readF64s_eq_none_iff]
  | nop | cadd | csub | cmul | cdivr | cconj | cmag | cphase => exact iff_of_false nofun fun h => h.2.2
  | twgen | ctwmul | bfly => exact iff_of_false (twCommand_not_fault s _ _ _ f fun _ => nofun) fun h => h.2.2
  | fft | ifft | bpmask | filter => exact seq (withX_fault_iff s _ _ f fun _ => nofun)
  | c2r => exact seq (withXRe_fault_iff s _ _ f fun _ => nofun)
  | r2c | denoise | wpush => exact seq (withWin_fault_iff s _ _ f fun _ => nofun)

/-- What the engine's turn does: nothing, a latched word turned away, or a completion step. -/
theorem engineTurn_cases (s : State) :
    ((s.rstN = false ∨ s.engine = none) ∧ engineTurn s = .next s) ∨
    ∃ l, s.rstN = true ∧ s.engine = some l ∧
      ((∃ e, decode l.cmd = .error e ∧ engineTurn s = .next (s.turnAway e)) ∨
        ∃ i, decode l.cmd = .ok i ∧ engineTurn s = exec i s) := by
  cases hr : s.rstN with
  | false => exact .inl ⟨.inl rfl, engineTurn_of_idle (.inl hr)⟩
  | true =>
    cases hl : s.engine with
    | none => exact .inl ⟨.inr rfl, engineTurn_of_idle (.inr hl)⟩
    | some l =>
      refine .inr ⟨l, rfl, rfl, ?_⟩
      cases hd : decode l.cmd with
      | error e => exact .inl ⟨e, rfl, engineTurn_of_decode_error hr hl hd⟩
      | ok i => exact .inr ⟨i, rfl, engineTurn_of_decode_ok hr hl hd⟩

/-- The engine's turn faults exactly when it runs a command that does, with the length latched for it. -/
theorem engineTurn_fault_iff (s : State) (f : Fault) : engineTurn s = .fault f ↔
    f = .unwrittenOperand ∧ ∃ l i, s.rstN = true ∧ s.engine = some l ∧ decode l.cmd = .ok i ∧ lengthOk s.params l.n ∧
      operandUnwritten s.mem l.n.toNat i := by
  rcases engineTurn_cases s with ⟨hr | hl, e⟩ | ⟨l, hr, hl, ⟨c, hd, e⟩ | ⟨i, hd, e⟩⟩ <;> rw [e]
  · simp [hr]
  · simp [hl]
  · simp [hl, hd]
  · simp [exec_fault_iff, State.cmdLen, hr, hl, hd]

/-- The engine's turn answers, or faults on an unwritten operand. -/
theorem engineTurn_completes (s : State) : Completes (engineTurn s) := by
  rcases engineTurn_cases s with ⟨_, e⟩ | ⟨_, _, _, ⟨_, _, e⟩ | ⟨i, _, e⟩⟩ <;> rw [e]
  exacts [completes_next _, completes_next _, exec_completes i s]

/-- A host read faults exactly when it is let through to a location without a value. -/
theorem hostRead_fault_iff (s : State) (o : BitVec 18) (width : Nat) (f : Fault) : hostRead o width s = .fault f ↔
    f = .unwrittenRead ∧ ∃ l, s.rstN = true ∧ target s.params o width = some l ∧
      ¬ (busyGuarded l = true ∧ s.busy = true) ∧ s.readLoc l = none := by
  cases hr : s.rstN with
  | false => simp [(access_of_reset_or_no_target (.inl hr) 0#64).1]
  | true =>
    cases ht : target s.params o width with
    | none => simp [(access_of_reset_or_no_target (.inr ht) 0#64).1]
    | some l =>
      by_cases hg : busyGuarded l = true ∧ s.busy = true
      · simp [hostRead_of_guarded hr hg.2 ht hg.1, hg]
      · cases hv : s.readLoc l with
        | some v => simp [hostRead_of_target hr ht hg, hv]
        | none =>
          rw [hostRead_of_target hr ht hg, hv]
          exact ⟨fun h => ⟨(Host.Outcome.fault.inj h).symm, l, rfl, rfl, hg, hv⟩, fun h => by rw [h.1]⟩

theorem hostWrite_answers (s : State) (o : BitVec 18) (width : Nat) (d : BitVec 64) :
    ∃ t, hostWrite o width d s = .next t := by
  rcases hostWrite_cases s o width d with e | ⟨_, e⟩ | ⟨_, _, _, _, e⟩ <;> exact ⟨_, e⟩

/-- What comes next is the engine's turn, with no event pending too (log entry 10). -/
def State.nextIsEngine (s : State) : Prop := s.inputs = [] ∨ ∃ rest, s.inputs = .engine :: rest

/-- A step faults exactly when it is a host read or an engine's turn that does, which the events behind it do not
matter for. -/
theorem step_fault_iff (s : State) (f : Fault) : step s = .fault f ↔
    (∃ o width rest, s.inputs = .read o width :: rest ∧ hostRead o width s = .fault f) ∨
    s.nextIsEngine ∧ engineTurn s = .fault f := by
  have read : ∀ rest o width,
      hostRead o width { s with inputs := rest } = .fault f ↔ hostRead o width s = .fault f := fun _ _ _ => by
    rw [hostRead_fault_iff, hostRead_fault_iff]; rfl
  have turn : ∀ rest, engineTurn { s with inputs := rest } = .fault f ↔ engineTurn s = .fault f := fun _ => by
    rw [engineTurn_fault_iff, engineTurn_fault_iff]
  unfold State.nextIsEngine
  cases hi : s.inputs with
  | nil => simp [step_of_inputs_nil hi]
  | cons e rest =>
    rw [step_of_inputs_cons hi]
    cases e with
    | read o width => simp [handle, read]
    | write o width d =>
      obtain ⟨t, ht⟩ := hostWrite_answers { s with inputs := rest } o width d
      simp [handle, ht]
    | engine => simp [handle, turn]
    | resetLow | resetHigh => simp [handle]

/-- A step answers or faults on one of the two unwritten reads. -/
theorem step_outcome (s : State) :
    s.safeStep ∨ step s = .fault .unwrittenOperand ∨ step s = .fault .unwrittenRead := by
  have turn : ∀ u, (∃ t, engineTurn u = .next t) ∨ engineTurn u = .fault .unwrittenOperand ∨
      engineTurn u = .fault .unwrittenRead := fun u => (engineTurn_completes u).elim (.inr ∘ .inl) .inl
  unfold State.safeStep
  cases hi : s.inputs with
  | nil =>
    rw [step_of_inputs_nil hi]
    exact turn s
  | cons e rest =>
    rw [step_of_inputs_cons hi]
    cases e with
    | read o width => exact (hostRead_total _ o width).imp_right .inr
    | write o width d => exact .inl (hostWrite_answers _ o width d)
    | engine => exact turn _
    | resetLow | resetHigh => exact .inl ⟨_, rfl⟩

/-- An offset reaches a location without a value exactly when it is one of a buffer and its 8 bytes are not all
written. -/
theorem readLoc_target_eq_none_iff {l : Loc} (ht : target s.params o width = some l) :
    s.readLoc l = none ↔ 0x10000 ≤ o.toNat ∧ readElem s.mem (8 * (o.toNat / 8)) = none := by
  obtain ⟨-, -, -, hl, ha⟩ := target_some ht
  have hbuf : 0x10000 ≤ 8 * (o.toNat / 8) ↔ 0x10000 ≤ o.toNat := by omega
  rw [readLoc_eq_none_iff hl, ha, hbuf]

end

/-- Settles O58: the faults are those of a host read and of the engine's turn, each of one kind. -/
theorem stepStopsOnlyOnUnwrittenReads : Obligations.StepStopsOnlyOnUnwrittenReads := by
  unfold Obligations.StepStopsOnlyOnUnwrittenReads
  intro s
  refine ⟨step_outcome s, ?read, fun _ _ _ => readLoc_target_eq_none_iff, ?operand, fun o width d rest hi => ?write⟩
  case read => simp [step_fault_iff, hostRead_fault_iff, engineTurn_fault_iff]
  case operand => simp [step_fault_iff, hostRead_fault_iff, engineTurn_fault_iff, State.nextIsEngine]
  case write =>
    rw [State.safeStep, step_of_inputs_cons hi]
    exact hostWrite_answers _ o width d

end Sys2Proof.Machine

/-! SUPPORT. The invariants of the buffers (20_memory.md R83; 70_reset_and_hazards.md R346): what a step can do to their
bytes, said once, keeps the canonical form, the marks whole and the bytes within the elements below N_MAX. With it stand
what an abandoned command loses (R343), C2R, the commands turned away, the unwritten operands, and the two equivalences
of the filter pass (R223, R264). -/

namespace Sys2Proof.Machine

/-! ### The destinations of an abandoned command (R343) -/

/-- The bytes a command run with length `n` would have written (R343). -/
def inDestinations (i : Instr) (n a : Nat) : Prop :=
  match i with
  | .fft | .ifft _ | .bpmask | .r2c => inX n a
  | .filter _ | .denoise _ => inX n a ∨ inOut n a
  | .c2r => inOut n a
  | .wpush => inWin n a
  | .nop | .cadd | .csub | .cmul | .cdivr | .cconj | .cmag | .cphase => False
  | .twgen _ _ | .ctwmul _ _ | .bfly _ _ => False

section
variable {m : Memory} {i : Instr} {n a : Nat}

theorem readByte_eraseDestinations_of_in (h : inDestinations i n a) : readByte (eraseDestinations m i n) a = none := by
  cases i with
  | nop | cadd | csub | cmul | cdivr | cconj | cmag | cphase | twgen | ctwmul | bfly => exact h.elim
  | fft | ifft | bpmask | r2c | c2r | wpush => exact (readByte_eraseRange ..).trans (if_pos h)
  | filter | denoise =>
    rw [eraseDestinations, readByte_eraseRange, readByte_eraseRange]
    split
    · rfl
    · exact if_pos (h.resolve_right ‹_›)

theorem readByte_eraseDestinations_of_not_in (h : ¬ inDestinations i n a) :
    readByte (eraseDestinations m i n) a = readByte m a := by
  cases i with
  | nop | cadd | csub | cmul | cdivr | cconj | cmag | cphase | twgen | ctwmul | bfly => rfl
  | fft | ifft | bpmask | r2c | c2r | wpush => exact (readByte_eraseRange ..).trans (if_neg h)
  | filter | denoise =>
    obtain ⟨hx, ho⟩ := not_or.1 h
    exact ((readByte_eraseRange ..).trans (if_neg ho)).trans ((readByte_eraseRange ..).trans (if_neg hx))

/-- A byte left is none of the destinations, and was there before. -/
theorem not_in_of_isSome_eraseDestinations (h : (readByte (eraseDestinations m i n) a).isSome) :
    ¬ inDestinations i n a := fun hin => by
  rw [readByte_eraseDestinations_of_in hin] at h
  cases h

/-- The destinations are whole elements. -/
theorem inDestinations_of_same_element {k : Nat} (hk : k < 8) (h : inDestinations i n (8 * (a / 8) + k)) :
    inDestinations i n a := by
  cases i with simp only [inDestinations, inX, inWin, inOut, xBase, winBase, outBase] at h ⊢ <;> omega

theorem abandonedMem_of_decode_ok {s : State} {l : Latched} (hl : s.engine = some l) (hd : decode l.cmd = .ok i) :
    s.abandonedMem = eraseDestinations s.mem i l.n.toNat := by
  simp [State.abandonedMem, hl, hd]

end

/-- Settles O47: a soft reset erases the destinations of the abandoned command, and no other byte. -/
theorem abandonedDestinationsUnwritten : Obligations.AbandonedDestinationsUnwritten := by
  unfold Obligations.AbandonedDestinationsUnwritten
  intro s l i a hl hd n lost
  have hmem : s.softReset.mem = eraseDestinations s.mem i n := abandonedMem_of_decode_ok hl hd
  have hlost : lost = inDestinations i n a := by cases i <;> rfl
  rw [hmem, hlost]
  exact ⟨readByte_eraseDestinations_of_in, readByte_eraseDestinations_of_not_in, rfl, rfl⟩

/-! ### What a step can do to the buffers' bytes -/

/-- What a step can do to the bytes of the buffers: nothing, a host's write of an element, the destinations of a
command abandoned or completed at a length up to N_MAX, or a power-on reset. -/
inductive MemEffect (p : Params) (m : Memory) : Memory → Prop where
  | keep : MemEffect p m m
  | elem (a : Nat) (v : F64) (ha : a % 8 = 0) (hin : inBuffer p a) : MemEffect p m (writeElem m a v)
  | abandon (i : Instr) (n : Nat) : MemEffect p m (eraseDestinations m i n)
  | command (n : Nat) (m' : Memory) (hn : n ≤ p.nMax) (hw : BufferWrite m n m') : MemEffect p m m'
  | clear : MemEffect p m []

section
variable {s t : State}

theorem abandonedMem_memEffect (s : State) : MemEffect s.params s.mem s.abandonedMem := by
  cases hl : s.engine with
  | none => rw [abandonedMem_of_engine_eq_none hl]; exact .keep
  | some l =>
    cases hd : decode l.cmd with
    | ok i => rw [abandonedMem_of_decode_ok hl hd]; exact .abandon i _
    | error e => simp only [State.abandonedMem, hl, hd]; exact .keep

theorem LocWrite.memEffect (hu : LocWrite s t) : MemEffect s.params s.mem t.mem := by
  cases hu with
  | nothing | ie | data => exact .keep
  | soft => exact abandonedMem_memEffect s
  | status d e => rw [writeStatus_eq]; exact .keep
  | present w => rcases present_cases s w with ⟨_, e⟩ | ⟨_, _, e⟩ | ⟨_, _, _, _, e⟩ <;> rw [e] <;> exact .keep
  | elem _ a v _ ha hin => exact .elem a v ha hin

theorem memEffect_of_exec {i : Instr} (h : exec i s = .next t) : MemEffect s.params s.mem t.mem := by
  rcases exec_next h with ⟨_, _, rfl⟩ | ⟨_, m, _, _, hw, rfl | hn, rfl⟩
  · exact .keep
  · exact .keep
  · exact .command _ m hn hw

theorem StepEffect.memEffect (he : StepEffect s t) : MemEffect s.params s.mem t.mem := by
  cases he with
  | idle | answer | refusedRead | refusedWrite | noCommand | up => exact .keep
  | write _ _ hu => exact hu.memEffect
  | complete _ _ _ _ _ _ ht => exact memEffect_of_exec ht
  | down => exact .clear

theorem step_memEffect (h : step s = .next t) : MemEffect s.params s.mem t.mem := by
  obtain ⟨_, he⟩ := step_effect h
  exact he.memEffect

end

/-! ### The canonical form (log entry 23) -/

section
variable {p : Params} {m m' : Memory} {n : Nat}

theorem BufferWrite.wf (hw : BufferWrite m n m') (h : m.wf) : m'.wf := by
  cases hw with
  | none => exact h
  | x z => exact writeC64s_wf z h _
  | xOut z r => exact writeF64s_wf r (writeC64s_wf z h _) _
  | out r | win r => exact writeF64s_wf r h _

theorem MemEffect.wf (he : MemEffect p m m') (h : m.wf) : m'.wf := by
  cases he with
  | keep => exact h
  | elem a v => exact writeElem_wf h a v
  | abandon i n => exact eraseDestinations_wf h i n
  | command _ _ _ hw => exact hw.wf h
  | clear => exact .nil

end

/-- Settles O50: each effect of a step on the bytes keeps their addresses rising. -/
theorem stepKeepsMemoryCanonical : Obligations.StepKeepsMemoryCanonical := by
  unfold Obligations.StepKeepsMemoryCanonical
  intro s t h hst
  exact (step_memEffect hst).wf h

/-! ### The marks of whole elements (R346) -/

section
variable {p : Params} {m m' : Memory} {n a : Nat}

theorem wholeElements_writeElem (h : m.wholeElements) (ha : a % 8 = 0) (v : F64) : (writeElem m a v).wholeElements := by
  intro b k hb hk
  by_cases hin : a ≤ b ∧ b < a + 8
  · exact readByte_writeLE_isSome 8 m a _ _ (by omega) (by omega)
  · rw [readByte_writeElem_other m a v _ (by omega)] at hb ⊢
    exact h b k hb hk

theorem wholeElements_writeF64s (xs : List F64) : ∀ {m : Memory} {a : Nat}, m.wholeElements → a % 8 = 0 →
    (writeF64s m a xs).wholeElements := by
  induction xs with
  | nil => exact fun h _ => h
  | cons x xs ih => exact fun h ha => ih (wholeElements_writeElem h ha x) (by omega)

theorem wholeElements_writeC64s (zs : List C64) : ∀ {m : Memory} {a : Nat}, m.wholeElements → a % 8 = 0 →
    (writeC64s m a zs).wholeElements := by
  induction zs with
  | nil => exact fun h _ => h
  | cons z zs ih =>
    exact fun h ha => ih (wholeElements_writeElem (wholeElements_writeElem h ha z.re) (by omega) z.im) (by omega)

theorem wholeElements_eraseDestinations (h : m.wholeElements) (i : Instr) (n : Nat) :
    (eraseDestinations m i n).wholeElements := by
  intro b k hb hk
  have hnot := not_in_of_isSome_eraseDestinations hb
  rw [readByte_eraseDestinations_of_not_in hnot] at hb
  rw [readByte_eraseDestinations_of_not_in (mt (inDestinations_of_same_element hk) hnot)]
  exact h b k hb hk

theorem BufferWrite.wholeElements (hw : BufferWrite m n m') (h : m.wholeElements) : m'.wholeElements := by
  cases hw with
  | none => exact h
  | x z => exact wholeElements_writeC64s z h rfl
  | xOut z r => exact wholeElements_writeF64s r (wholeElements_writeC64s z h rfl) rfl
  | out r | win r => exact wholeElements_writeF64s r h rfl

theorem MemEffect.wholeElements (he : MemEffect p m m') (h : m.wholeElements) : m'.wholeElements := by
  cases he with
  | keep => exact h
  | elem a v ha => exact wholeElements_writeElem h ha v
  | abandon i n => exact wholeElements_eraseDestinations h i n
  | command _ _ _ hw => exact hw.wholeElements h
  | clear => exact fun _ _ hb => nomatch hb

/-! ### The bytes of the elements below N_MAX (R83) -/

theorem inBuffer_of_same_element {b : Nat} (h : inBuffer p a) (ha : a % 8 = 0) (h1 : a ≤ b) (h2 : b < a + 8) :
    inBuffer p b := by
  unfold inBuffer winBase xBase outBase at *
  omega

theorem inBuffer_of_near (h : near n a) (hn : n ≤ p.nMax) : inBuffer p a := by
  unfold near inX inWin inOut at h
  unfold inBuffer
  omega

/-- A step writes no byte that was unwritten outside the elements below N_MAX. -/
theorem MemEffect.isSome_of_not_inBuffer (he : MemEffect p m m') (h : (readByte m' a).isSome) (ha : ¬ inBuffer p a) :
    (readByte m a).isSome := by
  cases he with
  | keep => exact h
  | elem b v hb hin =>
    have hout : ¬ (b ≤ a ∧ a < b + 8) := fun hab => ha (inBuffer_of_same_element hin hb hab.1 hab.2)
    rwa [readByte_writeElem_other m b v a (by omega)] at h
  | abandon i n => rwa [readByte_eraseDestinations_of_not_in (not_in_of_isSome_eraseDestinations h)] at h
  | command n _ hn hw =>
    have hfar : ¬ near n a := fun hna => ha (inBuffer_of_near hna hn)
    obtain ⟨hx, hwin, hout⟩ : ¬ inX n a ∧ ¬ inWin n a ∧ ¬ inOut n a := by simpa only [near, not_or] using hfar
    rwa [hw.readByte_other hx hwin hout] at h
  | clear => cases h

end

/-- Settles O51: each effect of a step on the bytes is on whole elements below N_MAX. -/
theorem stepKeepsWrittenMarksWhole : Obligations.StepKeepsWrittenMarksWhole := by
  unfold Obligations.StepKeepsWrittenMarksWhole
  intro s t hwhole hin hst
  have he := step_memEffect hst
  obtain ⟨hparams, -⟩ := partNeverChanges s t hst
  refine ⟨he.wholeElements hwhole, fun a ha => ?_⟩
  rw [hparams]
  exact by_contra fun hnot => hnot (hin a (he.isSome_of_not_inBuffer ha hnot))

end Sys2Proof.Machine

namespace Sys2Proof.Machine

/-! ### C2R (R262, R263) -/

section
variable {s : State} {r : List F64}

/-- C2R runs on the real parts, whether or not the imaginary parts are written (log entry 6). -/
theorem exec_c2r_of_realParts (h : lengthOk s.params s.cmdLen) (hr : r.length = s.cmdLen.toNat)
    (hm : ∀ k, k < r.length → readElem s.mem (xBase + 16 * k) = r[k]?) :
    exec .c2r s = .next (s.putOut r).finish := by
  calc exec .c2r s = s.seqCommand fun n => s.withXRe n fun r => .next (s.putOut r).finish := rfl
    _ = s.withXRe r.length fun r => .next (s.putOut r).finish := by rw [seqCommand_of_lengthOk h, hr]
    _ = .next (s.putOut r).finish := by
      rw [State.withXRe, (readF64s_eq_some_iff r.length 16 s.mem xBase r).2 ⟨rfl, hm⟩]

end

/-- Settles O20: C2R writes the real parts to OUT. -/
theorem c2rCompletes : Obligations.C2rCompletes := by
  unfold Obligations.C2rCompletes
  intro s r h hr hm
  exact ⟨_, exec_c2r_of_realParts h hr hm, putOut_finish_outHolds s r, rfl, fun _ => readByte_putOut_of_not_inOut s⟩

/-! ### The commands turned away (R302, R304; log entry 4) -/

section
variable {s : State}

theorem seqCommand_of_not_lengthOk (h : ¬ lengthOk s.params s.cmdLen) (k : Nat → Result) :
    s.seqCommand k = .next (s.turnAway .badLength) :=
  if_pos (Bool.of_not_eq_false (mt (invalidN_iff _ _).1 h))

theorem twCommand_of_not_twiddleOk {l : BitVec 4} {j : BitVec 16} (h : ¬ twiddleOk s.params l j) (k : C64 → Result) :
    s.twCommand l j k = .next (s.turnAway .badTwiddle) :=
  if_pos (Bool.of_not_eq_false (mt (invalidTW_iff _ _ _).1 h))

/-- Every sequence command begins with the check of its length. -/
theorem exec_of_not_lengthOk {i : Instr} (hi : Instr.isSequence i) (h : ¬ lengthOk s.params s.cmdLen) :
    exec i s = .next (s.turnAway .badLength) := by
  cases i with dsimp only [exec]
  | fft | ifft | bpmask | filter | r2c | c2r | denoise | wpush => exact seqCommand_of_not_lengthOk h _
  | nop | cadd | csub | cmul | cdivr | cconj | cmag | cphase | twgen | ctwmul | bfly => rcases hi with h | h <;> cases h

/-- Every twiddle command begins with the check of its fields. -/
theorem exec_of_not_twiddleOk {i : Instr} (hi : i.format = .tw) (h : ¬ twiddleOk s.params i.stage i.index) :
    exec i s = .next (s.turnAway .badTwiddle) := by
  cases i with dsimp only [exec]
  | twgen | ctwmul | bfly => exact twCommand_of_not_twiddleOk h _
  | nop | cadd | csub | cmul | cdivr | cconj | cmag | cphase | fft | ifft | bpmask | filter | r2c | c2r | denoise | wpush =>
    cases hi

end

/-- Settles O24: a command turned away has its error recorded and leaves the engine idle. -/
theorem invalidCommandsTurnedAway : Obligations.InvalidCommandsTurnedAway := by
  unfold Obligations.InvalidCommandsTurnedAway
  exact fun s i => ⟨exec_of_not_lengthOk, exec_of_not_twiddleOk⟩

/-! ### The unwritten operands (R346) -/

theorem exec_fault_iff_of_lengthOk {s : State} (h : lengthOk s.params s.cmdLen) (i : Instr) :
    exec i s = .fault .unwrittenOperand ↔ operandUnwritten s.mem s.cmdLen.toNat i := by
  simp [exec_fault_iff, h]

/-- Settles O25: with a legal length the fault is that of `operandUnwritten`, by the operands each command lists. -/
theorem unwrittenOperandFaults : Obligations.UnwrittenOperandFaults := by
  unfold Obligations.UnwrittenOperandFaults
  intro s c h
  have hf := exec_fault_iff_of_lengthOk h
  refine ⟨?x, ?win, hf .c2r⟩
  case x =>
    simp only [List.forall_mem_cons, List.not_mem_nil, false_imp_iff, implies_true, and_true]
    exact ⟨hf .fft, hf (.ifft c), hf .bpmask, hf (.filter c)⟩
  case win =>
    simp only [List.forall_mem_cons, List.not_mem_nil, false_imp_iff, implies_true, and_true]
    exact ⟨hf .r2c, hf (.denoise c), hf .wpush⟩

/-! ### DENOISE as R2C and FILTER (R264) -/

/-- A written number depends on the earlier bytes outside it alone. -/
theorem readByte_writeLE_congr (n : Nat) : ∀ {m m' : Memory} {a v b : Nat},
    (a ≤ b ∧ b < a + n ∨ readByte m b = readByte m' b) →
    readByte (writeLE m a v n) b = readByte (writeLE m' a v n) b := by
  induction n with
  | zero => exact fun h => h.resolve_left (by omega)
  | succ n ih =>
    intro m m' a v b h
    refine ih ?_
    rw [readByte_writeByte, readByte_writeByte]
    split
    · exact .inr rfl
    · exact h.imp_left (by omega)

theorem readByte_writeElem_congr {m m' : Memory} {a b : Nat} (v : F64)
    (h : a ≤ b ∧ b < a + 8 ∨ readByte m b = readByte m' b) :
    readByte (writeElem m a v) b = readByte (writeElem m' a v) b := readByte_writeLE_congr 8 h

theorem readByte_writeC64s_congr (zs : List C64) : ∀ {m m' : Memory} {a b : Nat},
    (a ≤ b ∧ b < a + 16 * zs.length ∨ readByte m b = readByte m' b) →
    readByte (writeC64s m a zs) b = readByte (writeC64s m' a zs) b := by
  induction zs with
  | nil => exact fun h => h.resolve_left (by rw [List.length_nil]; omega)
  | cons z zs ih =>
    intro m m' a b h
    rw [List.length_cons] at h
    by_cases hin : a ≤ b ∧ b < a + 16
    · refine ih (.inr (readByte_writeElem_congr z.im ?_))
      by_cases hre : b < a + 8
      · exact .inr (readByte_writeElem_congr z.re (.inl ⟨hin.1, hre⟩))
      · exact .inl (by omega)
    · exact ih (h.imp (by omega) fun e => readByte_writeElem_congr z.im (.inr (readByte_writeElem_congr z.re (.inr e))))

/-- A sequence written over one of the same length leaves nothing of it. -/
theorem writeC64s_overwrite {m : Memory} (h : m.wf) (a : Nat) {ys zs : List C64} (hlen : zs.length = ys.length) :
    writeC64s (writeC64s m a ys) a zs = writeC64s m a zs := by
  refine Memory.ext_of_wf (writeC64s_wf zs (writeC64s_wf ys h a) a) (writeC64s_wf zs h a) fun b =>
    readByte_writeC64s_congr zs ?_
  by_cases hin : a ≤ b ∧ b < a + 16 * zs.length
  · exact .inl hin
  · exact .inr (readByte_writeC64s_other ys m a b (by omega))

section
variable {s : State}

/-- A filter pass that ends after X was written ends as without that write, which it writes over. -/
theorem finishFilter_putX_finish (h : s.mem.wf) {y v : List C64} (hlen : v.length = y.length) :
    (s.putX y).finish.finishFilter v = s.finishFilter v := by
  simp only [State.finishFilter, State.finish, State.putX, State.putOut, State.setMem, writeC64s_overwrite h xBase hlen]

/-- A second refusal for the same cause changes nothing: the first code is kept (R305). -/
theorem turnAway_turnAway (s : State) (e : ErrorCause) : (s.turnAway e).turnAway e = s.turnAway e := rfl

theorem exec_r2c_next {u : State} (h : lengthOk s.params s.cmdLen) (hu : exec .r2c s = .next u) :
    ∃ w, w.length = s.cmdLen.toNat ∧ s.winHolds w ∧ u = (s.putX (realToComplex w)).finish := by
  rw [exec, execR2c, seqCommand_of_lengthOk h] at hu
  obtain ⟨w, hread, hk⟩ := withWin_next hu
  obtain ⟨hw, hm⟩ := (readF64s_eq_some_iff _ _ _ _ _).1 hread
  exact ⟨w, hw, fun k hk => hm k (hw ▸ hk), (Host.Outcome.next.inj hk).symm⟩

end

/-- Settles O26: with a legal length FILTER reads the wrapped samples R2C wrote and writes over them; with any other
both commands, and DENOISE, are turned away for it. -/
theorem denoiseIsR2cThenFilter : Obligations.DenoiseIsR2cThenFilter := by
  unfold Obligations.DenoiseIsR2cThenFilter
  intro s u v cjo hwf hn hu hv
  by_cases hok : lengthOk s.params s.cmdLen
  · obtain ⟨w, hw, hm, rfl⟩ := exec_r2c_next hok hu
    have hwrap : (realToComplex w).length = s.cmdLen.toNat := (realToComplex_length w).trans hw
    have hok' : lengthOk s.params s.nlen := hn ▸ hok
    have hwrap' : (realToComplex w).length = s.nlen.toNat := hn ▸ hwrap
    calc exec (.denoise cjo) s
        = s.finishFilter (filterPass s.rom s.bandLo s.bandHi cjo (realToComplex w)) :=
          exec_denoise_of_winHolds cjo hok hw hm
      _ = (s.putX (realToComplex w)).finish.finishFilter
            (filterPass s.rom s.bandLo s.bandHi cjo (realToComplex w)) :=
          (finishFilter_putX_finish hwf (filterPass_length_of_lengthOk _ _ _ _ hok hwrap)).symm
      _ = exec (.filter cjo) (s.putX (realToComplex w)).finish :=
          (exec_filter_of_xHolds cjo hok' hwrap' (putX_finish_xHolds s _)).symm
      _ = .next v := hv
  · obtain rfl : s.turnAway .badLength = u :=
      Host.Outcome.next.inj ((exec_of_not_lengthOk (.inl rfl) hok).symm.trans hu)
    have hok' : ¬ lengthOk s.params s.nlen := hn ▸ hok
    calc exec (.denoise cjo) s = .next (s.turnAway .badLength) := exec_of_not_lengthOk (.inr rfl) hok
      _ = .next ((s.turnAway .badLength).turnAway .badLength) := by rw [turnAway_turnAway]
      _ = exec (.filter cjo) (s.turnAway .badLength) := (exec_of_not_lengthOk (.inr rfl) hok').symm
      _ = .next v := hv

end Sys2Proof.Machine

namespace Sys2Proof

/-! ### The two inverse variants (R223) -/

section
variable (rom : Nat → C64) (x : List C64)

theorem ifft_map_re : (ifft rom true x).map C64.re = (ifft rom false x).map C64.re := by
  simp only [ifft, List.map_map]
  rfl

theorem ifft_map_im : (ifft rom true x).map C64.im = (ifft rom false x).map fun z => neg64 z.im := by
  simp only [ifft, List.map_map]
  rfl

theorem realParts_filterPass (lo hi : F64) :
    realParts (filterPass rom lo hi true x) = realParts (filterPass rom lo hi false x) :=
  ifft_map_re rom (maskBins lo hi (fft rom x))

end

end Sys2Proof

namespace Sys2Proof.Machine

section
variable {s t u : State}

/-- Two sequence commands on one state are both turned away, or both run. -/
theorem agreeOn_of_seqCommand {P : Nat → Prop} {k k' : Nat → Result} (ht : s.seqCommand k = .next t)
    (hu : s.seqCommand k' = .next u) (h : lengthOk s.params s.cmdLen → k s.cmdLen.toNat = .next t →
      k' s.cmdLen.toNat = .next u → Memory.agreeOn P t.mem u.mem) : Memory.agreeOn P t.mem u.mem := by
  by_cases hok : lengthOk s.params s.cmdLen
  · rw [seqCommand_of_lengthOk hok] at ht hu
    exact h hok ht hu
  · rw [seqCommand_of_not_lengthOk hok] at ht hu
    cases ht
    cases hu
    exact fun _ _ => rfl

/-- The sequence a filter pass writes to X, of at most 4096 elements, ends where OUT begins (R83). -/
theorem agreeOn_out_putX (s : State) {v : List C64} (hv : v.length ≤ 4096) :
    Memory.agreeOn (outBase ≤ ·) (s.putX v).mem s.mem := fun a ha =>
  readByte_writeC64s_other v s.mem xBase a (.inr (by unfold outBase at ha; unfold xBase; omega))

/-- From OUT on, the end of a filter pass leaves what the real parts of its sequence say. -/
theorem agreeOn_out_finishFilter {v v' : List C64} (hv : v.length ≤ 4096) (hre : realParts v = realParts v')
    (ht : s.finishFilter v = .next t) (hu : s.finishFilter v' = .next u) :
    Memory.agreeOn (outBase ≤ ·) t.mem u.mem := by
  have hv' : v'.length ≤ 4096 := by rwa [← realParts_length, ← hre, realParts_length]
  cases ht
  cases hu
  have hx : Memory.agreeOn (outBase ≤ ·) (s.putX v).mem (s.putX v').mem := fun a ha =>
    (agreeOn_out_putX s hv a ha).trans (agreeOn_out_putX s hv' a ha).symm
  rw [hre]
  exact hx.writeF64s (realParts v') outBase

/-- Two filter passes over one sequence, whatever their variants of the inverse. -/
theorem agreeOn_out_filterPass {x : List C64} (hok : lengthOk s.params s.cmdLen) (hx : x.length = s.cmdLen.toNat)
    (ht : s.finishFilter (filterPass s.rom s.bandLo s.bandHi false x) = .next t)
    (hu : s.finishFilter (filterPass s.rom s.bandLo s.bandHi true x) = .next u) :
    Memory.agreeOn (outBase ≤ ·) t.mem u.mem :=
  agreeOn_out_finishFilter ((filterPass_length_le ..).trans (hx.trans_le (toNat_le_of_lengthOk hok)))
    (realParts_filterPass ..).symm ht hu

theorem agreeOn_out_filter (ht : exec (.filter false) s = .next t) (hu : exec (.filter true) s = .next u) :
    Memory.agreeOn (outBase ≤ ·) t.mem u.mem := by
  dsimp only [exec] at ht hu
  refine agreeOn_of_seqCommand ht hu fun hok ht hu => ?_
  obtain ⟨x, hx, ht⟩ := withX_next ht
  obtain ⟨x', hx', hu⟩ := withX_next hu
  obtain rfl : x = x' := Option.some.inj (hx.symm.trans hx')
  exact agreeOn_out_filterPass hok ((readC64s_eq_some_iff _ _ _ _).1 hx).1 ht hu

theorem agreeOn_out_denoise (ht : exec (.denoise false) s = .next t) (hu : exec (.denoise true) s = .next u) :
    Memory.agreeOn (outBase ≤ ·) t.mem u.mem := by
  dsimp only [exec] at ht hu
  refine agreeOn_of_seqCommand ht hu fun hok ht hu => ?_
  obtain ⟨w, hw, ht⟩ := withWin_next ht
  obtain ⟨w', hw', hu⟩ := withWin_next hu
  obtain rfl : w = w' := Option.some.inj (hw.symm.trans hw')
  have hlen : (realToComplex w).length = s.cmdLen.toNat :=
    (realToComplex_length w).trans ((readF64s_eq_some_iff _ _ _ _ _).1 hw).1
  exact agreeOn_out_filterPass hok hlen ht hu

end

/-- Settles O27: the variants differ in a last conjugation, which keeps the real parts OUT takes. -/
theorem inverseVariantsDifferInSign : Obligations.InverseVariantsDifferInSign := by
  unfold Obligations.InverseVariantsDifferInSign
  refine ⟨fun rom x => ⟨ifft_map_re rom x, ifft_map_im rom x⟩, ?_⟩
  rintro s t u a ha (⟨ht, hu⟩ | ⟨ht, hu⟩)
  · exact agreeOn_out_filter ht hu a ha
  · exact agreeOn_out_denoise ht hu a ha

end Sys2Proof.Machine
